-- ==== Sys2Proof/Word.lean ====
section
/-! DEFINITION. The two word types of the block: 32-bit register words and 8-bit components and characters
(spec/00_scope.md R5, R8). -/

namespace Sys2Proof

/-- A register value: every register of the block is 32 bits wide (R8). -/
abbrev Word := BitVec 32

/-- One byte of PIX or PAY: a component is 8 bits (R5), a payload character takes one byte (R64). -/
abbrev Byte := BitVec 8

end Sys2Proof
end

