-- ==== Sys2Proof/Syntax.lean ====
section
/-! DEFINITION. The instructions of the block: the fifteen commands of spec/30_encoding.md R93, one constructor for each row
of spec/opcode_table.json, and the one command format CMD32 of R90. -/

namespace Sys2Proof

/-- The commands (R93). A command word carries no register number and no immediate (R92): every operand is a snapshot
value, so no constructor has an argument. -/
inductive Instr where
  /-- translate a bit index (R115) -/
  | addr
  /-- character offset to bit index (R116) -/
  | c2b
  /-- write the header (R123) -/
  | wrhdr
  /-- read the header (R124) -/
  | rdhdr
  /-- embed one bit into a component value (R139) -/
  | embit
  /-- extract one bit from a component value (R140) -/
  | exbit
  /-- embed one character at a bit index (R141) -/
  | emchr
  /-- extract one character at a bit index (R142) -/
  | exchr
  /-- capacity of the image (R143) -/
  | maxcap
  /-- compute work range i (R157) -/
  | part
  /-- starting bit address of a range (R158) -/
  | limit
  /-- encode one range (R168) -/
  | encrng
  /-- decode one range (R169) -/
  | decrng
  /-- hide the payload in the image (R173) -/
  | encode
  /-- recover the payload from the image (R174) -/
  | decode
deriving DecidableEq, Repr

/-- The two fields of a command word (R90). -/
structure CmdFields where
  /-- bits 31:8, which must be 0 -/
  rsvd : BitVec 24
  /-- bits 7:0, the opcode -/
  opc : BitVec 8
deriving DecidableEq, Repr

end Sys2Proof
end

