-- ==== Sys2Proof/Decode.lean ====
section
/-! DEFINITION. Decoding, total on every word (spec/30_encoding.md R96), and the encoder written from the same opcode map
(R90, R93). -/

namespace Sys2Proof

/-- The fields of a command word (R90): OPC is bits 7:0, RSVD bits 31:8. -/
def fieldsOf (w : Word) : CmdFields :=
  { rsvd := w.extractLsb' 8 24, opc := w.extractLsb' 0 8 }

/-- The command word of two fields (R90). -/
def wordOf (f : CmdFields) : Word := f.rsvd ++ f.opc

/-- The opcode map of R93, read from an opcode; every opcode not listed is illegal (R94). -/
def opcodeMap (opc : BitVec 8) : Option Instr :=
  match opc.toNat with
  | 0x01 => some .addr
  | 0x02 => some .c2b
  | 0x10 => some .wrhdr
  | 0x11 => some .rdhdr
  | 0x20 => some .embit
  | 0x21 => some .exbit
  | 0x22 => some .emchr
  | 0x23 => some .exchr
  | 0x24 => some .maxcap
  | 0x30 => some .part
  | 0x31 => some .limit
  | 0x40 => some .encrng
  | 0x41 => some .decrng
  | 0x50 => some .encode
  | 0x51 => some .decode
  | _ => none

/-- Decoding (R96): the command of OPC if v[31:8] = 0 and OPC is listed, otherwise ILLEGAL (`none`). -/
def decode (w : Word) : Option Instr :=
  if (fieldsOf w).rsvd = 0 then opcodeMap (fieldsOf w).opc else none

/-- The opcode of a command (R93). -/
def opcodeOf : Instr → BitVec 8
  | .addr => 0x01
  | .c2b => 0x02
  | .wrhdr => 0x10
  | .rdhdr => 0x11
  | .embit => 0x20
  | .exbit => 0x21
  | .emchr => 0x22
  | .exchr => 0x23
  | .maxcap => 0x24
  | .part => 0x30
  | .limit => 0x31
  | .encrng => 0x40
  | .decrng => 0x41
  | .encode => 0x50
  | .decode => 0x51

/-- The command word of an instruction (R90): RSVD = 0 and the opcode. -/
def encode (i : Instr) : Word := wordOf { rsvd := 0, opc := opcodeOf i }

/-- The command word the host writes for an opcode-table row: `nbits` bits of `w`, every higher bit 0. -/
def tableWord (nbits w : Nat) : Word := BitVec.ofNat 32 (w % 2 ^ nbits)

/-- What the decoder reads from a table row's word. Every command is exactly one 32-bit word (R91), so a longer row is no
command. -/
def decodeTableWord (nbits w : Nat) : Option Instr :=
  if nbits ≤ 32 then decode (tableWord nbits w) else none

end Sys2Proof
end

