-- ==== Sys2Proof/Config.lean ====
section
/-! DEFINITION. What is fixed for one machine: the constants of spec/00_scope.md R5 and R7, the open parameters of R6 as
plain data, and the two free values of the model (constants without a body, so that nothing can be proved of a value). -/

namespace Sys2Proof

/-- The two byte memories of the block (20_memory.md R60). -/
inductive Space where
  | pix
  | pay
deriving DecidableEq, Repr

/-- The open parameters of R6, which the model takes as an argument: they stand in State and no step changes them.
DESIGN CHOICE (log 3). -/
structure Params where
  /-- number of physical worker engines -/
  numEngines : Nat
  /-- size of PIX in bytes -/
  pixBytes : Nat
  /-- size of PAY in bytes -/
  payBytes : Nat
deriving DecidableEq, Repr

namespace Config

/-- FIRST_PIXEL (R5): pixels reserved for the header. -/
@[simp] abbrev firstPixel : Nat := 11

/-- CHANNELS (R5): components per pixel. -/
@[simp] abbrev channels : Nat := 3

/-- BITS_PER_CHAR (R5). -/
@[simp] abbrev bitsPerChar : Nat := 7

/-- H (R5): width of the header in bits; this model is the H = 32 block (log 14). -/
@[simp] abbrev hdrBits : Nat := 32

/-- PBASE (R7): byte offset of payload bit index 0. -/
@[simp] abbrev pbase : Nat := 33

/-- The constant of the ID register (R27). -/
abbrev idWord : Word := 0x53544701#32

/-- The parameters the spec's test vectors use unless a vector says otherwise (95_test_vectors.md, Conventions).
DESIGN CHOICE as the parameters of `State.reset` (log 3): no statement rests on them. -/
abbrev vectorParams : Params := { numEngines := 2, pixBytes := 64, payBytes := 16 }

/-- What a byte of a memory holds that nothing has written since power-on: unspecified (10_state.md R45, 93 I13), so a
free value, one for each byte of each space (log 2). -/
opaque powerOnByte : Space → Nat → Byte

/-- The draw of R221 for a byte that an abandoned command would have written: true where the write had been performed
when reset arrived. A free value for the n-th reset, the space and the offset (log 7). -/
opaque resetDraw : Nat → Space → Nat → Bool

end Config

end Sys2Proof
end

