-- ==== Sys2Proof/Machine/State.lean ====
section
/-! DEFINITION. The state of the block as plain data (spec/10_state.md), the outside world as plain data (the host's queue of
operations and the schedule of turns), the reasons a step can stop, and the state after reset (R44). -/

namespace Sys2Proof.Machine

/-- A byte memory, PIX or PAY: the bytes something has written, by strictly rising offset (`Memory.wf`). An offset that is
not listed has no written byte (log 2, log 16). -/
abbrev Memory := List Host.Cell

/-- The error codes (60_exceptions.md R190), NONE among them. The values 0xC..0xF are never produced (93 I11). -/
inductive ErrCode where
  | noError
  | illegalCmd
  | wcount
  | imageSmall
  | pixBounds
  | payBounds
  | capacity
  | hdrOverflow
  | charRange
  | bitValue
  | hdrLength
  | rangeIndex
deriving DecidableEq, Repr

/-- The fields of STATUS (10_state.md R30); its reserved bits hold nothing and read 0 (R25; log 20). -/
structure Status where
  busy : Bool
  done : Bool
  err : Bool
  ovr : Bool
  errcode : ErrCode
deriving DecidableEq, Repr

/-- The fields of CTRL (10_state.md R29); its reserved bits read 0 (R25; log 20). -/
structure Ctrl where
  ie : Bool
  chmode : Bool
deriving DecidableEq, Repr

/-- The snapshot of a command (00_scope.md R16). -/
structure Snapshot where
  a0 : Word
  a1 : Word
  a2 : Word
  /-- P, from PIXCNT -/
  p : Word
  /-- Lin, from LEN -/
  lin : Word
  /-- Win, from WREQ -/
  win : Word
  /-- cm, from CTRL.CHMODE -/
  cm : Bool
deriving DecidableEq, Repr

/-- The sequencer's phase (10_state.md R39). -/
inductive Phase where
  | idle
  | run
deriving DecidableEq, Repr

/-- The direction of a range task (10_state.md R41). -/
inductive Dir where
  | enc
  | dec
deriving DecidableEq, Repr

/-- The commands whose ranges the engines run: which one is being dispatched is part of the sequencer's position in its
command (10_state.md R22, R39). -/
inductive Job where
  | encrng
  | decrng
  | encode
  | decode
deriving DecidableEq, Repr

/-- The sequencer (10_state.md R39). -/
structure Sequencer where
  phase : Phase
  /-- the command word accepted last, which the sequencer runs (20_memory.md R82; log 11) -/
  cmd : Word
  snap : Snapshot
  /-- the command whose ranges are being dispatched; none before its checks are done (log 11) -/
  job : Option Job
  /-- L of the command being dispatched -/
  len : Nat
  /-- We of the command being dispatched -/
  weff : Nat
deriving DecidableEq, Repr

/-- The dispatcher (10_state.md R40). -/
structure Dispatcher where
  /-- index of the next range to hand out -/
  nxt : Nat
  /-- the range indices handed out and not finished, rising -/
  live : List Nat
deriving DecidableEq, Repr

/-- An engine (10_state.md R41). -/
structure Engine where
  busy : Bool
  dir : Dir
  /-- index of the assigned range -/
  idx : Nat
  /-- first character of the assigned range -/
  s : Nat
  /-- characters of the assigned range -/
  n : Nat
  /-- character cursor -/
  j : Nat
  /-- bit cursor -/
  k : Nat
  /-- accumulator of a decode task -/
  acc : BitVec 7
deriving DecidableEq, Repr

/-- The register slots of the REG space (10_state.md R26). -/
inductive Reg where
  | id
  | cfg
  | ctrl
  | status
  | cmd
  | arg0
  | arg1
  | arg2
  | res0
  | res1
  | res2
  | pixcnt
  | len
  | wreq
  | weff
  | reserved
deriving DecidableEq, Repr

/-- The width of a host access. -/
inductive Width where
  | byte
  | half
  | word
deriving DecidableEq, Repr

/-- One access of the host port (10_state.md R23): a read or a write of REG, or of PIX or PAY, at an offset, with the data
of a write. An access the port does not admit can be attempted too (20_memory.md R66, R67). -/
inductive Access where
  | readReg (w : Width) (off : Nat)
  | writeReg (w : Width) (off : Nat) (v : Word)
  | readMem (sp : Space) (w : Width) (off : Nat)
  | writeMem (sp : Space) (w : Width) (off : Nat) (v : Word)
deriving DecidableEq, Repr

/-- What the host port answers to an access: the read data and the bus-error signal (20_memory.md R66). -/
structure Response where
  data : Word
  busError : Bool
deriving DecidableEq, Repr

/-- An operation of the host, in its program order (20_memory.md R75): one access; polling STATUS until BUSY is 0 (WAIT,
30_encoding.md R104); waiting for irq (20_memory.md R80). -/
inductive HostOp where
  | access (a : Access)
  | waitIdle
  | waitIrq
deriving DecidableEq, Repr

/-- Which agent moves next (log 1). -/
inductive Turn where
  /-- the host performs its next operation -/
  | host
  /-- the accepted command runs as one transition (45_worker_orchestration.md R179) -/
  | run
  /-- the sequencer does the checks and the header of the accepted command, and opens its dispatch -/
  | start
  /-- the sequencer hands the next range to engine e (R170) -/
  | handOut (e : Nat)
  /-- engine e takes one step of its range task (R171) -/
  | engine (e : Nat)
  /-- the sequencer joins and completes (R172) -/
  | join
  /-- rst is asserted (70_reset_and_hazards.md R220) -/
  | rstOn
  /-- rst is released -/
  | rstOff
deriving DecidableEq, Repr

/-- The state of the block and of what drives it. INVENTORY.md lists every field with its rule and its reset value. -/
structure State where
  params : Params
  ctrl : Ctrl
  status : Status
  arg0 : Word
  arg1 : Word
  arg2 : Word
  res0 : Word
  res1 : Word
  res2 : Word
  pixcnt : Word
  len : Word
  wreq : Word
  weff : Word
  pix : Memory
  pay : Memory
  seq : Sequencer
  disp : Dispatcher
  engines : List Engine
  rst : Bool
  host : List HostOp
  seen : List Response
  sched : List Turn
  freeCtr : Nat
deriving DecidableEq, Repr

/-- Why the machine stops. -/
inductive Fault where
  /-- Raised by the host port: the host accessed a byte of PIX or PAY while STATUS.BUSY = 1, the hazard of
  70_reset_and_hazards.md R229, which a model treats as a fault and gives no value (20_memory.md R79, 93 I6). Safe: the
  block goes on with an unspecified value, the model stops (log 6). -/
  | hostAccessDuringBusy (sp : Space) (off : Nat)
deriving DecidableEq, Repr

/-- Why a step is refused. -/
inductive Refusal where
  /-- Raised by `exec` for an instruction that has no meaning in the model yet; safe, for no claim is made of it. -/
  | notModelled (mnemonic : String)
deriving DecidableEq, Repr

/-- What a step answers. -/
abbrev Result := Host.Outcome State Fault Refusal

/-- STATUS after reset (R44). -/
abbrev Status.reset : Status := { busy := false, done := false, err := false, ovr := false, errcode := .noError }

/-- CTRL after reset (R44). -/
abbrev Ctrl.reset : Ctrl := { ie := false, chmode := false }

/-- The snapshot after reset: 0 (R44). -/
abbrev Snapshot.reset : Snapshot := { a0 := 0, a1 := 0, a2 := 0, p := 0, lin := 0, win := 0, cm := false }

/-- The sequencer after reset: IDLE, snapshot 0 (R44); the rest of it by log 10 and log 11. -/
abbrev Sequencer.reset : Sequencer :=
  { phase := .idle, cmd := 0, snap := Snapshot.reset, job := none, len := 0, weff := 0 }

/-- The dispatcher after reset (R44). -/
abbrev Dispatcher.reset : Dispatcher := { nxt := 0, live := [] }

/-- An idle engine; an engine keeps nothing from one range to the next (R41; log 10). -/
abbrev Engine.idle : Engine := { busy := false, dir := .enc, idx := 0, s := 0, n := 0, j := 0, k := 0, acc := 0 }

/-- The instance `p` right after reset, with launch contents `pix` and `pay` of the memories (R44, R45, R220). -/
def State.resetOf (p : Params) (pix pay : Memory) : State where
  params := p
  ctrl := Ctrl.reset
  status := Status.reset
  arg0 := 0
  arg1 := 0
  arg2 := 0
  res0 := 0
  res1 := 0
  res2 := 0
  pixcnt := 0
  len := 0
  wreq := 0
  weff := 0
  pix := pix
  pay := pay
  seq := Sequencer.reset
  disp := Dispatcher.reset
  engines := List.replicate p.numEngines Engine.idle
  rst := false
  host := []
  seen := []
  sched := []
  freeCtr := 0

/-- The machine right after reset (R44): nothing listed in PIX or PAY, and the instance of the spec's test vectors
(DESIGN CHOICE, log 3). -/
def State.reset : State := State.resetOf Config.vectorParams [] []

end Sys2Proof.Machine
end

