-- ==== Sys2Proof/Machine/Flags.lean ====
section
/-! DEFINITION. The status and control words: their layout as the host reads and writes them, the error codes, the
write-one-to-clear rule of STATUS, and the irq output (spec/10_state.md R28–R30; 60_exceptions.md R190, R198, R201). No
command computes a flag as an arithmetic side effect (R43), so there is no other flag computation. -/

namespace Sys2Proof.Machine

/-- The numeric codes of STATUS.ERRCODE (R190). -/
def ErrCode.code : ErrCode → BitVec 4
  | .noError => 0x0
  | .illegalCmd => 0x1
  | .wcount => 0x2
  | .imageSmall => 0x3
  | .pixBounds => 0x4
  | .payBounds => 0x5
  | .capacity => 0x6
  | .hdrOverflow => 0x7
  | .charRange => 0x8
  | .bitValue => 0x9
  | .hdrLength => 0xA
  | .rangeIndex => 0xB

/-- A bit at a position of a register word, 0 elsewhere (R9). -/
def bitAt (b : Bool) (pos : Nat) : Word := (BitVec.ofBool b).setWidth 32 <<< pos

/-- STATUS as the host reads it (R30): BUSY 0, DONE 1, ERR 2, OVR 3, ERRCODE 11:8, the other bits 0. -/
def Status.toWord (st : Status) : Word :=
  bitAt st.busy 0 ||| bitAt st.done 1 ||| bitAt st.err 2 ||| bitAt st.ovr 3 ||| (st.errcode.code.setWidth 32 <<< 8)

/-- A host write of `v` to STATUS (R30, R198): a 1 in bit 1, 2, 3 clears DONE, ERR, OVR, and clearing ERR sets ERRCODE to 0
in the same write. Every other bit of `v` is ignored. -/
def Status.acknowledge (st : Status) (v : Word) : Status :=
  { st with
    done := st.done && !v.getLsbD 1
    err := st.err && !v.getLsbD 2
    ovr := st.ovr && !v.getLsbD 3
    errcode := if v.getLsbD 2 then .noError else st.errcode }

/-- CTRL as the host reads it (R29): IE 0, CHMODE 1. -/
def Ctrl.toWord (c : Ctrl) : Word := bitAt c.ie 0 ||| bitAt c.chmode 1

/-- A host write of `v` to CTRL (R29): bits 0 and 1 are stored, the reserved bits ignored (R25). -/
def Ctrl.ofWord (v : Word) : Ctrl := { ie := v.getLsbD 0, chmode := v.getLsbD 1 }

/-- CFG (R28): `(NUM_ENGINES-1) << 24 | 32 << 16 | 11 << 8 | 3 << 4 | 7`. -/
def cfgWord (p : Params) : Word :=
  (BitVec.ofNat 32 (p.numEngines - 1) <<< 24) ||| (BitVec.ofNat 32 Config.hdrBits <<< 16) |||
    (BitVec.ofNat 32 Config.firstPixel <<< 8) ||| (BitVec.ofNat 32 Config.channels <<< 4) ||| BitVec.ofNat 32 Config.bitsPerChar

/-- The interrupt output (R201): level, active high. -/
def State.irq (s : State) : Bool := s.ctrl.ie && s.status.done

end Sys2Proof.Machine
end

