-- ==== Sys2Proof/Machine/Operands.lean ====
section
/-! DEFINITION. The operand forms of the commands (spec/30_encoding.md R92): snapshot values as unsigned numbers, the two
values read as signed32 (00_scope.md R14), the component and bit slices of EMBIT and EXBIT (R139, R140), and a character
under CHMODE (43_payload_codec.md R132). -/

namespace Sys2Proof.Machine

/-- `signed32(v)` (R14): the two's-complement integer of a register value. -/
def signed32 (v : Word) : Int := v.toInt

/-- Operand a0 as a number, zero-extended (R92). -/
abbrev State.opA0 (s : State) : Nat := s.seq.snap.a0.toNat

/-- Operand a1 as a number, zero-extended (R92). -/
abbrev State.opA1 (s : State) : Nat := s.seq.snap.a1.toNat

/-- Operand a2 as a number, zero-extended (R92). -/
abbrev State.opA2 (s : State) : Nat := s.seq.snap.a2.toNat

/-- Operand P, the pixel count (R34, R92). -/
abbrev State.opP (s : State) : Nat := s.seq.snap.p.toNat

/-- Operand Lin, the payload length (R35, R92). -/
abbrev State.opLin (s : State) : Nat := s.seq.snap.lin.toNat

/-- Operand Win, the requested worker count, read as signed32 (R36, R92). -/
abbrev State.opWin (s : State) : Int := signed32 s.seq.snap.win

/-- PART's operand a1, a worker count read as signed32 (R157). -/
abbrev State.opA1Signed (s : State) : Int := signed32 s.seq.snap.a1

/-- The component operand a0[7:0] (R139): a0[31:8] is ignored. -/
abbrev State.opComponent (s : State) : Byte := s.seq.snap.a0.setWidth 8

/-- The bit operand a1[0] (R139). -/
abbrev State.opBit (s : State) : Bool := s.seq.snap.a1.getLsbD 0

/-- The latched character mode cm (R16, R29): false rejects a character of 128 or more, true truncates it. -/
abbrev State.opCm (s : State) : Bool := s.seq.snap.cm

/-- Whether a character value passes CHMODE (R132): it is below 128, or the mode truncates. -/
def charAdmitted (cm : Bool) (ch : Nat) : Bool := decide (ch < 128) || cm

/-- The normalised character of an operand: `ch mod 128`, which is `ch` where ch < 128 (R132). -/
def normChar (ch : Word) : BitVec 7 := ch.setWidth 7

/-- The normalised character of a payload byte (R132, R165). -/
def normByte (v : Byte) : BitVec 7 := v.setWidth 7

end Sys2Proof.Machine
end

