-- ==== Sys2Proof/Machine/Ops.lean ====
section
/-! DEFINITION. The shared operations: the byte memories (spec/20_memory.md), the ordered checks of a command
(30_encoding.md R99), error completion and successful completion (60_exceptions.md R196, R197), the image check (R192), and
acceptance and refusal of a CMD write (30_encoding.md R97, R98). -/

namespace Sys2Proof.Machine

/-! ### The byte memories -/

/-- The canonical form of a memory: offsets strictly rising. An offset that is not listed has no written byte, so no entry
can equal what an unlisted offset holds (log 16). -/
abbrev Memory.wf (m : Memory) : Prop := List.Pairwise (fun c d : Host.Cell => c.1 < d.1) m

/-- Every listed offset lies below the size of the space. -/
abbrev Memory.within (n : Nat) (m : Memory) : Prop := ∀ c ∈ m, c.1 < n

/-- The byte written at an offset, if any. -/
def Memory.lookup : Memory → Nat → Option Byte
  | [], _ => none
  | (x, v) :: m, a => if x = a then some v else Memory.lookup m a

/-- `MemRead` (00_scope.md R12): the byte last written at an offset (20_memory.md R71), or the unspecified power-on byte
(10_state.md R45; log 2). -/
def Memory.read (sp : Space) (m : Memory) (a : Nat) : Byte := (Memory.lookup m a).getD (Config.powerOnByte sp a)

/-- `MemWrite` (R12): one byte, exactly that byte (20_memory.md R72). -/
def Memory.write : Memory → Nat → Byte → Memory
  | [], a, v => [(a, v)]
  | (x, w) :: m, a, v =>
    if a < x then (a, v) :: (x, w) :: m else if x = a then (a, v) :: m else (x, w) :: Memory.write m a v

/-- `PIX[a]` (R12). -/
def State.pixAt (s : State) (a : Nat) : Byte := Memory.read .pix s.pix a

/-- `PAY[a]` (R12). -/
def State.payAt (s : State) (a : Nat) : Byte := Memory.read .pay s.pay a

/-- `embed_bit(v, e) = (v AND 0xFE) OR e` (43_payload_codec.md R130). -/
def embedBit (v : Byte) (e : Bool) : Byte := (v &&& 0xFE#8) ||| (BitVec.ofBool e).setWidth 8

/-- `extract_bit(v) = v mod 2 = v[0]` (R131). -/
def extractBit (v : Byte) : Bool := v.getLsbD 0

/-- `n` bits embedded into consecutive PIX bytes from offset `base`, bit 0 of the sequence first (the loops of
42_header_codec.md R122 and 43_payload_codec.md R134). -/
def embedBits (bits : Nat → Bool) (base : Nat) : Nat → Memory → Memory
  | 0, m => m
  | n + 1, m =>
    let m' := embedBits bits base n m
    Memory.write m' (base + n) (embedBit (Memory.read .pix m' (base + n)) (bits n))

/-- The number whose `n` bits are `bits 0`, `bits 1`, … with the most significant first: the accumulation
`Σ bit_i · 2^(n-1-i)` of R121 and R135. -/
def bitsValue (bits : Nat → Bool) : Nat → Nat
  | 0 => 0
  | n + 1 => 2 * bitsValue bits n + (bits n).toNat

/-! ### Checks and completion -/

/-- `check C else CODE` (00_scope.md R13): a condition and the code raised where it fails. -/
abbrev Check := Bool × ErrCode

/-- The first check that fails; no later check is evaluated (30_encoding.md R99). -/
def firstError : List Check → Option ErrCode
  | [] => none
  | (ok, code) :: rest => if ok then firstError rest else some code

/-- `phase <- IDLE`: the sequencer holds a job, L, We and dispatcher state during a command only (10_state.md R39; log 10). -/
def toIdle (s : State) : State :=
  { s with
    seq := { s.seq with phase := .idle, job := none, len := 0, weff := 0 }
    disp := Dispatcher.reset }

/-- Error completion, the taking of an exception (60_exceptions.md R196): one step that writes BUSY, DONE, ERR and ERRCODE
and saves no other state. -/
def raiseError (code : ErrCode) (s : State) : State :=
  { toIdle s with status := { s.status with busy := false, done := true, err := true, errcode := code } }

/-- Successful completion (R197): BUSY and DONE. -/
def complete (s : State) : State :=
  { toIdle s with status := { s.status with busy := false, done := true } }

/-- Acknowledgement, the return from an error (R198): a host write of `v` to STATUS. -/
def acknowledge (v : Word) (s : State) : State := { s with status := s.status.acknowledge v }

/-- Check, then act (R99): the first failing check raises its error and nothing else happens; otherwise the command has its
effect and completes. -/
def runChecked (checks : List Check) (body : State → State) (s : State) : Result :=
  match firstError checks with
  | some code => .next (raiseError code s)
  | none => .next (complete (body s))

/-- `image_check(P)` (R192). -/
def imageChecks (s : State) : List Check :=
  [(decide (Config.firstPixel ≤ s.opP), .imageSmall), (decide (3 * s.opP ≤ s.params.pixBytes), .pixBounds)]

/-! ### Acceptance of a command -/

/-- The snapshot of the operand registers (00_scope.md R16, 30_encoding.md R97). -/
def State.snapshot (s : State) : Snapshot :=
  { a0 := s.arg0, a1 := s.arg1, a2 := s.arg2, p := s.pixcnt, lin := s.len, win := s.wreq, cm := s.ctrl.chmode }

/-- Acceptance of the command word `v` (R97): the snapshot, DONE <- 0, BUSY <- 1, phase <- RUN. -/
def accept (v : Word) (s : State) : State :=
  { s with
    status := { s.status with busy := true, done := false }
    seq := { phase := .run, cmd := v, snap := s.snapshot, job := none, len := 0, weff := 0 } }

/-- A host write of `v` to CMD: refused while BUSY = 1 or ERR = 1, which sets OVR and changes nothing else (R98);
accepted otherwise (R97). -/
def cmdWrite (v : Word) (s : State) : State :=
  if s.status.busy || s.status.err then { s with status := { s.status with ovr := true } } else accept v s

/-- The state in which the command word `v` has just been accepted and runs next: an acceptance (R97) forced by clearing
what would refuse or delay it (ERR with ERRCODE, rst), with the sequencer's turn next (log 4). -/
def acceptForced (v : Word) (s : State) : State :=
  accept v { s with status := { s.status with err := false, errcode := .noError }, rst := false, sched := .run :: s.sched }

end Sys2Proof.Machine
end

