-- ==== Sys2Proof/Machine/BitAddressing.lean ====
section
/-! DEFINITION. Bit addressing (spec/41_bit_addressing.md): the translation and the commands ADDR and C2B. -/

namespace Sys2Proof.Machine

/-- `address(b)` (R110): the (pixel, channel) pair of a bit index. -/
def address (b : Nat) : Nat × Nat := (Config.firstPixel + b / 3, b % 3)

/-- `boff(b) = 3 * pixel + channel` (R111), the PIX offset of a bit index. -/
def boff (b : Nat) : Nat := Config.channels * (address b).1 + (address b).2

/-- `c2b(k) = 7 * k` (R113). -/
def c2b (k : Nat) : Nat := Config.bitsPerChar * k

/-- ADDR (R115): RES0 the pixel, RES1 the channel of bit index a0. -/
def execAddr (s : State) : Result :=
  .next (complete { s with res0 := BitVec.ofNat 32 (address s.opA0).1, res1 := BitVec.ofNat 32 (address s.opA0).2 })

/-- C2B (R116): the exact product 7 * a0, low part in RES0 and high part in RES1. -/
def execC2b (s : State) : Result :=
  .next (complete { s with res0 := BitVec.ofNat 32 (c2b s.opA0), res1 := BitVec.ofNat 32 (c2b s.opA0 / 2 ^ 32) })

end Sys2Proof.Machine
end

