-- ==== Sys2Proof/Machine/HeaderCodec.lean ====
section
/-! DEFINITION. The header codec (spec/42_header_codec.md): the header functions and the commands WRHDR and RDHDR. -/

namespace Sys2Proof.Machine

/-- `hdr_write(n)` (R122): header position i, in bit 0 of PIX byte i, holds n[H-1-i] (R120). -/
def hdrWrite (n : Nat) (m : Memory) : Memory := embedBits (fun i => n.testBit (Config.hdrBits - 1 - i)) 0 Config.hdrBits m

/-- `hdr_read()` (R121): the lowest bits of PIX bytes 0..H-1, most significant first. -/
def hdrRead (m : Memory) : Nat := bitsValue (fun i => extractBit (Memory.read .pix m i)) Config.hdrBits

/-- The checks of WRHDR in order (R123, 60_exceptions.md R194). HDR_OVERFLOW never fails at H = 32. -/
def wrhdrChecks (s : State) : List Check :=
  imageChecks s ++ [(decide (s.opA0 < 2 ^ Config.hdrBits), .hdrOverflow)]

/-- WRHDR (R123): write a0 as the header. -/
def execWrhdr (s : State) : Result :=
  runChecked (wrhdrChecks s) (fun s => { s with pix := hdrWrite s.opA0 s.pix }) s

/-- RDHDR (R124): read the header into RES0. -/
def execRdhdr (s : State) : Result :=
  runChecked (imageChecks s) (fun s => { s with res0 := BitVec.ofNat 32 (hdrRead s.pix) }) s

end Sys2Proof.Machine
end

