-- ==== Sys2Proof/Machine/Partitioner.lean ====
section
/-! DEFINITION. The work partitioner (spec/44_work_partitioner.md): the ranges of a payload, and the commands PART and
LIMIT. -/

namespace Sys2Proof.Machine

/-- `We = min(W, L)` (R150), for a requested count W that has passed its check. -/
def effWorkers (w : Int) (l : Nat) : Nat := min w.toNat l

/-- `start(i)` (R151): round half up of L * i / We, exactly. -/
def rangeStart (l we i : Nat) : Nat := (2 * l * i + we) / (2 * we)

/-- `count(i) = start(i + 1) - start(i)` (R152). -/
def rangeCount (l we i : Nat) : Nat := rangeStart l we (i + 1) - rangeStart l we i

/-- `get_limits(s) = address(c2b(s))` (R156). -/
def getLimits (s : Nat) : Nat × Nat := address (c2b s)

/-- The check of a requested worker count (R150). -/
def workerCheck (w : Int) : Check := (decide (1 ≤ w), .wcount)

/-- PART (R157): range a2 of the partition of a0 characters over signed32(a1) workers. -/
def execPart (s : State) : Result :=
  let we := effWorkers s.opA1Signed s.opA0
  runChecked [workerCheck s.opA1Signed, (decide (s.opA2 < we), .rangeIndex)]
    (fun s => { s with
      res0 := BitVec.ofNat 32 (rangeStart s.opA0 we s.opA2)
      res1 := BitVec.ofNat 32 (rangeCount s.opA0 we s.opA2)
      res2 := BitVec.ofNat 32 we }) s

/-- LIMIT (R158): the bit address of character offset a0, the pixel split over RES0 and RES1, the channel in RES2. -/
def execLimit (s : State) : Result :=
  .next (complete { s with
    res0 := BitVec.ofNat 32 (getLimits s.opA0).1
    res1 := BitVec.ofNat 32 ((getLimits s.opA0).1 / 2 ^ 32)
    res2 := BitVec.ofNat 32 (getLimits s.opA0).2 })

end Sys2Proof.Machine
end

