-- ==== Sys2Proof/Machine/PayloadCodec.lean ====
section
/-! DEFINITION. The payload codec (spec/43_payload_codec.md): characters in the payload area, the capacity, and the commands
EMBIT, EXBIT, EMCHR, EXCHR and MAXCAP. -/

namespace Sys2Proof.Machine

/-- `cbit(ch, k) = ch[6 - k]` (R133): bit k of a character's 7-bit sequence, high bit first. -/
def cbit (ch : BitVec 7) (k : Nat) : Bool := ch.getLsbD (6 - k)

/-- `embed_char(b, ch)` (R134). -/
def embedChar (b : Nat) (ch : BitVec 7) (m : Memory) : Memory := embedBits (cbit ch) (boff b) Config.bitsPerChar m

/-- `extract_char(b)` (R135). -/
def extractChar (b : Nat) (m : Memory) : Nat :=
  bitsValue (fun k => extractBit (Memory.read .pix m (boff b + k))) Config.bitsPerChar

/-- `max_capacity(P)` (R137). -/
def maxCapacity (p : Nat) : Nat := if Config.firstPixel ≤ p then (p - Config.firstPixel) * 3 / 7 else 0

/-- EMBIT (R139): the component a0[7:0] with the bit a1 embedded, in RES0; a1 must be 0 or 1. -/
def execEmbit (s : State) : Result :=
  runChecked [(decide (s.opA1 ≤ 1), .bitValue)]
    (fun s => { s with res0 := (embedBit s.opComponent s.opBit).setWidth 32 }) s

/-- EXBIT (R140): a0[0] in RES0. -/
def execExbit (s : State) : Result :=
  .next (complete { s with res0 := (BitVec.ofBool (extractBit s.opComponent)).setWidth 32 })

/-- The bounds check of the seven bytes of a character at bit index a0 (R141, R142, 60_exceptions.md R193). -/
def charSpanCheck (s : State) : Check := (decide (Config.pbase + s.opA0 + Config.bitsPerChar ≤ 3 * s.opP), .pixBounds)

/-- EMCHR (R141): embed the character a1 at bit index a0. -/
def execEmchr (s : State) : Result :=
  runChecked (imageChecks s ++ [charSpanCheck s, (charAdmitted s.opCm s.opA1, .charRange)])
    (fun s => { s with pix := embedChar s.opA0 (normChar s.seq.snap.a1) s.pix }) s

/-- EXCHR (R142): extract the character at bit index a0 into RES0. -/
def execExchr (s : State) : Result :=
  runChecked (imageChecks s ++ [charSpanCheck s])
    (fun s => { s with res0 := BitVec.ofNat 32 (extractChar s.opA0 s.pix) }) s

/-- MAXCAP (R143): the capacity of P pixels in RES0; no image check. -/
def execMaxcap (s : State) : Result :=
  .next (complete { s with res0 := BitVec.ofNat 32 (maxCapacity s.opP) })

end Sys2Proof.Machine
end

