-- ==== Sys2Proof/Machine/WorkerTasks.lean ====
section
/-! DEFINITION. Worker tasks (spec/45_worker_orchestration.md): the range tasks, the ranges of a job, opening and joining a
job, and the commands ENCRNG and DECRNG. -/

namespace Sys2Proof.Machine

/-! ### Range tasks -/

/-- `enc_range(s, n)` (R165) on PIX, reading `pay`. -/
def encRange (pay : Memory) (s : Nat) : Nat → Memory → Memory
  | 0, m => m
  | n + 1, m => embedChar (c2b (s + n)) (normByte (Memory.read .pay pay (s + n))) (encRange pay s n m)

/-- `dec_range(s, n)` (R166) on PAY, reading `pix`. -/
def decRange (pix : Memory) (s : Nat) : Nat → Memory → Memory
  | 0, m => m
  | n + 1, m => Memory.write (decRange pix s n m) (s + n) (BitVec.ofNat 8 (extractChar (c2b (s + n)) pix))

/-- One range task run to its end. -/
def runRange (d : Dir) (r : Nat × Nat) (s : State) : State :=
  match d with
  | .enc => { s with pix := encRange s.pay r.1 r.2 s.pix }
  | .dec => { s with pay := decRange s.pix r.1 r.2 s.pay }

/-! ### Jobs: the commands whose ranges the engines run -/

/-- The direction of a job's range tasks. -/
def Job.dir : Job → Dir
  | .encrng => .enc
  | .decrng => .dec
  | .encode => .enc
  | .decode => .dec

/-- How many ranges a job has: We for ENCODE and DECODE (R170), one for ENCRNG and DECRNG, whose range one engine runs
(R168, R169; log 18). -/
def State.jobCount (s : State) : Job → Nat
  | .encrng => 1
  | .decrng => 1
  | .encode => s.seq.weff
  | .decode => s.seq.weff

/-- Range i of a job, as (start, count), computed when it is handed out (R170, 10_state.md R40). -/
def State.jobRange (s : State) (i : Nat) : Job → Nat × Nat
  | .encrng => (s.opA0, s.opA1)
  | .decrng => (s.opA0, s.opA1)
  | .encode => (rangeStart s.seq.len s.seq.weff i, rangeCount s.seq.len s.seq.weff i)
  | .decode => (rangeStart s.seq.len s.seq.weff i, rangeCount s.seq.len s.seq.weff i)

/-- The first `n` ranges of a job, one after another in index order (R179). -/
def runRanges (j : Job) : Nat → State → State
  | 0, s => s
  | n + 1, s => runRange j.dir (s.jobRange n j) (runRanges j n s)

/-- The sequencer opens the dispatch of a job with L characters and We ranges (R170, 10_state.md R39, R40). -/
def openJob (j : Job) (l we : Nat) (s : State) : State :=
  { s with seq := { s.seq with job := some j, len := l, weff := we }, disp := Dispatcher.reset }

/-- The registers a job writes once its ranges have ended: WEFF (ENCODE, R173), and RES0, LEN and WEFF (DECODE, R174;
RES0 at completion by 10_state.md R33, log 12). -/
def jobResults (j : Job) (s : State) : State :=
  match j with
  | .encrng => s
  | .decrng => s
  | .encode => { s with weff := BitVec.ofNat 32 s.seq.weff }
  | .decode => { s with
      res0 := BitVec.ofNat 32 s.seq.len
      len := BitVec.ofNat 32 s.seq.len
      weff := BitVec.ofNat 32 s.seq.weff }

/-- The join (R172): the sequencer writes the job's registers and completes the command (60_exceptions.md R197). -/
def joinJob (j : Job) (s : State) : State := complete (jobResults j s)

/-- An opened job run to completion, its ranges in index order (R179); where no job is open (a check has failed and the
command is complete) nothing is left to do. -/
def finishJob (s : State) : State :=
  match s.seq.job with
  | some j => joinJob j (runRanges j (s.jobCount j) s)
  | none => s

/-- The opening of a command with a job: its checks, then its work before dispatch. -/
def openChecked (checks : List Check) (body : State → State) (s : State) : State :=
  match firstError checks with
  | some code => raiseError code s
  | none => body s

/-! ### The single-range commands -/

/-- The bounds checks of a character range in the image and in PAY (R168, R169, 60_exceptions.md R193). -/
def rangeChecks (s : State) : List Check :=
  [(decide (Config.pbase + Config.bitsPerChar * (s.opA0 + s.opA1) ≤ 3 * s.opP), .pixBounds),
   (decide (s.opA0 + s.opA1 ≤ s.params.payBytes), .payBounds)]

/-- The check of the characters PAY[from .. from+n-1] under CHMODE (R168, R173). -/
def charsCheck (s : State) (start n : Nat) : Check :=
  (s.opCm || (List.range n).all (fun j => decide ((s.payAt (start + j)).toNat < 128)), .charRange)

/-- ENCRNG up to its dispatch (R168). -/
def openEncrng (s : State) : State :=
  openChecked (imageChecks s ++ rangeChecks s ++ [charsCheck s s.opA0 s.opA1]) (openJob .encrng 0 0) s

/-- DECRNG up to its dispatch (R169). -/
def openDecrng (s : State) : State :=
  openChecked (imageChecks s ++ rangeChecks s) (openJob .decrng 0 0) s

/-- ENCRNG (R168): encode the a1 characters from offset a0. -/
def execEncrng (s : State) : Result := .next (finishJob (openEncrng s))

/-- DECRNG (R169): decode the a1 characters from offset a0. -/
def execDecrng (s : State) : Result := .next (finishJob (openDecrng s))

end Sys2Proof.Machine
end

