-- ==== Sys2Proof/Machine/Orchestration.lean ====
section
/-! DEFINITION. The orchestrated commands ENCODE and DECODE (spec/45_worker_orchestration.md R173, R174). -/

namespace Sys2Proof.Machine

/-- The checks of ENCODE in order (R173, 60_exceptions.md R194). HDR_OVERFLOW never fails at H = 32. -/
def encodeChecks (s : State) : List Check :=
  workerCheck s.opWin :: imageChecks s ++
    [(decide (s.opLin ≤ maxCapacity s.opP), .capacity),
     (decide (s.opLin ≤ s.params.payBytes), .payBounds),
     (decide (s.opLin < 2 ^ Config.hdrBits), .hdrOverflow),
     charsCheck s 0 s.opLin]

/-- ENCODE up to its dispatch: the checks, the header, and the effective worker count (R173, 20_memory.md R78). -/
def openEncode (s : State) : State :=
  openChecked (encodeChecks s)
    (fun s => openJob .encode s.opLin (effWorkers s.opWin s.opLin) { s with pix := hdrWrite s.opLin s.pix }) s

/-- ENCODE (R173): hide the payload in the image. -/
def execEncode (s : State) : Result := .next (finishJob (openEncode s))

/-- The checks of DECODE before the header is read (R174). -/
def decodeChecks (s : State) : List Check := workerCheck s.opWin :: imageChecks s

/-- The checks of the decoded length `l` (R174). -/
def lengthChecks (s : State) (l : Nat) : List Check :=
  [(decide (l ≤ maxCapacity s.opP), .hdrLength), (decide (l ≤ s.params.payBytes), .hdrLength)]

/-- DECODE after the header read gave `l` (R174): RES0 takes `l` even where the length is rejected. -/
def openDecodeLength (l : Nat) (s : State) : State :=
  match firstError (lengthChecks s l) with
  | some code => raiseError code { s with res0 := BitVec.ofNat 32 l }
  | none => openJob .decode l (effWorkers s.opWin l) s

/-- DECODE up to its dispatch (R174). -/
def openDecode (s : State) : State :=
  openChecked (decodeChecks s) (fun s => openDecodeLength (hdrRead s.pix) s) s

/-- DECODE (R174): recover the payload from the image. -/
def execDecode (s : State) : Result := .next (finishJob (openDecode s))

end Sys2Proof.Machine
end

