-- ==== Sys2Proof/Machine/Dispatch.lean ====
section
/-! DEFINITION. The dispatch of an accepted command to its meaning (spec/30_encoding.md R93, R97): the whole command as one
transition from acceptance to completion (45_worker_orchestration.md R179), on the snapshot State holds. -/

namespace Sys2Proof.Machine

def exec (i : Instr) (s : State) : Host.Outcome State Fault Refusal :=
  match i with
  | .addr => Sys2Proof.Machine.execAddr s
  | .c2b => Sys2Proof.Machine.execC2b s
  | .wrhdr => Sys2Proof.Machine.execWrhdr s
  | .rdhdr => Sys2Proof.Machine.execRdhdr s
  | .embit => Sys2Proof.Machine.execEmbit s
  | .exbit => Sys2Proof.Machine.execExbit s
  | .emchr => Sys2Proof.Machine.execEmchr s
  | .exchr => Sys2Proof.Machine.execExchr s
  | .maxcap => Sys2Proof.Machine.execMaxcap s
  | .part => Sys2Proof.Machine.execPart s
  | .limit => Sys2Proof.Machine.execLimit s
  | .encrng => Sys2Proof.Machine.execEncrng s
  | .decrng => Sys2Proof.Machine.execDecrng s
  | .encode => Sys2Proof.Machine.execEncode s
  | .decode => Sys2Proof.Machine.execDecode s

end Sys2Proof.Machine
end

