-- ==== Sys2Proof/Machine/Engines.lean ====
section
/-! DEFINITION. The engines and the dispatcher step by step (spec/10_state.md R40, R41; 45_worker_orchestration.md
R170–R172): handing out a range, one step of a range task, finishing it, and the join. A turn that is not possible in a
state changes nothing (log 19). -/

namespace Sys2Proof.Machine

/-- The engine given range `i` of job `j` (R170): cursors and accumulator at 0. -/
def engineFor (j : Job) (i : Nat) (s : State) : Engine :=
  { busy := true, dir := j.dir, idx := i, s := (s.jobRange i j).1, n := (s.jobRange i j).2, j := 0, k := 0, acc := 0 }

/-- Whether engine e exists and is idle. -/
def State.engineIdle (s : State) (e : Nat) : Bool :=
  match s.engines[e]? with
  | some g => !g.busy
  | none => false

/-- The dispatcher hands range `nxt` to engine e, if e is idle and a range is left (R170). -/
def handOut (e : Nat) (s : State) : State :=
  match s.seq.job with
  | some j =>
    if s.disp.nxt < s.jobCount j ∧ s.engineIdle e then
      { s with
        engines := s.engines.set e (engineFor j s.disp.nxt s)
        disp := { nxt := s.disp.nxt + 1, live := s.disp.live ++ [s.disp.nxt] } }
    else s
  | none => s

/-- The cursors after one bit: k ascending within a character, j ascending within the range (R171). -/
def Engine.advance (g : Engine) : Engine :=
  if g.k = 6 then { g with j := g.j + 1, k := 0 } else { g with k := g.k + 1 }

/-- The PIX offset an engine works at: bit k of its character s + j (R134, R165). -/
def Engine.pixOff (g : Engine) : Nat := boff (c2b (g.s + g.j)) + g.k

/-- One step of an encode task: one bit of the character embedded into one PIX byte (R134, R165; log 9). -/
def encodeBit (e : Nat) (g : Engine) (s : State) : State :=
  let ch := normByte (s.payAt (g.s + g.j))
  { s with
    pix := Memory.write s.pix g.pixOff (embedBit (s.pixAt g.pixOff) (cbit ch g.k))
    engines := s.engines.set e g.advance }

/-- The accumulator with the bit an engine reads now added at its weight 2^(6-k) (R135). -/
def Engine.accumulate (g : Engine) (b : Bool) : BitVec 7 := g.acc ||| ((BitVec.ofBool b).setWidth 7 <<< (6 - g.k))

/-- One step of a decode task: one bit read from PIX into the accumulator; the seventh bit completes the character, which is
written to its PAY byte with bit 7 = 0 (R135, R166). -/
def decodeBit (e : Nat) (g : Engine) (s : State) : State :=
  let acc := g.accumulate (extractBit (s.pixAt g.pixOff))
  if g.k = 6 then
    { s with
      pay := Memory.write s.pay (g.s + g.j) (acc.setWidth 8)
      engines := s.engines.set e { g.advance with acc := 0 } }
  else { s with engines := s.engines.set e { g.advance with acc := acc } }

/-- An engine that has done its range becomes idle, and the range leaves `live` (R40, R41). -/
def finishRange (e : Nat) (g : Engine) (s : State) : State :=
  { s with
    engines := s.engines.set e Engine.idle
    disp := { s.disp with live := s.disp.live.erase g.idx } }

/-- One step of engine e (R171). -/
def engineStep (e : Nat) (s : State) : State :=
  match s.engines[e]? with
  | some g =>
    if g.busy then
      if g.j < g.n then
        match g.dir with
        | .enc => encodeBit e g s
        | .dec => decodeBit e g s
      else finishRange e g s
    else s
  | none => s

/-- The join (R172): once every range is handed out and none is live, the sequencer writes the job's registers and completes
the command. -/
def joinStep (s : State) : State :=
  match s.seq.job with
  | some j => if s.jobCount j ≤ s.disp.nxt ∧ s.disp.live = [] then joinJob j s else s
  | none => s

end Sys2Proof.Machine
end

