-- ==== Sys2Proof/Machine/HostPort.lean ====
section
/-! DEFINITION. The host port (spec/20_memory.md R60–R71): the register map as the host reads and writes it, the admitted
accesses, the refusal of the others, the hazard of a memory access while a command runs, and the host's operations. -/

namespace Sys2Proof.Machine

/-! ### The register map -/

/-- The offset of a register slot (10_state.md R26). -/
def Reg.offset : Reg → Nat
  | .id => 0x00
  | .cfg => 0x04
  | .ctrl => 0x08
  | .status => 0x0C
  | .cmd => 0x10
  | .arg0 => 0x14
  | .arg1 => 0x18
  | .arg2 => 0x1C
  | .res0 => 0x20
  | .res1 => 0x24
  | .res2 => 0x28
  | .pixcnt => 0x2C
  | .len => 0x30
  | .wreq => 0x34
  | .weff => 0x38
  | .reserved => 0x3C

/-- The sixteen slots in order (R24, R26). -/
def regSlots : List Reg :=
  [.id, .cfg, .ctrl, .status, .cmd, .arg0, .arg1, .arg2, .res0, .res1, .res2, .pixcnt, .len, .wreq, .weff, .reserved]

/-- The slot at an offset of REG, if the offset is a multiple of 4 and at most 0x3C (R24, 20_memory.md R66). -/
def regAt (off : Nat) : Option Reg := if off % 4 = 0 then regSlots[off / 4]? else none

/-- What a read of a slot returns; no read has a side effect (20_memory.md R71). CMD is write-only and reads 0 (R31), the
reserved slot reads 0 (R38), reserved bits read 0 (R25). -/
def regRead (r : Reg) (s : State) : Word :=
  match r with
  | .id => Config.idWord
  | .cfg => cfgWord s.params
  | .ctrl => s.ctrl.toWord
  | .status => s.status.toWord
  | .cmd => 0
  | .arg0 => s.arg0
  | .arg1 => s.arg1
  | .arg2 => s.arg2
  | .res0 => s.res0
  | .res1 => s.res1
  | .res2 => s.res2
  | .pixcnt => s.pixcnt
  | .len => s.len
  | .wreq => s.wreq
  | .weff => s.weff
  | .reserved => 0

/-- What a write of `v` to a slot does (20_memory.md R71): CMD presents a command (R97, R98), STATUS is write-one-to-clear
(R30), the RW registers store, a write to a read-only or reserved slot is ignored (R24, R25, R38). -/
def regWrite (r : Reg) (v : Word) (s : State) : State :=
  match r with
  | .id => s
  | .cfg => s
  | .ctrl => { s with ctrl := Ctrl.ofWord v }
  | .status => acknowledge v s
  | .cmd => cmdWrite v s
  | .arg0 => { s with arg0 := v }
  | .arg1 => { s with arg1 := v }
  | .arg2 => { s with arg2 := v }
  | .res0 => s
  | .res1 => s
  | .res2 => s
  | .pixcnt => { s with pixcnt := v }
  | .len => { s with len := v }
  | .wreq => { s with wreq := v }
  | .weff => s
  | .reserved => s

/-! ### Accesses -/

/-- The size of a byte memory (20_memory.md R60). -/
def State.spaceBytes (s : State) : Space → Nat
  | .pix => s.params.pixBytes
  | .pay => s.params.payBytes

/-- The register slot a REG access reaches, if the port admits the access: a 32-bit access at a multiple of 4 up to 0x3C
(R66). -/
def regAdmitted (w : Width) (off : Nat) : Option Reg := if w = .word then regAt off else none

/-- Whether the PIX or PAY port admits an access: 8 bits, at an offset below the size (R67). -/
def memAdmitted (s : State) (sp : Space) (w : Width) (off : Nat) : Bool := w == .byte && decide (off < s.spaceBytes sp)

/-- The host port answers the host. -/
def respond (r : Response) (s : State) : State := { s with seen := r :: s.seen }

/-- The answer to an admitted access with read data `v` (0 for a write). -/
def answer (v : Word) (s : State) : State := respond { data := v, busError := false } s

/-- A refused access: no effect, read data 0, bus error (R66, R67; log 5). -/
def refuseAccess (s : State) : State := respond { data := 0, busError := true } s

/-- A host read of one byte of a memory. -/
def State.memAt (s : State) (sp : Space) (off : Nat) : Byte :=
  match sp with
  | .pix => s.pixAt off
  | .pay => s.payAt off

/-- A host write of one byte of a memory: exactly that byte (R72). -/
def memWrite (sp : Space) (off : Nat) (v : Byte) (s : State) : State :=
  match sp with
  | .pix => { s with pix := Memory.write s.pix off v }
  | .pay => { s with pay := Memory.write s.pay off v }

/-- An admitted access to a memory happens only while no command runs; during BUSY it is the hazard of
70_reset_and_hazards.md R229, which the model faults on (93 I6; log 6). -/
def memGuard (sp : Space) (off : Nat) (s : State) (k : State) : Result :=
  if s.status.busy then .fault (.hostAccessDuringBusy sp off) else .next k

/-- One access of the host. -/
def hostAccess (a : Access) (s : State) : Result :=
  match a with
  | .readReg w off =>
    match regAdmitted w off with
    | some r => .next (answer (regRead r s) s)
    | none => .next (refuseAccess s)
  | .writeReg w off v =>
    match regAdmitted w off with
    | some r => .next (answer 0 (regWrite r v s))
    | none => .next (refuseAccess s)
  | .readMem sp w off =>
    if memAdmitted s sp w off then memGuard sp off s (answer ((s.memAt sp off).setWidth 32) s)
    else .next (refuseAccess s)
  | .writeMem sp w off v =>
    if memAdmitted s sp w off then memGuard sp off s (answer 0 (memWrite sp off (v.setWidth 8) s))
    else .next (refuseAccess s)

/-- One operation of the host, the rest of its program being `rest`: an access is complete before the next begins
(20_memory.md R75); WAIT reads STATUS and repeats while BUSY is 1 (30_encoding.md R104); a wait for irq blocks the host
until irq is 1 (20_memory.md R80). -/
def hostPerform (op : HostOp) (rest : List HostOp) (s : State) : Result :=
  match op with
  | .access a => hostAccess a { s with host := rest }
  | .waitIdle => .next (answer s.status.toWord { s with host := if s.status.busy then .waitIdle :: rest else rest })
  | .waitIrq => .next { s with host := if s.irq then rest else .waitIrq :: rest }

/-- The host's turn: nothing where its program is done; while rst is asserted the block accepts no host access
(70_reset_and_hazards.md R220), so the operation stays pending (log 8). -/
def hostTurn (s : State) : Result :=
  if s.rst then .next s
  else
    match s.host with
    | [] => .next s
    | op :: rest => hostPerform op rest s

end Sys2Proof.Machine
end

