-- ==== Sys2Proof/Machine/Turns.lean ====
section
/-! DEFINITION. The turns of the agents: the host, the sequencer (running the accepted command as one transition, or opening
it and dispatching its ranges), the engines, and the rst input (spec/10_state.md R20; 30_encoding.md R97;
70_reset_and_hazards.md R220–R222). A turn that is not possible in a state changes nothing (log 19). -/

namespace Sys2Proof.Machine

/-- Whether a command has been accepted and nothing of it has happened yet. -/
def State.accepted (s : State) : Bool := !s.rst && s.seq.phase == .run && s.seq.job.isNone

/-- The accepted command runs to completion as one transition (R97, R179): an illegal word completes at once with
ILLEGAL_CMD (30_encoding.md R94). -/
def runCommand (s : State) : Result :=
  match decode s.seq.cmd with
  | some i => exec i s
  | none => .next (raiseError .illegalCmd s)

/-- The accepted command up to its dispatch: a command with ranges opens its job, every other runs to completion. -/
def startCommand (s : State) : Result :=
  match decode s.seq.cmd with
  | some .encrng => .next (openEncrng s)
  | some .decrng => .next (openDecrng s)
  | some .encode => .next (openEncode s)
  | some .decode => .next (openDecode s)
  | some .addr => runCommand s
  | some .c2b => runCommand s
  | some .wrhdr => runCommand s
  | some .rdhdr => runCommand s
  | some .embit => runCommand s
  | some .exbit => runCommand s
  | some .emchr => runCommand s
  | some .exchr => runCommand s
  | some .maxcap => runCommand s
  | some .part => runCommand s
  | some .limit => runCommand s
  | none => runCommand s

/-! ### Reset -/

/-- The state the running command would end in, if it ran to its end from here: what bytes it "would write" (R221). -/
def commandEnd (s : State) : State :=
  match s.seq.job with
  | some j => runRanges j (s.jobCount j) s
  | none =>
    match runCommand s with
    | .next t => t
    | .fault _ => s
    | .refused _ => s

/-- A memory after an abandoned command (R221): each byte the command would write holds the value it has now or the value
the command would have written, by a free draw (log 7). `fin` is the memory at the command's end. -/
def abandonedMemory (n : Nat) (sp : Space) (cur fin : Memory) : Memory :=
  fin.filterMap fun c =>
    if Memory.lookup cur c.1 = some c.2 then some c
    else if Config.resetDraw n sp c.1 then some c
    else (Memory.lookup cur c.1).map fun v => (c.1, v)

/-- rst is asserted (R220): every register and all hidden state take their reset values (10_state.md R44); PIX and PAY keep
their bytes (R222), but for the partial writes of a command abandoned while BUSY = 1 (R221). -/
def assertReset (s : State) : State :=
  { State.resetOf s.params
      (if s.status.busy then abandonedMemory s.freeCtr .pix s.pix (commandEnd s).pix else s.pix)
      (if s.status.busy then abandonedMemory s.freeCtr .pay s.pay (commandEnd s).pay else s.pay) with
    rst := true
    host := s.host
    seen := s.seen
    sched := s.sched
    freeCtr := s.freeCtr + 1 }

/-! ### Turns -/

/-- One turn. -/
def runTurn (t : Turn) (s : State) : Result :=
  match t with
  | .host => hostTurn s
  | .run => if s.accepted then runCommand s else .next s
  | .start => if s.accepted then startCommand s else .next s
  | .handOut e => .next (handOut e s)
  | .engine e => .next (engineStep e s)
  | .join => .next (joinStep s)
  | .rstOn => .next (assertReset s)
  | .rstOff => .next { s with rst := false }

/-- The turn taken where the schedule says nothing (log 15): an accepted command runs; an open job goes on, the first busy
engine before the next hand-out before the join; otherwise the host moves. -/
def defaultTurn (s : State) : Turn :=
  match s.seq.phase, s.seq.job with
  | .run, none => .run
  | .run, some j =>
    match s.engines.findIdx? (fun g => g.busy) with
    | some e => .engine e
    | none => if s.disp.nxt < s.jobCount j then .handOut 0 else .join
  | .idle, _ => .host

/-- The state in which the command word of a table row has been accepted and runs next (log 4). -/
def fetchWord (nbits w : Nat) (s : State) : State := acceptForced (tableWord nbits w) s

end Sys2Proof.Machine
end

