-- ==== Sys2Proof/Machine/Step.lean ====
section
/-! DEFINITION. One step of the machine: the next turn of the schedule, or the default turn where the schedule is empty. -/

namespace Sys2Proof.Machine

/-- One step. The schedule is the oracle of which agent moves (spec/00_scope.md R15, 45_worker_orchestration.md R170; log 1). -/
def step (s : State) : Host.Outcome State Fault Refusal :=
  match s.sched with
  | t :: ts => runTurn t { s with sched := ts }
  | [] => runTurn (defaultTurn s) s

/-- The state with a table row's command word accepted, so that the very next step runs it. The block has no program counter
and fetches nothing (10_state.md R22): a command comes from the host's CMD write, which this stands for (log 4). -/
def State.withFetchWord (s : State) (nbits w : Nat) : State := fetchWord nbits w s

end Sys2Proof.Machine
end

