-- ==== Sys2Proof/Machine/HostProgram.lean ====
section
/-! DEFINITION. Host programs: the statements of spec/30_encoding.md R103 and the pseudo-instructions of R104, each expanded
to the host operations State queues. -/

namespace Sys2Proof.Machine

/-- A statement of a host program (R103, R104). -/
inductive Stmt where
  /-- `WR reg, value` -/
  | wr (r : Reg) (v : Word)
  /-- `RD reg -> name`; the value read is the response the host gets -/
  | rd (r : Reg)
  /-- `WB space[off], value` -/
  | wb (sp : Space) (off : Nat) (v : Byte)
  /-- `RB space[off] -> name` -/
  | rb (sp : Space) (off : Nat)
  /-- `CMD mnemonic` -/
  | cmd (i : Instr)
  /-- `WAIT` -/
  | wait
  /-- `ACK` -/
  | ack
  /-- `OP m a0[, a1[, a2]]` -/
  | op (i : Instr) (a0 : Word) (a1 a2 : Option Word)
  /-- `FILL S[o], n, v` -/
  | fill (sp : Space) (off n : Nat) (v : Byte)
  /-- `LOAD S[o], b0 b1 ... bk` -/
  | load (sp : Space) (off : Nat) (bs : List Byte)
  /-- `TEXT S[o], "s"` -/
  | text (sp : Space) (off : Nat) (str : String)
deriving DecidableEq, Repr

/-- One 32-bit write to a REG slot (R103). -/
def writeRegOp (r : Reg) (v : Word) : HostOp := .access (.writeReg .word r.offset v)

/-- One 8-bit write (R103). -/
def writeByteOp (sp : Space) (off : Nat) (v : Byte) : HostOp := .access (.writeMem sp .byte off (v.setWidth 32))

/-- Byte writes to consecutive offsets (R104). -/
def loadOps (sp : Space) : Nat → List Byte → List HostOp
  | _, [] => []
  | off, b :: bs => writeByteOp sp off b :: loadOps sp (off + 1) bs

/-- The write of an operand register, if the operand is given: `OP` writes only the ARG registers it is given (R104). -/
def argOps (r : Reg) : Option Word → List HostOp
  | some v => [writeRegOp r v]
  | none => []

/-- The byte value of a character (R104 `TEXT`). PRESUMED: ASCII code points, from general knowledge (93 G2; log 17). -/
def charByte (c : Char) : Byte := BitVec.ofNat 8 c.toNat

/-- The expansion of a statement (R103, R104). -/
def Stmt.expand : Stmt → List HostOp
  | .wr r v => [writeRegOp r v]
  | .rd r => [.access (.readReg .word r.offset)]
  | .wb sp off v => [writeByteOp sp off v]
  | .rb sp off => [.access (.readMem sp .byte off)]
  | .cmd i => [writeRegOp .cmd (encode i)]
  | .wait => [.waitIdle]
  | .ack => [writeRegOp .status 0x0000000E#32]
  | .op i a0 a1 a2 =>
    writeRegOp .arg0 a0 :: (argOps .arg1 a1 ++ argOps .arg2 a2 ++ [writeRegOp .cmd (encode i), .waitIdle])
  | .fill sp off n v => loadOps sp off (List.replicate n v)
  | .load sp off bs => loadOps sp off bs
  | .text sp off str => loadOps sp off (str.toList.map charByte)

/-- The host operations of a program, statement by statement. -/
def hostProgram (p : List Stmt) : List HostOp := p.flatMap Stmt.expand

end Sys2Proof.Machine
end

