-- ==== Sys2Proof/WellFormed.lean ====
section
/-! DEFINITION. Well-formedness: of the fields of a command word (spec/30_encoding.md R94), of an instruction, and of the
open parameters of an instance (00_scope.md R6). -/

namespace Sys2Proof

/-- The fifteen opcodes that are not illegal (R93, R94). -/
def legalOpcodes : List (BitVec 8) :=
  [0x01, 0x02, 0x10, 0x11, 0x20, 0x21, 0x22, 0x23, 0x24, 0x30, 0x31, 0x40, 0x41, 0x50, 0x51]

/-- A command word's fields are well formed where neither ground of R94 makes the word illegal: RSVD is 0 and OPC is
listed. -/
def CmdFields.wellFormed (f : CmdFields) : Bool :=
  f.rsvd == 0 && legalOpcodes.contains f.opc

/-- An instruction has no operand field (R92), so every instruction is well formed; the check of its words is
`CmdFields.wellFormed`. One line a constructor, so that a constructor with a field could not slip past. -/
def Instr.wellFormed : Instr → Bool
  | .addr => true
  | .c2b => true
  | .wrhdr => true
  | .rdhdr => true
  | .embit => true
  | .exbit => true
  | .emchr => true
  | .exchr => true
  | .maxcap => true
  | .part => true
  | .limit => true
  | .encrng => true
  | .decrng => true
  | .encode => true
  | .decode => true

/-- The constraints R6 puts on the open parameters. -/
def Params.wellFormed (p : Params) : Bool :=
  decide (1 ≤ p.numEngines) && decide (p.numEngines ≤ 256) && decide (p.pixBytes ≤ 2 ^ 32) && decide (p.payBytes ≤ 2 ^ 32)

end Sys2Proof
end

