-- ==== Sys2Proof/Safety.lean ====
section
/-! DEFINITION. The terms claims use: the invariants of the block, what a safe run is, and the relation between two states
that agree on everything a command can be compared by. -/

namespace Sys2Proof.Machine

/-! ### Invariants -/

/-- STATUS keeps its form (10_state.md R30, R39): BUSY exactly when the phase is RUN, BUSY excludes DONE and ERR, and
ERRCODE is 0 exactly when ERR is 0. -/
structure StatusInv (s : State) : Prop where
  busy_iff_run : s.status.busy = true ↔ s.seq.phase = .run
  busy_not_done : s.status.busy = true → s.status.done = false
  busy_not_err : s.status.busy = true → s.status.err = false
  err_iff_code : s.status.err = true ↔ s.status.errcode ≠ .noError

/-- A memory is in canonical form and lists only offsets of its space (20_memory.md R60, R67). -/
structure MemInv (s : State) : Prop where
  pix_wf : Memory.wf s.pix
  pay_wf : Memory.wf s.pay
  pix_within : Memory.within s.params.pixBytes s.pix
  pay_within : Memory.within s.params.payBytes s.pay

/-- A busy engine of job `j` (10_state.md R41): its range is the one of its index, handed out already, its cursors are in
their ranges, the bit cursor rests at 0 once the range is done, and the accumulator is empty between characters and in an
encode task. -/
structure EngineInv (s : State) (j : Job) (g : Engine) : Prop where
  dir_eq : g.dir = j.dir
  range_eq : (g.s, g.n) = s.jobRange g.idx j
  idx_lt : g.idx < s.disp.nxt
  j_le : g.j ≤ g.n
  k_le : g.k ≤ 6
  k_done : g.j = g.n → g.k = 0
  acc_clear : g.k = 0 → g.acc = 0
  acc_unused : g.dir = .enc → g.acc = 0

/-- What the checks of a command with ranges have established by the time its job is open (45_worker_orchestration.md R168,
R169, R173, R174). -/
def jobChecked (s : State) : Job → Prop
  | .encrng => Config.pbase + Config.bitsPerChar * (s.opA0 + s.opA1) ≤ 3 * s.opP ∧ s.opA0 + s.opA1 ≤ s.params.payBytes
  | .decrng => Config.pbase + Config.bitsPerChar * (s.opA0 + s.opA1) ≤ 3 * s.opP ∧ s.opA0 + s.opA1 ≤ s.params.payBytes
  | .encode => s.seq.len ≤ maxCapacity s.opP ∧ s.seq.len ≤ s.params.payBytes ∧ s.seq.weff = effWorkers s.opWin s.seq.len ∧ 1 ≤ s.opWin
  | .decode => s.seq.len ≤ maxCapacity s.opP ∧ s.seq.len ≤ s.params.payBytes ∧ s.seq.weff = effWorkers s.opWin s.seq.len ∧ 1 ≤ s.opWin

/-- An open job (10_state.md R39–R41): the image fits PIX, the job's checks hold, every range index below `nxt` and no other
is handed out, `live` is the set of the busy engines' indices without a repeat, and every busy engine works on its range. -/
structure JobInv (s : State) (j : Job) : Prop where
  phase_run : s.seq.phase = .run
  image_fits : Config.firstPixel ≤ s.opP ∧ 3 * s.opP ≤ s.params.pixBytes
  checked : jobChecked s j
  nxt_le : s.disp.nxt ≤ s.jobCount j
  live_eq : (s.engines.filter (fun g => g.busy)).map (fun g => g.idx) |>.Perm s.disp.live
  live_nodup : s.disp.live.Nodup
  engine_inv : ∀ g ∈ s.engines, g.busy = true → EngineInv s j g

/-- The dispatcher and the engines (10_state.md R21, R40, R41): as many engines as the instance has, an idle engine keeps
nothing, and where no job is open every engine is idle and the dispatcher is empty. -/
structure DispatchInv (s : State) : Prop where
  engine_count : s.engines.length = s.params.numEngines
  idle_clear : ∀ g ∈ s.engines, g.busy = false → g = Engine.idle
  no_job : s.seq.job = none → (∀ g ∈ s.engines, g = Engine.idle) ∧ s.disp = Dispatcher.reset ∧ s.seq.len = 0 ∧ s.seq.weff = 0
  open_job : ∀ j, s.seq.job = some j → JobInv s j

/-- While rst is asserted the block is idle (70_reset_and_hazards.md R220). -/
structure ResetInv (s : State) : Prop where
  rst_idle : s.rst = true → s.seq.phase = .idle

/-- The invariant of the machine: every step keeps it. -/
structure Inv (s : State) : Prop where
  params_ok : s.params.wellFormed = true
  status_ok : StatusInv s
  mem_ok : MemInv s
  dispatch_ok : DispatchInv s
  reset_ok : ResetInv s

/-! ### What a command leaves unchanged, and how it ends -/

/-- What every command leaves unchanged, success or error (10_state.md R29, R32, R34, R36; 30_encoding.md R97), and the
sequencer it leaves behind: IDLE, holding no job (R39). The result registers, LEN, WEFF, PIX and PAY are named by each
statement. -/
structure CommandFrame (s t : State) : Prop where
  params_eq : t.params = s.params
  ctrl_eq : t.ctrl = s.ctrl
  arg0_eq : t.arg0 = s.arg0
  arg1_eq : t.arg1 = s.arg1
  arg2_eq : t.arg2 = s.arg2
  pixcnt_eq : t.pixcnt = s.pixcnt
  wreq_eq : t.wreq = s.wreq
  engines_eq : t.engines = s.engines
  rst_eq : t.rst = s.rst
  host_eq : t.host = s.host
  seen_eq : t.seen = s.seen
  sched_eq : t.sched = s.sched
  freeCtr_eq : t.freeCtr = s.freeCtr
  ovr_eq : t.status.ovr = s.status.ovr
  cmd_eq : t.seq.cmd = s.seq.cmd
  snap_eq : t.seq.snap = s.seq.snap
  phase_idle : t.seq.phase = .idle
  job_none : t.seq.job = none

/-- Successful completion (60_exceptions.md R197): BUSY 0 and DONE 1, ERR and ERRCODE as they were. -/
structure Succeeds (s t : State) : Prop extends CommandFrame s t where
  busy_clear : t.status.busy = false
  done_set : t.status.done = true
  err_eq : t.status.err = s.status.err
  errcode_eq : t.status.errcode = s.status.errcode

/-- Error completion (R196): BUSY 0, DONE 1, ERR 1 and the code. -/
structure Fails (code : ErrCode) (s t : State) : Prop extends CommandFrame s t where
  busy_clear : t.status.busy = false
  done_set : t.status.done = true
  err_set : t.status.err = true
  errcode_eq : t.status.errcode = code

/-- RES0..2 as they were. -/
def ResultsKept (s t : State) : Prop := t.res0 = s.res0 ∧ t.res1 = s.res1 ∧ t.res2 = s.res2

/-- LEN and WEFF as they were. -/
def LengthsKept (s t : State) : Prop := t.len = s.len ∧ t.weff = s.weff

/-- Every byte of PIX and PAY as it was. -/
def MemoriesKept (s t : State) : Prop := t.pix = s.pix ∧ t.pay = s.pay

/-- The command ends with the error `code` and changes no result, length or memory (R195, R204). -/
def Rejects (code : ErrCode) (s : State) (r : Result) : Prop :=
  ∃ t, r = .next t ∧ Fails code s t ∧ ResultsKept s t ∧ LengthsKept s t ∧ MemoriesKept s t

/-! ### The spec's functions in integer arithmetic, for claims -/

/-- A component with its lowest bit replaced by `e` (43_payload_codec.md R130), as numbers. -/
def withLowBit (v e : Nat) : Nat := v / 2 * 2 + e

/-- The header held by PIX (42_header_codec.md R121): `Σ PIX[i][0] · 2^(31-i)`. -/
def headerOf (s : State) : Nat := (List.range 32).foldl (fun n i => n + 2 ^ (31 - i) * ((s.pixAt i).toNat % 2)) 0

/-- The character at bit index b (43_payload_codec.md R135): `Σ PIX[33+b+k][0] · 2^(6-k)`. -/
def characterOf (s : State) (b : Nat) : Nat :=
  (List.range 7).foldl (fun n k => n + 2 ^ (6 - k) * ((s.pixAt (33 + b + k)).toNat % 2)) 0

/-- The bit that PIX byte a ≥ 33 takes from the payload (41_bit_addressing.md R114, 43_payload_codec.md R133): bit
6 - (a-33) mod 7 of character floor((a-33)/7), taken mod 128. -/
def payloadBitOf (s : State) (a : Nat) : Nat := (s.payAt ((a - 33) / 7)).toNat % 128 / 2 ^ (6 - (a - 33) % 7) % 2

/-- Whether the latched mode admits the characters PAY[start .. start+n-1] (R132). -/
def charsFit (s : State) (start n : Nat) : Prop := s.seq.snap.cm = true ∨ ∀ j < n, (s.payAt (start + j)).toNat < 128

/-- `image_check(P)` passes (60_exceptions.md R192). -/
def imageFits (s : State) : Prop := 11 ≤ s.seq.snap.p.toNat ∧ 3 * s.seq.snap.p.toNat ≤ s.params.pixBytes

/-- The capacity of P pixels (43_payload_codec.md R137). -/
def capacityOf (p : Nat) : Nat := if 11 ≤ p then (p - 11) * 3 / 7 else 0

/-! ### The shapes of steps claims speak of -/

/-- The next turn is the host's, it performs the access `a`, and rst is not asserted. -/
def hostNext (s : State) (a : Access) (rest : List HostOp) (ts : List Turn) : Prop :=
  s.sched = .host :: ts ∧ s.rst = false ∧ s.host = .access a :: rest

/-- The state with the host's operation and its turn taken, and the answer `r` given. -/
def hostDone (s : State) (r : Response) (rest : List HostOp) (ts : List Turn) : State :=
  { s with sched := ts, host := rest, seen := r :: s.seen }

/-- A turn of the sequencer or of an engine in the middle of a command. -/
def dispatchTurn : Turn → Bool
  | .handOut _ => true
  | .engine _ => true
  | .join => true
  | .host => false
  | .run => false
  | .start => false
  | .rstOn => false
  | .rstOff => false

/-! ### Safe runs -/

/-- A run of `k` steps meets no hazard (R229): no step of it faults. -/
def hazardFree (k : Nat) (s : State) : Prop :=
  ∃ t, Sys2Proof.core.run k s = .next t

/-- The host saw no bus error: every access it made was admitted (R66, R67; the programs a model refuses, log 5). -/
def noBusError (s : State) : Prop := ∀ r ∈ s.seen, r.busError = false

end Sys2Proof.Machine
end

