-- ==== Sys2Proof/Certificates/Slice0/Obligations.lean ====
section
/-! DEFINITION. The statements for the provers: the numbered rules of the spec that say what a command or the block does. In
each, operands are read from the snapshot of the accepted command (00_scope.md R16), and numbers are exact (R10). -/

open Sys2Proof Sys2Proof.Machine

/-! ### Encoding -/

/-- The opcode column of 30_encoding.md R93: each of the fifteen words decodes to the command of its row. -/
def Obligations.ListedWordsDecodeToTheirCommands : Prop :=
  decode 0x00000001#32 = some .addr ∧ decode 0x00000002#32 = some .c2b ∧ decode 0x00000010#32 = some .wrhdr ∧
  decode 0x00000011#32 = some .rdhdr ∧ decode 0x00000020#32 = some .embit ∧ decode 0x00000021#32 = some .exbit ∧
  decode 0x00000022#32 = some .emchr ∧ decode 0x00000023#32 = some .exchr ∧ decode 0x00000024#32 = some .maxcap ∧
  decode 0x00000030#32 = some .part ∧ decode 0x00000031#32 = some .limit ∧ decode 0x00000040#32 = some .encrng ∧
  decode 0x00000041#32 = some .decrng ∧ decode 0x00000050#32 = some .encode ∧ decode 0x00000051#32 = some .decode

/-- 30_encoding.md R96: decoding is total; v is a command exactly where v[31:8] = 0 and v[7:0] is in R93's table, and the
command is its row's. -/
def Obligations.DecodingFollowsTheOpcodeMap : Prop :=
  ∀ v : Word, decode v =
    if v.toNat / 256 = 0 then
      List.lookup (v.toNat % 256)
        [(0x01, .addr), (0x02, .c2b), (0x10, .wrhdr), (0x11, .rdhdr), (0x20, .embit), (0x21, .exbit), (0x22, .emchr),
         (0x23, .exchr), (0x24, .maxcap), (0x30, .part), (0x31, .limit), (0x40, .encrng), (0x41, .decrng), (0x50, .encode),
         (0x51, .decode)]
    else none

/-- Decode and encode agree in both directions (30_encoding.md R90, R95): each command has exactly one word, which is well
formed, and no other word decodes to it. -/
def Obligations.EveryCommandHasExactlyOneWord : Prop :=
  (∀ i : Instr, i.wellFormed = true → decode (encode i) = some i ∧ (fieldsOf (encode i)).wellFormed = true) ∧
  (∀ (v : Word) (i : Instr), decode v = some i → v = encode i) ∧
  (∀ v : Word, decode v = none ↔ (fieldsOf v).wellFormed = false)

/-! ### A step runs the accepted command -/

/-- Where a command word has been accepted and decodes to i, a step with the sequencer's turn is exec of i, on the state
with that turn taken; with an empty schedule it is exec of i on the state itself; and the state withFetchWord builds runs
exactly the word given. -/
def Obligations.StepRunsTheAcceptedCommand : Prop :=
  (∀ (s : State) (i : Instr) (ts : List Turn), s.rst = false → s.seq.phase = .run → s.seq.job = none →
    decode s.seq.cmd = some i → s.sched = .run :: ts → step s = exec i { s with sched := ts }) ∧
  (∀ (s : State) (i : Instr), s.rst = false → s.seq.phase = .run → s.seq.job = none →
    decode s.seq.cmd = some i → s.sched = [] → step s = exec i s) ∧
  (∀ (s : State) (w : Nat) (i : Instr), w < 2 ^ 32 → decode (BitVec.ofNat 32 w) = some i →
    (s.withFetchWord 32 w).seq.cmd = BitVec.ofNat 32 w ∧
    step (s.withFetchWord 32 w) = exec i { s.withFetchWord 32 w with sched := s.sched })

/-- 30_encoding.md R94: a word with RSVD ≠ 0 or an unlisted OPC is accepted like any other and then completes at once with
ILLEGAL_CMD; no memory, result register, LEN or WEFF changes. -/
def Obligations.IllegalWordEndsInIllegalCmd : Prop :=
  ∀ (s : State) (v : Word) (rest : List HostOp), hostNext s (.writeReg .word 0x10 v) rest [] →
    s.status.busy = false → s.status.err = false →
    (v.toNat / 256 ≠ 0 ∨
      v.toNat % 256 ∉ [0x01, 0x02, 0x10, 0x11, 0x20, 0x21, 0x22, 0x23, 0x24, 0x30, 0x31, 0x40, 0x41, 0x50, 0x51]) →
    ∃ t, step s = .next t ∧ t.status.busy = true ∧ t.status.done = false ∧ t.seq.phase = .run ∧ t.seq.cmd = v ∧
      ResultsKept s t ∧ LengthsKept s t ∧ MemoriesKept s t ∧ Rejects .illegalCmd t (step t)

/-! ### Reset -/

/-- 10_state.md R44: the values of every register and every piece of hidden state right after reset, for every instance and
every contents of the memories; the reset state of the model is one of these states. -/
def Obligations.ResetStateHoldsTheTable : Prop :=
  (∀ (p : Params) (pix pay : Memory),
    let s := State.resetOf p pix pay
    regRead .id s = 0x53544701#32 ∧ regRead .cfg s = cfgWord p ∧ regRead .ctrl s = 0 ∧ regRead .status s = 0 ∧
    s.arg0 = 0 ∧ s.arg1 = 0 ∧ s.arg2 = 0 ∧ s.res0 = 0 ∧ s.res1 = 0 ∧ s.res2 = 0 ∧ s.pixcnt = 0 ∧ s.len = 0 ∧ s.wreq = 0 ∧
    s.weff = 0 ∧ s.seq.phase = .idle ∧ s.seq.snap.a0 = 0 ∧ s.seq.snap.a1 = 0 ∧ s.seq.snap.a2 = 0 ∧ s.seq.snap.p = 0 ∧
    s.seq.snap.lin = 0 ∧ s.seq.snap.win = 0 ∧ s.seq.snap.cm = false ∧ s.disp.nxt = 0 ∧ s.disp.live = [] ∧
    s.engines.length = p.numEngines ∧ (∀ g ∈ s.engines, g.busy = false) ∧ s.irq = false ∧ s.pix = pix ∧ s.pay = pay) ∧
  ∃ p : Params, State.reset = State.resetOf p [] []

/-- 70_reset_and_hazards.md R220, R222: when rst is asserted while no command runs, everything takes its reset value, PIX
and PAY keep every byte, and the world outside keeps its operations; while rst is asserted the host's turn performs
nothing; after its release the block is the reset block. -/
def Obligations.AssertedResetClearsTheBlock : Prop :=
  (∀ (s : State) (ts : List Turn), s.sched = .rstOn :: ts → s.status.busy = false →
    step s = .next { State.resetOf s.params s.pix s.pay with
      rst := true, host := s.host, seen := s.seen, sched := ts, freeCtr := s.freeCtr + 1 }) ∧
  (∀ (s : State) (ts : List Turn), s.sched = .host :: ts → s.rst = true → step s = .next { s with sched := ts }) ∧
  (∀ (s : State) (ts : List Turn), s.sched = .rstOff :: ts → step s = .next { s with sched := ts, rst := false })

/-- 70_reset_and_hazards.md R220, R221: a reset while BUSY = 1 gives every register and all hidden state its reset value and
abandons the command. Each byte of PIX and PAY holds either its value when reset arrives or the value the command would have
written; no DONE or irq is produced. The two values are those of the running state and of the command's end: of exec where
nothing of the command has happened, of its remaining ranges where its dispatch is open. Which one is a free draw (log 7), so
the statement holds for every draw. -/
def Obligations.ResetDuringACommandAbandonsIt : Prop :=
  ∀ (s : State) (ts : List Turn), Inv s → s.sched = .rstOn :: ts → s.status.busy = true →
    ∃ t, step s = .next t ∧ t.status = Status.reset ∧ t.irq = false ∧ t.seq = Sequencer.reset ∧ t.disp = Dispatcher.reset ∧
      t.engines.length = s.params.numEngines ∧ (∀ g ∈ t.engines, g = Engine.idle) ∧
      t.ctrl.ie = false ∧ t.ctrl.chmode = false ∧ t.arg0 = 0 ∧ t.arg1 = 0 ∧ t.arg2 = 0 ∧ t.res0 = 0 ∧ t.res1 = 0 ∧ t.res2 = 0 ∧
      t.pixcnt = 0 ∧ t.len = 0 ∧ t.wreq = 0 ∧ t.weff = 0 ∧
      t.params = s.params ∧ t.rst = true ∧ t.host = s.host ∧ t.seen = s.seen ∧ t.sched = ts ∧
      (s.seq.job = none → decode s.seq.cmd = none → t.pix = s.pix ∧ t.pay = s.pay) ∧
      (∀ i u, s.seq.job = none → decode s.seq.cmd = some i → exec i s = .next u →
        ∀ a, (t.pixAt a = s.pixAt a ∨ t.pixAt a = u.pixAt a) ∧ (t.payAt a = s.payAt a ∨ t.payAt a = u.payAt a)) ∧
      (∀ j, s.seq.job = some j → let u := runRanges j (s.jobCount j) s
        ∀ a, (t.pixAt a = s.pixAt a ∨ t.pixAt a = u.pixAt a) ∧ (t.payAt a = s.payAt a ∨ t.payAt a = u.payAt a))

/-! ### Acceptance, refusal, acknowledgement, interrupt -/

/-- 30_encoding.md R97: a host write of v to CMD with BUSY = 0 and ERR = 0 latches the snapshot, clears DONE and sets BUSY,
changes nothing else (OVR neither read nor changed), and the word's command runs on the snapshot: an illegal word raises
ILLEGAL_CMD. With BUSY = 1 or ERR = 1 the write is refused. -/
def Obligations.AcceptanceLatchesTheSnapshot : Prop :=
  (∀ (s : State) (v : Word) (rest : List HostOp) (ts : List Turn), hostNext s (.writeReg .word 0x10 v) rest ts →
    s.status.busy = false → s.status.err = false →
    ∃ t, step s = .next t ∧
      t = { hostDone s { data := 0, busError := false } rest ts with
        status := { s.status with busy := true, done := false }
        seq := { phase := .run, cmd := v, job := none, len := 0, weff := 0
                 snap := { a0 := s.arg0, a1 := s.arg1, a2 := s.arg2, p := s.pixcnt, lin := s.len, win := s.wreq, cm := s.ctrl.chmode } } } ∧
      (ts = [] → decode v = none → Rejects .illegalCmd t (step t)) ∧
      (ts = [] → ∀ i, decode v = some i → step t = exec i t)) ∧
  (∀ (s : State) (v : Word) (rest : List HostOp) (ts : List Turn), hostNext s (.writeReg .word 0x10 v) rest ts →
    (s.status.busy = true ∨ s.status.err = true) →
    step s = .next { hostDone s { data := 0, busError := false } rest ts with status := { s.status with ovr := true } })

/-- 60_exceptions.md R198: a host write to STATUS with bit 2 = 1 clears ERR and ERRCODE, bit 1 clears DONE, bit 3 clears OVR,
nothing else changes, a 0 bit clears nothing; and once ERR = 0 (with BUSY = 0) a CMD write is accepted again. -/
def Obligations.AcknowledgementClearsWhatIsWrittenAsOne : Prop :=
  ∀ (s : State) (v : Word) (rest : List HostOp) (ts : List Turn), hostNext s (.writeReg .word 0x0C v) rest ts →
    ∃ t, step s = .next t ∧
      { t with status := s.status } = hostDone s { data := 0, busError := false } rest ts ∧
      t.status.busy = s.status.busy ∧
      t.status.done = (if v.toNat / 2 % 2 = 1 then false else s.status.done) ∧
      t.status.err = (if v.toNat / 4 % 2 = 1 then false else s.status.err) ∧
      t.status.errcode = (if v.toNat / 4 % 2 = 1 then .noError else s.status.errcode) ∧
      t.status.ovr = (if v.toNat / 8 % 2 = 1 then false else s.status.ovr) ∧
      (∀ (w : Word) (rest' : List HostOp), v.toNat / 4 % 2 = 1 → s.status.busy = false →
        hostNext t (.writeReg .word 0x10 w) rest' [] → ∃ u, step t = .next u ∧ u.status.busy = true ∧ u.seq.cmd = w)

/-- 60_exceptions.md R201: irq is CTRL.IE and STATUS.DONE; it rises at completion where IE = 1: every command's, and every
step's after which no command runs any more (an illegal word's, the join's), a reset apart; and it falls when the host clears
DONE, when IE is cleared, and when a command is accepted. -/
def Obligations.InterruptFollowsCompletion : Prop :=
  (∀ s : State, s.irq = true ↔ s.ctrl.ie = true ∧ s.status.done = true) ∧
  (∀ (i : Instr) (s t : State), exec i s = .next t → t.irq = s.ctrl.ie) ∧
  (∀ s t : State, step s = .next t → s.status.busy = true → t.status.busy = false → t.rst = false → t.irq = s.ctrl.ie) ∧
  (∀ (s t : State) (v : Word) (rest : List HostOp) (ts : List Turn), step s = .next t →
    (hostNext s (.writeReg .word 0x0C v) rest ts ∧ v.toNat / 2 % 2 = 1 ∨
     hostNext s (.writeReg .word 0x08 v) rest ts ∧ v.toNat % 2 = 0 ∨
     hostNext s (.writeReg .word 0x10 v) rest ts ∧ s.status.busy = false ∧ s.status.err = false) → t.irq = false)

/-! ### The host port -/

/-- 10_state.md R27, R28, R38, R31: what the constant and the value-less slots read as, in every state: ID at 0x00 its
constant, CFG at 0x04 its fields, neither changed by a write; the reserved slot and CMD read 0. -/
def Obligations.ConstantSlotsReadAsSpecified : Prop :=
  ∀ s : State, s.params.wellFormed = true →
    regAt 0x00 = some .id ∧ regAt 0x04 = some .cfg ∧ (∀ v, regWrite .id v s = s ∧ regWrite .cfg v s = s) ∧
    (regRead .id s).toNat = 0x53544701 ∧ (regRead .id s).toNat / 2 ^ 8 = 0x535447 ∧ (regRead .id s).toNat % 2 ^ 8 = 1 ∧
    (regRead .cfg s).toNat % 2 ^ 4 = 7 ∧ (regRead .cfg s).toNat / 2 ^ 4 % 2 ^ 4 = 3 ∧
    (regRead .cfg s).toNat / 2 ^ 8 % 2 ^ 8 = 11 ∧ (regRead .cfg s).toNat / 2 ^ 16 % 2 ^ 6 = 32 ∧
    (regRead .cfg s).toNat / 2 ^ 22 % 2 ^ 2 = 0 ∧ (regRead .cfg s).toNat / 2 ^ 24 = s.params.numEngines - 1 ∧
    regRead .cmd s = 0 ∧ regRead .reserved s = 0

/-- 10_state.md R29, R30: the bits of CTRL and STATUS as the host reads them, the reserved bits 0. -/
def Obligations.ControlAndStatusReadTheirFields : Prop :=
  ∀ s : State,
    (regRead .ctrl s).toNat = s.ctrl.ie.toNat + 2 * s.ctrl.chmode.toNat ∧
    (regRead .status s).toNat =
      s.status.busy.toNat + 2 * s.status.done.toNat + 4 * s.status.err.toNat + 8 * s.status.ovr.toNat +
        256 * (match s.status.errcode with
          | .noError => 0 | .illegalCmd => 1 | .wcount => 2 | .imageSmall => 3 | .pixBounds => 4 | .payBounds => 5
          | .capacity => 6 | .hdrOverflow => 7 | .charRange => 8 | .bitValue => 9 | .hdrLength => 10 | .rangeIndex => 11)

/-- 10_state.md R24, R26, R29, R32, R34–R36: after a write of v an RW register reads v (CTRL its two defined bits), a write
to a read-only or reserved slot changes nothing, and a write to one register changes no other. -/
def Obligations.RegisterWritesStoreOrAreIgnored : Prop :=
  ∀ (s : State) (v : Word) (off : Nat) (rest : List HostOp) (ts : List Turn), hostNext s (.writeReg .word off v) rest ts →
    let s' := hostDone s { data := 0, busError := false } rest ts
    (off = 0x08 → step s = .next { s' with ctrl := { ie := decide (v.toNat % 2 = 1), chmode := decide (v.toNat / 2 % 2 = 1) } }) ∧
    (off = 0x14 → step s = .next { s' with arg0 := v }) ∧
    (off = 0x18 → step s = .next { s' with arg1 := v }) ∧
    (off = 0x1C → step s = .next { s' with arg2 := v }) ∧
    (off = 0x2C → step s = .next { s' with pixcnt := v }) ∧
    (off = 0x30 → step s = .next { s' with len := v }) ∧
    (off = 0x34 → step s = .next { s' with wreq := v }) ∧
    (off ∈ [0x00, 0x04, 0x20, 0x24, 0x28, 0x38, 0x3C] → step s = .next s')

/-- 10_state.md R26 and 20_memory.md R71: a 32-bit read at the offset of each slot of the register map answers that slot's
value, and no read of REG, PIX or PAY has a side effect: only the answer, the host's queue and the turn differ. A byte read
answers the byte; that it stands zero-extended in the 32 data bits is the model's choice (log 22). -/
def Obligations.ReadsHaveNoSideEffect : Prop :=
  (∀ (s : State) (off : Nat) (rest : List HostOp) (ts : List Turn), hostNext s (.readReg .word off) rest ts →
    let answers := fun v : Word => step s = .next (hostDone s { data := v, busError := false } rest ts)
    (off = 0x00 → answers 0x53544701#32) ∧ (off = 0x04 → answers (regRead .cfg s)) ∧
    (off = 0x08 → answers (regRead .ctrl s)) ∧ (off = 0x0C → answers (regRead .status s)) ∧ (off = 0x10 → answers 0) ∧
    (off = 0x14 → answers s.arg0) ∧ (off = 0x18 → answers s.arg1) ∧ (off = 0x1C → answers s.arg2) ∧
    (off = 0x20 → answers s.res0) ∧ (off = 0x24 → answers s.res1) ∧ (off = 0x28 → answers s.res2) ∧
    (off = 0x2C → answers s.pixcnt) ∧ (off = 0x30 → answers s.len) ∧ (off = 0x34 → answers s.wreq) ∧
    (off = 0x38 → answers s.weff) ∧ (off = 0x3C → answers 0)) ∧
  (∀ (s : State) (off : Nat) (rest : List HostOp) (ts : List Turn), s.status.busy = false →
    (off < s.params.pixBytes → hostNext s (.readMem .pix .byte off) rest ts →
      step s = .next (hostDone s { data := BitVec.ofNat 32 (s.pixAt off).toNat, busError := false } rest ts)) ∧
    (off < s.params.payBytes → hostNext s (.readMem .pay .byte off) rest ts →
      step s = .next (hostDone s { data := BitVec.ofNat 32 (s.payAt off).toNat, busError := false } rest ts)))

/-- 20_memory.md R71, R72: a one-byte write by the host changes exactly that byte, and a read returns the last value
written. That the byte is data bits 7:0 of the write is the model's choice (log 22). -/
def Obligations.ByteWriteChangesExactlyThatByte : Prop :=
  ∀ (s : State) (off : Nat) (v : Word) (rest : List HostOp) (ts : List Turn), s.status.busy = false →
    (off < s.params.pixBytes → hostNext s (.writeMem .pix .byte off v) rest ts →
      ∃ t, step s = .next t ∧ { t with pix := s.pix } = hostDone s { data := 0, busError := false } rest ts ∧
        ∀ a, (t.pixAt a).toNat = if a = off then v.toNat % 256 else (s.pixAt a).toNat) ∧
    (off < s.params.payBytes → hostNext s (.writeMem .pay .byte off v) rest ts →
      ∃ t, step s = .next t ∧ { t with pay := s.pay } = hostDone s { data := 0, busError := false } rest ts ∧
        ∀ a, (t.payAt a).toNat = if a = off then v.toNat % 256 else (s.payAt a).toNat)

/-- 20_memory.md R66, R67: an access to REG that is not 32 bits wide, or not at a multiple of 4, or above 0x3C, and an access
to PIX or PAY that is not 8 bits wide, or at an offset not below the size, has no effect, returns read data 0 and raises bus
error, whether or not a command runs. (R66 has a model refuse the program, 93 I9 says it may;
this model goes on, log 5.) -/
def Obligations.RefusedAccessRaisesBusError : Prop :=
  (∀ (s : State) (w : Width) (off : Nat) (v : Word) (rest : List HostOp) (ts : List Turn),
    (w ≠ .word ∨ off % 4 ≠ 0 ∨ 0x3C < off) →
    (hostNext s (.readReg w off) rest ts ∨ hostNext s (.writeReg w off v) rest ts) →
    step s = .next (hostDone s { data := 0, busError := true } rest ts)) ∧
  (∀ (s : State) (sp : Space) (w : Width) (off : Nat) (v : Word) (rest : List HostOp) (ts : List Turn),
    (w ≠ .byte ∨ (match sp with | .pix => s.params.pixBytes | .pay => s.params.payBytes) ≤ off) →
    (hostNext s (.readMem sp w off) rest ts ∨ hostNext s (.writeMem sp w off v) rest ts) →
    step s = .next (hostDone s { data := 0, busError := true } rest ts))

/-- 70_reset_and_hazards.md R229: a host access to a byte of PIX or PAY while BUSY = 1 is a hazard fault, a read as well as a
write; nothing is said of its value. -/
def Obligations.MemoryAccessDuringBusyFaults : Prop :=
  ∀ (s : State) (sp : Space) (off : Nat) (v : Word) (rest : List HostOp) (ts : List Turn), s.status.busy = true →
    off < (match sp with | .pix => s.params.pixBytes | .pay => s.params.payBytes) →
    (hostNext s (.readMem sp .byte off) rest ts ∨ hostNext s (.writeMem sp .byte off v) rest ts) →
    step s = .fault (.hostAccessDuringBusy sp off)

/-- 20_memory.md R80, 30_encoding.md R104: WAIT reads STATUS and repeats until BUSY is 0; a wait for irq blocks the host until
irq is 1, and performs no access. -/
def Obligations.WaitRepeatsUntilIdle : Prop :=
  ∀ (s : State) (rest : List HostOp) (ts : List Turn), s.sched = .host :: ts → s.rst = false →
    (s.host = .waitIdle :: rest →
      (s.status.busy = true → step s = .next (hostDone s { data := regRead .status s, busError := false } (.waitIdle :: rest) ts)) ∧
      (s.status.busy = false → step s = .next (hostDone s { data := regRead .status s, busError := false } rest ts))) ∧
    (s.host = .waitIrq :: rest →
      step s = .next { s with sched := ts, host := if s.ctrl.ie = true ∧ s.status.done = true then rest else .waitIrq :: rest })

/-- 30_encoding.md R103, R104: `OP m a0[, a1[, a2]]` writes ARG0, the ARG registers it is given and no other, then CMD, then
waits; `ACK` writes 0x0000_000E to STATUS; `FILL S[o], n, v` writes the n bytes from o (each on data bits 7:0, log 22). -/
def Obligations.PseudoInstructionsExpandAsListed : Prop :=
  (∀ (i : Instr) (x y z : Word),
    hostProgram [.op i x none none] =
      [.access (.writeReg .word 0x14 x), .access (.writeReg .word 0x10 (encode i)), .waitIdle] ∧
    hostProgram [.op i x (some y) none] =
      [.access (.writeReg .word 0x14 x), .access (.writeReg .word 0x18 y), .access (.writeReg .word 0x10 (encode i)), .waitIdle] ∧
    hostProgram [.op i x (some y) (some z)] =
      [.access (.writeReg .word 0x14 x), .access (.writeReg .word 0x18 y), .access (.writeReg .word 0x1C z),
       .access (.writeReg .word 0x10 (encode i)), .waitIdle]) ∧
  hostProgram [.ack] = [.access (.writeReg .word 0x0C 0x0000000E#32)] ∧
  (∀ (sp : Space) (off n : Nat) (v : Byte),
    hostProgram [.fill sp off n v] =
      (List.range n).map fun k => HostOp.access (.writeMem sp .byte (off + k) (BitVec.ofNat 32 v.toNat)))

/-! ### Bit addressing -/

/-- 41_bit_addressing.md R115: ADDR, for every bit index. -/
def Obligations.AddrGivesPixelAndChannel : Prop :=
  ∀ s : State, ∃ t, exec .addr s = .next t ∧ Succeeds s t ∧
    t.res0.toNat = 11 + s.seq.snap.a0.toNat / 3 ∧ t.res1.toNat = s.seq.snap.a0.toNat % 3 ∧ t.res2 = s.res2 ∧
    LengthsKept s t ∧ MemoriesKept s t

/-- 41_bit_addressing.md R116: C2B, the exact product split over RES0 and RES1, for every character offset. -/
def Obligations.C2bGivesTheExactProduct : Prop :=
  ∀ s : State, ∃ t, exec .c2b s = .next t ∧ Succeeds s t ∧
    t.res0.toNat = 7 * s.seq.snap.a0.toNat % 2 ^ 32 ∧ t.res1.toNat = 7 * s.seq.snap.a0.toNat / 2 ^ 32 ∧ t.res1.toNat ≤ 6 ∧
    t.res2 = s.res2 ∧ LengthsKept s t ∧ MemoriesKept s t

/-- 41_bit_addressing.md R112: address is a bijection onto the pairs with pixel ≥ 11 and channel < 3, in channel-major order,
with the inverse 3 * (pixel - 11) + channel. -/
def Obligations.AddressIsABijection : Prop :=
  (∀ b, 11 ≤ (address b).1 ∧ (address b).2 < 3 ∧ 3 * ((address b).1 - 11) + (address b).2 = b) ∧
  (∀ p c, 11 ≤ p → c < 3 → ∃! b, address b = (p, c)) ∧
  (∀ b, address (b + 1) = if (address b).2 = 2 then ((address b).1 + 1, 0) else ((address b).1, (address b).2 + 1)) ∧
  address 0 = (11, 0)

/-! ### Header codec -/

/-- 42_header_codec.md R123: WRHDR, its errors in order and its effect on every byte. -/
def Obligations.WrhdrWritesTheHeader : Prop :=
  ∀ s : State,
    (s.seq.snap.p.toNat < 11 → Rejects .imageSmall s (exec .wrhdr s)) ∧
    (11 ≤ s.seq.snap.p.toNat → s.params.pixBytes < 3 * s.seq.snap.p.toNat → Rejects .pixBounds s (exec .wrhdr s)) ∧
    (imageFits s → ∃ t, exec .wrhdr s = .next t ∧ Succeeds s t ∧ ResultsKept s t ∧ LengthsKept s t ∧ t.pay = s.pay ∧
      ∀ a, (t.pixAt a).toNat =
        if a < 32 then withLowBit (s.pixAt a).toNat (s.seq.snap.a0.toNat / 2 ^ (31 - a) % 2) else (s.pixAt a).toNat)

/-- 42_header_codec.md R124: RDHDR, its errors in order and its result. -/
def Obligations.RdhdrReadsTheHeader : Prop :=
  ∀ s : State,
    (s.seq.snap.p.toNat < 11 → Rejects .imageSmall s (exec .rdhdr s)) ∧
    (11 ≤ s.seq.snap.p.toNat → s.params.pixBytes < 3 * s.seq.snap.p.toNat → Rejects .pixBounds s (exec .rdhdr s)) ∧
    (imageFits s → ∃ t, exec .rdhdr s = .next t ∧ Succeeds s t ∧ t.res0.toNat = headerOf s ∧ t.res1 = s.res1 ∧
      t.res2 = s.res2 ∧ LengthsKept s t ∧ MemoriesKept s t)

/-- 42_header_codec.md R125: header fidelity. After a WRHDR of n, an RDHDR of any state with the same PIX gives n, whatever
PIX held before. -/
def Obligations.HeaderReadsBackWhatWasWritten : Prop :=
  ∀ s u : State, imageFits s → imageFits u → ∀ t, exec .wrhdr s = .next t → u.pix = t.pix →
    ∃ v, exec .rdhdr u = .next v ∧ v.res0 = s.seq.snap.a0

/-! ### Payload codec -/

/-- 43_payload_codec.md R139: EMBIT, its error and its result. -/
def Obligations.EmbitEmbedsABitOrRejects : Prop :=
  ∀ s : State,
    (s.seq.snap.a1.toNat ≤ 1 → ∃ t, exec .embit s = .next t ∧ Succeeds s t ∧
      t.res0.toNat = withLowBit (s.seq.snap.a0.toNat % 256) s.seq.snap.a1.toNat ∧ t.res1 = s.res1 ∧ t.res2 = s.res2 ∧
      LengthsKept s t ∧ MemoriesKept s t) ∧
    (1 < s.seq.snap.a1.toNat → Rejects .bitValue s (exec .embit s))

/-- 43_payload_codec.md R140: EXBIT, for every operand. -/
def Obligations.ExbitGivesTheLowestBit : Prop :=
  ∀ s : State, ∃ t, exec .exbit s = .next t ∧ Succeeds s t ∧ t.res0.toNat = s.seq.snap.a0.toNat % 2 ∧ t.res1 = s.res1 ∧
    t.res2 = s.res2 ∧ LengthsKept s t ∧ MemoriesKept s t

/-- 43_payload_codec.md R141: EMCHR, its errors in order and its effect on every byte. -/
def Obligations.EmchrEmbedsACharacter : Prop :=
  ∀ s : State,
    (s.seq.snap.p.toNat < 11 → Rejects .imageSmall s (exec .emchr s)) ∧
    (11 ≤ s.seq.snap.p.toNat →
      (s.params.pixBytes < 3 * s.seq.snap.p.toNat ∨ 3 * s.seq.snap.p.toNat < 33 + s.seq.snap.a0.toNat + 7) →
      Rejects .pixBounds s (exec .emchr s)) ∧
    (imageFits s → 33 + s.seq.snap.a0.toNat + 7 ≤ 3 * s.seq.snap.p.toNat → 128 ≤ s.seq.snap.a1.toNat → s.seq.snap.cm = false →
      Rejects .charRange s (exec .emchr s)) ∧
    (imageFits s → 33 + s.seq.snap.a0.toNat + 7 ≤ 3 * s.seq.snap.p.toNat →
      (s.seq.snap.a1.toNat < 128 ∨ s.seq.snap.cm = true) →
      ∃ t, exec .emchr s = .next t ∧ Succeeds s t ∧ ResultsKept s t ∧ LengthsKept s t ∧ t.pay = s.pay ∧
        ∀ a, (t.pixAt a).toNat =
          if 33 + s.seq.snap.a0.toNat ≤ a ∧ a < 33 + s.seq.snap.a0.toNat + 7 then
            withLowBit (s.pixAt a).toNat (s.seq.snap.a1.toNat % 128 / 2 ^ (6 - (a - (33 + s.seq.snap.a0.toNat))) % 2)
          else (s.pixAt a).toNat)

/-- 43_payload_codec.md R142: EXCHR, its errors in order and its result. -/
def Obligations.ExchrExtractsACharacter : Prop :=
  ∀ s : State,
    (s.seq.snap.p.toNat < 11 → Rejects .imageSmall s (exec .exchr s)) ∧
    (11 ≤ s.seq.snap.p.toNat →
      (s.params.pixBytes < 3 * s.seq.snap.p.toNat ∨ 3 * s.seq.snap.p.toNat < 33 + s.seq.snap.a0.toNat + 7) →
      Rejects .pixBounds s (exec .exchr s)) ∧
    (imageFits s → 33 + s.seq.snap.a0.toNat + 7 ≤ 3 * s.seq.snap.p.toNat →
      ∃ t, exec .exchr s = .next t ∧ Succeeds s t ∧ t.res0.toNat = characterOf s s.seq.snap.a0.toNat ∧ t.res0.toNat ≤ 127 ∧
        t.res1 = s.res1 ∧ t.res2 = s.res2 ∧ LengthsKept s t ∧ MemoriesKept s t)

/-- 43_payload_codec.md R136: a character embedded by EMCHR is what EXCHR extracts at the same bit index from a PIX with the
same seven lowest bits, and a value of 128 or more comes back mod 128. -/
def Obligations.CharacterReadsBackWhatWasEmbedded : Prop :=
  ∀ s u t : State, imageFits s → imageFits u → 33 + s.seq.snap.a0.toNat + 7 ≤ 3 * s.seq.snap.p.toNat →
    33 + s.seq.snap.a0.toNat + 7 ≤ 3 * u.seq.snap.p.toNat → (s.seq.snap.a1.toNat < 128 ∨ s.seq.snap.cm = true) →
    u.seq.snap.a0 = s.seq.snap.a0 → exec .emchr s = .next t →
    (∀ k < 7, (u.pixAt (33 + s.seq.snap.a0.toNat + k)).toNat % 2 = (t.pixAt (33 + s.seq.snap.a0.toNat + k)).toNat % 2) →
    ∃ v, exec .exchr u = .next v ∧ v.res0.toNat = s.seq.snap.a1.toNat % 128

/-- 43_payload_codec.md R143: MAXCAP, for every pixel count; no image check. -/
def Obligations.MaxcapGivesTheCapacity : Prop :=
  ∀ s : State, ∃ t, exec .maxcap s = .next t ∧ Succeeds s t ∧ t.res0.toNat = capacityOf s.seq.snap.p.toNat ∧ t.res1 = s.res1 ∧
    t.res2 = s.res2 ∧ LengthsKept s t ∧ MemoriesKept s t

/-! ### Work partitioner -/

/-- 44_work_partitioner.md R157: PART, its errors in order and its results. -/
def Obligations.PartGivesRangeOfThePartition : Prop :=
  ∀ s : State,
    let w := s.seq.snap.a1.toInt; let l := s.seq.snap.a0.toNat; let i := s.seq.snap.a2.toNat; let we := min w.toNat l
    let start := fun x : Nat => (2 * l * x + we) / (2 * we)
    (w ≤ 0 → Rejects .wcount s (exec .part s)) ∧
    (1 ≤ w → we ≤ i → Rejects .rangeIndex s (exec .part s)) ∧
    (1 ≤ w → i < we → ∃ t, exec .part s = .next t ∧ Succeeds s t ∧ t.res0.toNat = start i ∧
      t.res1.toNat = start (i + 1) - start i ∧ t.res2.toNat = we ∧ LengthsKept s t ∧ MemoriesKept s t)

/-- 44_work_partitioner.md R158: LIMIT, the pixel split over RES0 and RES1, for every character offset. -/
def Obligations.LimitGivesTheStartingBitAddress : Prop :=
  ∀ s : State, ∃ t, exec .limit s = .next t ∧ Succeeds s t ∧
    t.res0.toNat + 2 ^ 32 * t.res1.toNat = 11 + 7 * s.seq.snap.a0.toNat / 3 ∧ t.res1.toNat ≤ 2 ∧
    t.res2.toNat = 7 * s.seq.snap.a0.toNat % 3 ∧ LengthsKept s t ∧ MemoriesKept s t

/-- 44_work_partitioner.md R153: the ranges of a partition are disjoint and their union is the payload: start(0) = 0,
start(We) = L, start does not fall, and each character lies in exactly one range. -/
def Obligations.RangesTileThePayload : Prop :=
  ∀ l we : Nat, 1 ≤ we →
    rangeStart l we 0 = 0 ∧ rangeStart l we we = l ∧ (∀ i j, i ≤ j → rangeStart l we i ≤ rangeStart l we j) ∧
    (∀ k, k < l → ∃! i, i < we ∧ rangeStart l we i ≤ k ∧ k < rangeStart l we i + rangeCount l we i) ∧
    (∀ i k, i < we → rangeStart l we i ≤ k → k < rangeStart l we i + rangeCount l we i → k < l)

/-- 44_work_partitioner.md R154: every range of a partition is non-empty and the sizes differ by at most one. -/
def Obligations.RangesAreNonEmptyAndEven : Prop :=
  ∀ l we i : Nat, 1 ≤ we → we ≤ l → i < we →
    1 ≤ rangeCount l we i ∧ l / we ≤ rangeCount l we i ∧ rangeCount l we i ≤ (l + we - 1) / we

/-- 44_work_partitioner.md R155: asking for at least as many workers as characters gives one character a range. -/
def Obligations.ExcessWorkersAreClamped : Prop :=
  ∀ (w : Int) (l i : Nat), 1 ≤ l → (l : Int) ≤ w → i < l →
    effWorkers w l = l ∧ rangeStart l (effWorkers w l) i = i ∧ rangeCount l (effWorkers w l) i = 1

/-! ### Worker tasks -/

/-- 45_worker_orchestration.md R168: ENCRNG, its errors in order and its effect on every byte; the checks apply with n = 0. -/
def Obligations.EncrngEncodesARange : Prop :=
  ∀ s : State,
    let p := s.seq.snap.p.toNat; let b := s.seq.snap.a0.toNat; let n := s.seq.snap.a1.toNat
    (p < 11 → Rejects .imageSmall s (exec .encrng s)) ∧
    (11 ≤ p → (s.params.pixBytes < 3 * p ∨ 3 * p < 33 + 7 * (b + n)) → Rejects .pixBounds s (exec .encrng s)) ∧
    (imageFits s → 33 + 7 * (b + n) ≤ 3 * p → s.params.payBytes < b + n → Rejects .payBounds s (exec .encrng s)) ∧
    (imageFits s → 33 + 7 * (b + n) ≤ 3 * p → b + n ≤ s.params.payBytes → ¬ charsFit s b n →
      Rejects .charRange s (exec .encrng s)) ∧
    (imageFits s → 33 + 7 * (b + n) ≤ 3 * p → b + n ≤ s.params.payBytes → charsFit s b n →
      ∃ t, exec .encrng s = .next t ∧ Succeeds s t ∧ ResultsKept s t ∧ LengthsKept s t ∧ t.pay = s.pay ∧
        ∀ a, (t.pixAt a).toNat =
          if 33 + 7 * b ≤ a ∧ a < 33 + 7 * (b + n) then withLowBit (s.pixAt a).toNat (payloadBitOf s a) else (s.pixAt a).toNat)

/-- 45_worker_orchestration.md R169: DECRNG, its errors in order and its effect on every byte. -/
def Obligations.DecrngDecodesARange : Prop :=
  ∀ s : State,
    let p := s.seq.snap.p.toNat; let b := s.seq.snap.a0.toNat; let n := s.seq.snap.a1.toNat
    (p < 11 → Rejects .imageSmall s (exec .decrng s)) ∧
    (11 ≤ p → (s.params.pixBytes < 3 * p ∨ 3 * p < 33 + 7 * (b + n)) → Rejects .pixBounds s (exec .decrng s)) ∧
    (imageFits s → 33 + 7 * (b + n) ≤ 3 * p → s.params.payBytes < b + n → Rejects .payBounds s (exec .decrng s)) ∧
    (imageFits s → 33 + 7 * (b + n) ≤ 3 * p → b + n ≤ s.params.payBytes →
      ∃ t, exec .decrng s = .next t ∧ Succeeds s t ∧ ResultsKept s t ∧ LengthsKept s t ∧ t.pix = s.pix ∧
        ∀ a, (t.payAt a).toNat = if b ≤ a ∧ a < b + n then characterOf s (7 * a) else (s.payAt a).toNat)

/-! ### Orchestration -/

/-- 45_worker_orchestration.md R173: ENCODE, its errors in order (HDR_OVERFLOW cannot occur at H = 32) and its effect on
every byte and on WEFF. -/
def Obligations.EncodeHidesThePayload : Prop :=
  ∀ s : State,
    let p := s.seq.snap.p.toNat; let l := s.seq.snap.lin.toNat; let w := s.seq.snap.win.toInt
    (w ≤ 0 → Rejects .wcount s (exec .encode s)) ∧
    (1 ≤ w → p < 11 → Rejects .imageSmall s (exec .encode s)) ∧
    (1 ≤ w → 11 ≤ p → s.params.pixBytes < 3 * p → Rejects .pixBounds s (exec .encode s)) ∧
    (1 ≤ w → imageFits s → capacityOf p < l → Rejects .capacity s (exec .encode s)) ∧
    (1 ≤ w → imageFits s → l ≤ capacityOf p → s.params.payBytes < l → Rejects .payBounds s (exec .encode s)) ∧
    (1 ≤ w → imageFits s → l ≤ capacityOf p → l ≤ s.params.payBytes → ¬ charsFit s 0 l → Rejects .charRange s (exec .encode s)) ∧
    (1 ≤ w → imageFits s → l ≤ capacityOf p → l ≤ s.params.payBytes → charsFit s 0 l →
      ∃ t, exec .encode s = .next t ∧ Succeeds s t ∧ ResultsKept s t ∧ t.len = s.len ∧ t.weff.toNat = min w.toNat l ∧
        t.pay = s.pay ∧
        ∀ a, (t.pixAt a).toNat =
          if a < 32 then withLowBit (s.pixAt a).toNat (l / 2 ^ (31 - a) % 2)
          else if 33 ≤ a ∧ a < 33 + 7 * l then withLowBit (s.pixAt a).toNat (payloadBitOf s a)
          else (s.pixAt a).toNat)

/-- 45_worker_orchestration.md R174: DECODE, its errors in order (with RES0 the length on HDR_LENGTH) and its effect on
every byte, on LEN, RES0 and WEFF. -/
def Obligations.DecodeRecoversThePayload : Prop :=
  ∀ s : State,
    let p := s.seq.snap.p.toNat; let w := s.seq.snap.win.toInt; let l := headerOf s
    (w ≤ 0 → Rejects .wcount s (exec .decode s)) ∧
    (1 ≤ w → p < 11 → Rejects .imageSmall s (exec .decode s)) ∧
    (1 ≤ w → 11 ≤ p → s.params.pixBytes < 3 * p → Rejects .pixBounds s (exec .decode s)) ∧
    (1 ≤ w → imageFits s → (capacityOf p < l ∨ s.params.payBytes < l) →
      ∃ t, exec .decode s = .next t ∧ Fails .hdrLength s t ∧ t.res0.toNat = l ∧ t.res1 = s.res1 ∧ t.res2 = s.res2 ∧
        LengthsKept s t ∧ MemoriesKept s t) ∧
    (1 ≤ w → imageFits s → l ≤ capacityOf p → l ≤ s.params.payBytes →
      ∃ t, exec .decode s = .next t ∧ Succeeds s t ∧ t.res0.toNat = l ∧ t.res1 = s.res1 ∧ t.res2 = s.res2 ∧ t.len.toNat = l ∧
        t.weff.toNat = min w.toNat l ∧ t.pix = s.pix ∧
        ∀ a, (t.payAt a).toNat = if a < l then characterOf s (7 * a) else (s.payAt a).toNat)

/-- 45_worker_orchestration.md R176: the round trip. After an ENCODE that the checks admit, a DECODE of an image of the same
P whose header and payload bits are still those, with any worker count of at least 1, succeeds and gives LEN = L and the
payload; a byte of 128 or more under CHMODE = 1 comes back mod 128. -/
def Obligations.DecodeAfterEncodeGivesThePayload : Prop :=
  ∀ s t u : State, 1 ≤ s.seq.snap.win.toInt → imageFits s → s.seq.snap.lin.toNat ≤ capacityOf s.seq.snap.p.toNat →
    s.seq.snap.lin.toNat ≤ s.params.payBytes → charsFit s 0 s.seq.snap.lin.toNat → exec .encode s = .next t →
    1 ≤ u.seq.snap.win.toInt → u.seq.snap.p = s.seq.snap.p → u.params = s.params →
    (∀ a, (a < 32 ∨ 33 ≤ a ∧ a < 33 + 7 * s.seq.snap.lin.toNat) → (u.pixAt a).toNat % 2 = (t.pixAt a).toNat % 2) →
    ∃ v, exec .decode u = .next v ∧ Succeeds u v ∧ v.len = s.seq.snap.lin ∧
      ∀ k < s.seq.snap.lin.toNat, (v.payAt k).toNat = (s.payAt k).toNat % 128

/-- 45_worker_orchestration.md R177: results do not depend on the partition: with any two worker counts of at least 1, an
ENCODE ends with the same PIX and a DECODE with the same PAY, and everything else the host can read agrees, but WEFF. -/
def Obligations.ResultsDoNotDependOnTheWorkerCount : Prop :=
  ∀ (i : Instr) (s t : State) (w : Word), i = .encode ∨ i = .decode → 1 ≤ s.seq.snap.win.toInt → 1 ≤ w.toInt →
    exec i s = .next t →
    ∃ t', exec i { s with seq := { s.seq with snap := { s.seq.snap with win := w } } } = .next t' ∧
      (∀ a, t'.pixAt a = t.pixAt a) ∧ (∀ a, t'.payAt a = t.payAt a) ∧ t'.status = t.status ∧ ResultsKept t t' ∧ t'.len = t.len

/-- 45_worker_orchestration.md R178, R179: no race within a command. From an accepted command of a state that meets the
invariant, whatever the order in which the sequencer hands out ranges and the engines take their steps, if the command
completes then the state it ends in is the one its one-transition meaning gives. -/
def Obligations.EveryInterleavingEndsInTheSameState : Prop :=
  ∀ (s t : State) (i : Instr) (ts : List Turn), Inv s → s.rst = false → s.seq.phase = .run → s.seq.job = none →
    decode s.seq.cmd = some i → s.sched = .start :: ts → (∀ x ∈ ts, dispatchTurn x = true) →
    Sys2Proof.core.run (ts.length + 1) s = .next t → t.seq.phase = .idle → exec i { s with sched := [] } = .next t

/-- 70_reset_and_hazards.md R236 (an accepted command is eventually completed): with no schedule given, the default turns
bring an open dispatch to its completion. The default turns are the model's choice (log 15). -/
def Obligations.AnOpenDispatchCompletes : Prop :=
  ∀ (s : State) (j : Job), Inv s → s.sched = [] → s.seq.job = some j →
    ∃ k t, Sys2Proof.core.run k s = .next t ∧ t.seq.phase = .idle ∧ t.status.busy = false ∧ t.status.done = true ∧
      t.status.err = false

/-- 45_worker_orchestration.md R170, with R151 and R152 written out: the dispatcher hands the next range index, with its
direction and the range computed at hand-out, to an idle engine: start(i) and count(i) of L and We for ENCODE and DECODE,
(a0, a1), one range (log 18), for ENCRNG and DECRNG (R168, R169); an engine that is busy or does not exist is given nothing,
and such a turn changes nothing (log 19). L and We are those the dispatch was opened with: Lin, or the header read, and
min(W, L) (R173, R174). -/
def Obligations.HandOutGivesTheNextRange : Prop :=
  let start := fun l we i : Nat => (2 * l * i + we) / (2 * we)
  let count := fun (s : State) (j : Job) =>
    match j with
    | .encrng => 1
    | .decrng => 1
    | .encode => s.seq.weff
    | .decode => s.seq.weff
  (∀ (s : State) (e : Nat) (ts : List Turn) (j : Job) (g : Engine), s.sched = .handOut e :: ts → s.seq.job = some j →
    let l := s.seq.len; let we := s.seq.weff; let i := s.disp.nxt
    (i < count s j → s.engines[e]? = some g → g.busy = false →
      ∃ t, step s = .next t ∧ t.disp.nxt = i + 1 ∧ t.disp.live = s.disp.live ++ [i] ∧
        t.engines.length = s.engines.length ∧ (∀ e', e' ≠ e → t.engines[e']? = s.engines[e']?) ∧
        (∃ g', t.engines[e]? = some g' ∧ g'.busy = true ∧ g'.idx = i ∧ g'.j = 0 ∧ g'.k = 0 ∧ g'.acc = 0 ∧
          (match j with
            | .encrng => g'.dir = .enc ∧ g'.s = s.seq.snap.a0.toNat ∧ g'.n = s.seq.snap.a1.toNat
            | .decrng => g'.dir = .dec ∧ g'.s = s.seq.snap.a0.toNat ∧ g'.n = s.seq.snap.a1.toNat
            | .encode => g'.dir = .enc ∧ g'.s = start l we i ∧ g'.n = start l we (i + 1) - start l we i
            | .decode => g'.dir = .dec ∧ g'.s = start l we i ∧ g'.n = start l we (i + 1) - start l we i)) ∧
        MemoriesKept s t ∧ ResultsKept s t ∧ LengthsKept s t ∧ t.status = s.status ∧ t.seq = s.seq) ∧
    (count s j ≤ i ∨ s.engines[e]? = none ∨ (s.engines[e]? = some g ∧ g.busy = true) →
      step s = .next { s with sched := ts })) ∧
  (∀ (s : State) (ts : List Turn), s.sched = .start :: ts → s.rst = false → s.seq.phase = .run → s.seq.job = none →
    1 ≤ s.seq.snap.win.toInt → imageFits s →
    let cap := capacityOf s.seq.snap.p.toNat
    (decode s.seq.cmd = some .encode → s.seq.snap.lin.toNat ≤ cap → s.seq.snap.lin.toNat ≤ s.params.payBytes →
      charsFit s 0 s.seq.snap.lin.toNat →
      ∃ t, step s = .next t ∧ t.seq.job = some .encode ∧ t.seq.len = s.seq.snap.lin.toNat ∧
        t.seq.weff = min s.seq.snap.win.toInt.toNat s.seq.snap.lin.toNat ∧ t.disp.nxt = 0 ∧ t.disp.live = []) ∧
    (decode s.seq.cmd = some .decode → headerOf s ≤ cap → headerOf s ≤ s.params.payBytes →
      ∃ t, step s = .next t ∧ t.seq.job = some .decode ∧ t.seq.len = headerOf s ∧
        t.seq.weff = min s.seq.snap.win.toInt.toNat (headerOf s) ∧ t.disp.nxt = 0 ∧ t.disp.live = []))

/-- 45_worker_orchestration.md R180: the capacity boundary: max_capacity(P) characters succeed, one more raises CAPACITY. -/
def Obligations.CapacityBoundaryIsExact : Prop :=
  ∀ s : State, imageFits s → 1 ≤ s.seq.snap.win.toInt → s.seq.snap.lin.toNat ≤ s.params.payBytes →
    charsFit s 0 s.seq.snap.lin.toNat →
    (s.seq.snap.lin.toNat = capacityOf s.seq.snap.p.toNat → ∃ t, exec .encode s = .next t ∧ Succeeds s t) ∧
    (s.seq.snap.lin.toNat = capacityOf s.seq.snap.p.toNat + 1 → Rejects .capacity s (exec .encode s))

/-- 45_worker_orchestration.md R181: the number of engines is unobservable: a command run with another number of engines ends
in the same state but for them, and no register but CFG reads otherwise. -/
def Obligations.EngineCountIsUnobservable : Prop :=
  (∀ (i : Instr) (s t : State) (n : Nat) (es : List Engine), exec i s = .next t →
    exec i { s with params := { s.params with numEngines := n }, engines := es } =
      .next { t with params := { t.params with numEngines := n }, engines := es }) ∧
  (∀ (r : Reg) (s : State) (n : Nat) (es : List Engine), r ≠ .cfg →
    regRead r { s with params := { s.params with numEngines := n }, engines := es } = regRead r s)

/-! ### Rules over all commands -/

/-- 60_exceptions.md R196, R197: every command, in every state, ends in a next state with BUSY = 0, DONE = 1 and the phase
IDLE; either ERR and ERRCODE are as they were (0 in a running command) or ERR = 1 with a code. -/
def Obligations.EveryCommandCompletes : Prop :=
  ∀ (i : Instr) (s : State), ∃ t, exec i s = .next t ∧ (Succeeds s t ∨ ∃ code, code ≠ .noError ∧ code ≠ .illegalCmd ∧ Fails code s t)

/-- 60_exceptions.md R195: an error leaves PIX, PAY, LEN and WEFF exactly as they were at acceptance, and RES0..2 as well
except for DECODE's RES0 on HDR_LENGTH. -/
def Obligations.ErrorsComeBeforeMutation : Prop :=
  ∀ (i : Instr) (s t : State) (code : ErrCode), s.status.err = false → exec i s = .next t → t.status.err = true →
    t.status.errcode = code → MemoriesKept s t ∧ LengthsKept s t ∧ t.res1 = s.res1 ∧ t.res2 = s.res2 ∧
      (t.res0 = s.res0 ∨ i = .decode ∧ code = .hdrLength ∧ t.res0.toNat = headerOf s)

/-- 60_exceptions.md R194: the errors a command can raise are those of its row, and HDR_OVERFLOW, which its rows list for
every H, never occurs at H = 32. -/
def Obligations.EachCommandRaisesOnlyItsErrors : Prop :=
  ∀ (i : Instr) (s t : State), s.status.err = false → exec i s = .next t → t.status.err = true →
    t.status.errcode ≠ .hdrOverflow ∧
    t.status.errcode ∈ (match i with
      | .addr => [] | .c2b => [] | .exbit => [] | .maxcap => [] | .limit => []
      | .wrhdr => [.imageSmall, .pixBounds, .hdrOverflow] | .rdhdr => [.imageSmall, .pixBounds] | .embit => [.bitValue]
      | .emchr => [.imageSmall, .pixBounds, .charRange] | .exchr => [.imageSmall, .pixBounds]
      | .part => [.wcount, .rangeIndex] | .encrng => [.imageSmall, .pixBounds, .payBounds, .charRange]
      | .decrng => [.imageSmall, .pixBounds, .payBounds]
      | .encode => [.wcount, .imageSmall, .pixBounds, .capacity, .payBounds, .hdrOverflow, .charRange]
      | .decode => [.wcount, .imageSmall, .pixBounds, .hdrLength] : List ErrCode)

/-- 10_state.md R35, R37; 30_encoding.md R93: of all commands, only DECODE writes LEN, only ENCODE and DECODE write WEFF, only
DECRNG and DECODE write PAY, only WRHDR, EMCHR, ENCRNG and ENCODE write PIX, and CTRL, ARG0..2, PIXCNT and WREQ are written by
none. -/
def Obligations.CommandsWriteOnlyWhatTheirRowsName : Prop :=
  ∀ (i : Instr) (s t : State), exec i s = .next t → CommandFrame s t ∧
    (t.len ≠ s.len → i = .decode) ∧ (t.weff ≠ s.weff → i = .encode ∨ i = .decode) ∧
    (t.pay ≠ s.pay → i = .decrng ∨ i = .decode) ∧
    (t.pix ≠ s.pix → i = .wrhdr ∨ i = .emchr ∨ i = .encrng ∨ i = .encode)

/-- 20_memory.md R61, R63: of all commands none changes bits 7:1 of any PIX byte, none changes byte 32 or a byte at or above
3P, and only WRHDR and ENCODE change a byte of the header (42_header_codec.md R126). -/
def Obligations.OnlyLowestBitsInsideTheImageChange : Prop :=
  ∀ (i : Instr) (s t : State), exec i s = .next t → ∀ a,
    (t.pixAt a).toNat / 2 = (s.pixAt a).toNat / 2 ∧ (a = 32 → t.pixAt a = s.pixAt a) ∧
    (3 * s.seq.snap.p.toNat ≤ a → t.pixAt a = s.pixAt a) ∧ (a < 32 → t.pixAt a ≠ s.pixAt a → i = .wrhdr ∨ i = .encode)

/-- 70_reset_and_hazards.md R230, 20_memory.md R82: a write to ARG0..2, PIXCNT, WREQ, CTRL or LEN while a command runs updates
the register at once and does not reach the command: doing the write and then the command, run as one transition, or any turn
of its dispatch, is the same as doing it after. The one exception is LEN at the completion of a successful DECODE, which writes
it (R231). -/
def Obligations.RegisterWritesDoNotReachTheRunningCommand : Prop :=
  (∀ (i : Instr) (r : Reg) (v : Word) (s t : State),
    (r ∈ [Reg.arg0, .arg1, .arg2, .pixcnt, .wreq, .ctrl] ∨
      r = .len ∧ (i ≠ .decode ∨ s.status.err = false ∧ t.status.err = true)) →
    exec i s = .next t → exec i (regWrite r v s) = .next (regWrite r v t)) ∧
  (∀ (x : Turn) (ts : List Turn) (r : Reg) (v : Word) (s t : State), s.sched = x :: ts → (x = .start ∨ dispatchTurn x = true) →
    (r ∈ [Reg.arg0, .arg1, .arg2, .pixcnt, .wreq, .ctrl] ∨ r = .len ∧ (s.seq.job ≠ some .decode ∨ t.seq.job = some .decode)) →
    step s = .next t → step (regWrite r v s) = .next (regWrite r v t))

/-- 70_reset_and_hazards.md R231: a successful DECODE writes LEN at completion, and that value overwrites any value the host
wrote to LEN while it ran, before the one transition or before the join of its dispatch. -/
def Obligations.DecodeOverwritesLen : Prop :=
  (∀ (s t : State) (v : Word), s.status.err = false → exec .decode s = .next t → t.status.err = false →
    t.len.toNat = headerOf s ∧ exec .decode (regWrite .len v s) = .next t) ∧
  (∀ (s t : State) (v : Word) (ts : List Turn), Inv s → s.sched = .join :: ts → s.seq.job = some .decode →
    step s = .next t → t.seq.phase = .idle → t.len.toNat = s.seq.len ∧ step (regWrite .len v s) = .next t)

/-- 10_state.md R33, 70_reset_and_hazards.md R232: a step after which a command is still running leaves RES0..2 and WEFF as
they were: they are written at completion only. LEN too, unless this step performs a host write to LEN, of the value LEN then
has. That DECODE's RES0 is among them is the model's reading (log 12). -/
def Obligations.ResultsAppearOnlyAtCompletion : Prop :=
  ∀ s t : State, Inv s → step s = .next t → t.status.busy = true →
    ResultsKept s t ∧ t.weff = s.weff ∧
      (t.len ≠ s.len → ∃ v rest, s.host = .access (.writeReg .word 0x30 v) :: rest ∧ t.host = rest ∧ t.len = v)

/-! ### Invariants -/

/-- 10_state.md R30: every step keeps the form of STATUS: BUSY exactly in phase RUN, BUSY excludes DONE and ERR, ERR = 0
exactly where ERRCODE = 0. -/
def Obligations.StepKeepsTheStatusInvariant : Prop := ∀ s t : State, StatusInv s → step s = .next t → StatusInv t

/-- The invariant holds right after reset, for every instance within its constraints and every canonical contents of the
memories, and so in the reset state. -/
def Obligations.ResetMeetsTheInvariant : Prop :=
  (∀ (p : Params) (pix pay : Memory), p.wellFormed = true → Memory.wf pix → Memory.wf pay → Memory.within p.pixBytes pix →
    Memory.within p.payBytes pay → Inv (State.resetOf p pix pay)) ∧
  Inv State.reset

/-- Every step keeps the invariant: the memories in canonical form and inside their sizes, STATUS and the phase in agreement,
the dispatcher's live set the ranges of the busy engines, every engine on its own range within its cursors, and the block idle
under rst (20_memory.md R60, R67; 10_state.md R30, R39–R41; 60_exceptions.md R193). -/
def Obligations.StepKeepsTheInvariant : Prop := ∀ s t : State, Inv s → step s = .next t → Inv t

/-- The one fault of the machine: a step faults only where the host accesses a byte of PIX or PAY while BUSY = 1
(70_reset_and_hazards.md R229), and no step is refused. -/
def Obligations.OnlyTheHazardStopsTheMachine : Prop :=
  ∀ s : State, (∀ r, step s ≠ .refused r) ∧
    (∀ sp off, step s = .fault (.hostAccessDuringBusy sp off) →
      s.status.busy = true ∧ s.rst = false ∧ ∃ rest, (s.host = .access (.readMem sp .byte off) :: rest ∨
        ∃ v, s.host = .access (.writeMem sp .byte off v) :: rest))
end

