-- ==== Sys2Proof/Laws/State.lean ====
section
/-! SUPPORT. What each shared update of State does to each field, one lemma per field and update, true by `rfl`; later proofs
rewrite with these and never unfold a record update. -/

namespace Sys2Proof.Machine

/-! ### toIdle -/

@[simp] theorem toIdle_params (s : State) : (toIdle s).params = s.params := rfl
@[simp] theorem toIdle_ctrl (s : State) : (toIdle s).ctrl = s.ctrl := rfl
@[simp] theorem toIdle_status (s : State) : (toIdle s).status = s.status := rfl
@[simp] theorem toIdle_arg0 (s : State) : (toIdle s).arg0 = s.arg0 := rfl
@[simp] theorem toIdle_arg1 (s : State) : (toIdle s).arg1 = s.arg1 := rfl
@[simp] theorem toIdle_arg2 (s : State) : (toIdle s).arg2 = s.arg2 := rfl
@[simp] theorem toIdle_res0 (s : State) : (toIdle s).res0 = s.res0 := rfl
@[simp] theorem toIdle_res1 (s : State) : (toIdle s).res1 = s.res1 := rfl
@[simp] theorem toIdle_res2 (s : State) : (toIdle s).res2 = s.res2 := rfl
@[simp] theorem toIdle_pixcnt (s : State) : (toIdle s).pixcnt = s.pixcnt := rfl
@[simp] theorem toIdle_len (s : State) : (toIdle s).len = s.len := rfl
@[simp] theorem toIdle_wreq (s : State) : (toIdle s).wreq = s.wreq := rfl
@[simp] theorem toIdle_weff (s : State) : (toIdle s).weff = s.weff := rfl
@[simp] theorem toIdle_pix (s : State) : (toIdle s).pix = s.pix := rfl
@[simp] theorem toIdle_pay (s : State) : (toIdle s).pay = s.pay := rfl
@[simp] theorem toIdle_seq (s : State) : (toIdle s).seq = { s.seq with phase := .idle, job := none, len := 0, weff := 0 } := rfl
@[simp] theorem toIdle_disp (s : State) : (toIdle s).disp = Dispatcher.reset := rfl
@[simp] theorem toIdle_engines (s : State) : (toIdle s).engines = s.engines := rfl
@[simp] theorem toIdle_rst (s : State) : (toIdle s).rst = s.rst := rfl
@[simp] theorem toIdle_host (s : State) : (toIdle s).host = s.host := rfl
@[simp] theorem toIdle_seen (s : State) : (toIdle s).seen = s.seen := rfl
@[simp] theorem toIdle_sched (s : State) : (toIdle s).sched = s.sched := rfl
@[simp] theorem toIdle_freeCtr (s : State) : (toIdle s).freeCtr = s.freeCtr := rfl

/-! ### complete -/

@[simp] theorem complete_params (s : State) : (complete s).params = s.params := rfl
@[simp] theorem complete_ctrl (s : State) : (complete s).ctrl = s.ctrl := rfl
@[simp] theorem complete_status (s : State) : (complete s).status = { s.status with busy := false, done := true } := rfl
@[simp] theorem complete_arg0 (s : State) : (complete s).arg0 = s.arg0 := rfl
@[simp] theorem complete_arg1 (s : State) : (complete s).arg1 = s.arg1 := rfl
@[simp] theorem complete_arg2 (s : State) : (complete s).arg2 = s.arg2 := rfl
@[simp] theorem complete_res0 (s : State) : (complete s).res0 = s.res0 := rfl
@[simp] theorem complete_res1 (s : State) : (complete s).res1 = s.res1 := rfl
@[simp] theorem complete_res2 (s : State) : (complete s).res2 = s.res2 := rfl
@[simp] theorem complete_pixcnt (s : State) : (complete s).pixcnt = s.pixcnt := rfl
@[simp] theorem complete_len (s : State) : (complete s).len = s.len := rfl
@[simp] theorem complete_wreq (s : State) : (complete s).wreq = s.wreq := rfl
@[simp] theorem complete_weff (s : State) : (complete s).weff = s.weff := rfl
@[simp] theorem complete_pix (s : State) : (complete s).pix = s.pix := rfl
@[simp] theorem complete_pay (s : State) : (complete s).pay = s.pay := rfl
@[simp] theorem complete_seq (s : State) : (complete s).seq = { s.seq with phase := .idle, job := none, len := 0, weff := 0 } := rfl
@[simp] theorem complete_disp (s : State) : (complete s).disp = Dispatcher.reset := rfl
@[simp] theorem complete_engines (s : State) : (complete s).engines = s.engines := rfl
@[simp] theorem complete_rst (s : State) : (complete s).rst = s.rst := rfl
@[simp] theorem complete_host (s : State) : (complete s).host = s.host := rfl
@[simp] theorem complete_seen (s : State) : (complete s).seen = s.seen := rfl
@[simp] theorem complete_sched (s : State) : (complete s).sched = s.sched := rfl
@[simp] theorem complete_freeCtr (s : State) : (complete s).freeCtr = s.freeCtr := rfl

/-! ### raiseError -/

@[simp] theorem raiseError_params (c : ErrCode) (s : State) : (raiseError c s).params = s.params := rfl
@[simp] theorem raiseError_ctrl (c : ErrCode) (s : State) : (raiseError c s).ctrl = s.ctrl := rfl
@[simp] theorem raiseError_status (c : ErrCode) (s : State) : (raiseError c s).status = { s.status with busy := false, done := true, err := true, errcode := c } := rfl
@[simp] theorem raiseError_arg0 (c : ErrCode) (s : State) : (raiseError c s).arg0 = s.arg0 := rfl
@[simp] theorem raiseError_arg1 (c : ErrCode) (s : State) : (raiseError c s).arg1 = s.arg1 := rfl
@[simp] theorem raiseError_arg2 (c : ErrCode) (s : State) : (raiseError c s).arg2 = s.arg2 := rfl
@[simp] theorem raiseError_res0 (c : ErrCode) (s : State) : (raiseError c s).res0 = s.res0 := rfl
@[simp] theorem raiseError_res1 (c : ErrCode) (s : State) : (raiseError c s).res1 = s.res1 := rfl
@[simp] theorem raiseError_res2 (c : ErrCode) (s : State) : (raiseError c s).res2 = s.res2 := rfl
@[simp] theorem raiseError_pixcnt (c : ErrCode) (s : State) : (raiseError c s).pixcnt = s.pixcnt := rfl
@[simp] theorem raiseError_len (c : ErrCode) (s : State) : (raiseError c s).len = s.len := rfl
@[simp] theorem raiseError_wreq (c : ErrCode) (s : State) : (raiseError c s).wreq = s.wreq := rfl
@[simp] theorem raiseError_weff (c : ErrCode) (s : State) : (raiseError c s).weff = s.weff := rfl
@[simp] theorem raiseError_pix (c : ErrCode) (s : State) : (raiseError c s).pix = s.pix := rfl
@[simp] theorem raiseError_pay (c : ErrCode) (s : State) : (raiseError c s).pay = s.pay := rfl
@[simp] theorem raiseError_seq (c : ErrCode) (s : State) : (raiseError c s).seq = { s.seq with phase := .idle, job := none, len := 0, weff := 0 } := rfl
@[simp] theorem raiseError_disp (c : ErrCode) (s : State) : (raiseError c s).disp = Dispatcher.reset := rfl
@[simp] theorem raiseError_engines (c : ErrCode) (s : State) : (raiseError c s).engines = s.engines := rfl
@[simp] theorem raiseError_rst (c : ErrCode) (s : State) : (raiseError c s).rst = s.rst := rfl
@[simp] theorem raiseError_host (c : ErrCode) (s : State) : (raiseError c s).host = s.host := rfl
@[simp] theorem raiseError_seen (c : ErrCode) (s : State) : (raiseError c s).seen = s.seen := rfl
@[simp] theorem raiseError_sched (c : ErrCode) (s : State) : (raiseError c s).sched = s.sched := rfl
@[simp] theorem raiseError_freeCtr (c : ErrCode) (s : State) : (raiseError c s).freeCtr = s.freeCtr := rfl

/-! ### accept -/

@[simp] theorem accept_params (v : Word) (s : State) : (accept v s).params = s.params := rfl
@[simp] theorem accept_ctrl (v : Word) (s : State) : (accept v s).ctrl = s.ctrl := rfl
@[simp] theorem accept_status (v : Word) (s : State) : (accept v s).status = { s.status with busy := true, done := false } := rfl
@[simp] theorem accept_arg0 (v : Word) (s : State) : (accept v s).arg0 = s.arg0 := rfl
@[simp] theorem accept_arg1 (v : Word) (s : State) : (accept v s).arg1 = s.arg1 := rfl
@[simp] theorem accept_arg2 (v : Word) (s : State) : (accept v s).arg2 = s.arg2 := rfl
@[simp] theorem accept_res0 (v : Word) (s : State) : (accept v s).res0 = s.res0 := rfl
@[simp] theorem accept_res1 (v : Word) (s : State) : (accept v s).res1 = s.res1 := rfl
@[simp] theorem accept_res2 (v : Word) (s : State) : (accept v s).res2 = s.res2 := rfl
@[simp] theorem accept_pixcnt (v : Word) (s : State) : (accept v s).pixcnt = s.pixcnt := rfl
@[simp] theorem accept_len (v : Word) (s : State) : (accept v s).len = s.len := rfl
@[simp] theorem accept_wreq (v : Word) (s : State) : (accept v s).wreq = s.wreq := rfl
@[simp] theorem accept_weff (v : Word) (s : State) : (accept v s).weff = s.weff := rfl
@[simp] theorem accept_pix (v : Word) (s : State) : (accept v s).pix = s.pix := rfl
@[simp] theorem accept_pay (v : Word) (s : State) : (accept v s).pay = s.pay := rfl
@[simp] theorem accept_seq (v : Word) (s : State) : (accept v s).seq = { phase := .run, cmd := v, snap := s.snapshot, job := none, len := 0, weff := 0 } := rfl
@[simp] theorem accept_disp (v : Word) (s : State) : (accept v s).disp = s.disp := rfl
@[simp] theorem accept_engines (v : Word) (s : State) : (accept v s).engines = s.engines := rfl
@[simp] theorem accept_rst (v : Word) (s : State) : (accept v s).rst = s.rst := rfl
@[simp] theorem accept_host (v : Word) (s : State) : (accept v s).host = s.host := rfl
@[simp] theorem accept_seen (v : Word) (s : State) : (accept v s).seen = s.seen := rfl
@[simp] theorem accept_sched (v : Word) (s : State) : (accept v s).sched = s.sched := rfl
@[simp] theorem accept_freeCtr (v : Word) (s : State) : (accept v s).freeCtr = s.freeCtr := rfl

/-! ### acknowledge -/

@[simp] theorem acknowledge_params (v : Word) (s : State) : (acknowledge v s).params = s.params := rfl
@[simp] theorem acknowledge_ctrl (v : Word) (s : State) : (acknowledge v s).ctrl = s.ctrl := rfl
@[simp] theorem acknowledge_status (v : Word) (s : State) : (acknowledge v s).status = s.status.acknowledge v := rfl
@[simp] theorem acknowledge_arg0 (v : Word) (s : State) : (acknowledge v s).arg0 = s.arg0 := rfl
@[simp] theorem acknowledge_arg1 (v : Word) (s : State) : (acknowledge v s).arg1 = s.arg1 := rfl
@[simp] theorem acknowledge_arg2 (v : Word) (s : State) : (acknowledge v s).arg2 = s.arg2 := rfl
@[simp] theorem acknowledge_res0 (v : Word) (s : State) : (acknowledge v s).res0 = s.res0 := rfl
@[simp] theorem acknowledge_res1 (v : Word) (s : State) : (acknowledge v s).res1 = s.res1 := rfl
@[simp] theorem acknowledge_res2 (v : Word) (s : State) : (acknowledge v s).res2 = s.res2 := rfl
@[simp] theorem acknowledge_pixcnt (v : Word) (s : State) : (acknowledge v s).pixcnt = s.pixcnt := rfl
@[simp] theorem acknowledge_len (v : Word) (s : State) : (acknowledge v s).len = s.len := rfl
@[simp] theorem acknowledge_wreq (v : Word) (s : State) : (acknowledge v s).wreq = s.wreq := rfl
@[simp] theorem acknowledge_weff (v : Word) (s : State) : (acknowledge v s).weff = s.weff := rfl
@[simp] theorem acknowledge_pix (v : Word) (s : State) : (acknowledge v s).pix = s.pix := rfl
@[simp] theorem acknowledge_pay (v : Word) (s : State) : (acknowledge v s).pay = s.pay := rfl
@[simp] theorem acknowledge_seq (v : Word) (s : State) : (acknowledge v s).seq = s.seq := rfl
@[simp] theorem acknowledge_disp (v : Word) (s : State) : (acknowledge v s).disp = s.disp := rfl
@[simp] theorem acknowledge_engines (v : Word) (s : State) : (acknowledge v s).engines = s.engines := rfl
@[simp] theorem acknowledge_rst (v : Word) (s : State) : (acknowledge v s).rst = s.rst := rfl
@[simp] theorem acknowledge_host (v : Word) (s : State) : (acknowledge v s).host = s.host := rfl
@[simp] theorem acknowledge_seen (v : Word) (s : State) : (acknowledge v s).seen = s.seen := rfl
@[simp] theorem acknowledge_sched (v : Word) (s : State) : (acknowledge v s).sched = s.sched := rfl
@[simp] theorem acknowledge_freeCtr (v : Word) (s : State) : (acknowledge v s).freeCtr = s.freeCtr := rfl

/-! ### answer -/

@[simp] theorem answer_params (v : Word) (s : State) : (answer v s).params = s.params := rfl
@[simp] theorem answer_ctrl (v : Word) (s : State) : (answer v s).ctrl = s.ctrl := rfl
@[simp] theorem answer_status (v : Word) (s : State) : (answer v s).status = s.status := rfl
@[simp] theorem answer_arg0 (v : Word) (s : State) : (answer v s).arg0 = s.arg0 := rfl
@[simp] theorem answer_arg1 (v : Word) (s : State) : (answer v s).arg1 = s.arg1 := rfl
@[simp] theorem answer_arg2 (v : Word) (s : State) : (answer v s).arg2 = s.arg2 := rfl
@[simp] theorem answer_res0 (v : Word) (s : State) : (answer v s).res0 = s.res0 := rfl
@[simp] theorem answer_res1 (v : Word) (s : State) : (answer v s).res1 = s.res1 := rfl
@[simp] theorem answer_res2 (v : Word) (s : State) : (answer v s).res2 = s.res2 := rfl
@[simp] theorem answer_pixcnt (v : Word) (s : State) : (answer v s).pixcnt = s.pixcnt := rfl
@[simp] theorem answer_len (v : Word) (s : State) : (answer v s).len = s.len := rfl
@[simp] theorem answer_wreq (v : Word) (s : State) : (answer v s).wreq = s.wreq := rfl
@[simp] theorem answer_weff (v : Word) (s : State) : (answer v s).weff = s.weff := rfl
@[simp] theorem answer_pix (v : Word) (s : State) : (answer v s).pix = s.pix := rfl
@[simp] theorem answer_pay (v : Word) (s : State) : (answer v s).pay = s.pay := rfl
@[simp] theorem answer_seq (v : Word) (s : State) : (answer v s).seq = s.seq := rfl
@[simp] theorem answer_disp (v : Word) (s : State) : (answer v s).disp = s.disp := rfl
@[simp] theorem answer_engines (v : Word) (s : State) : (answer v s).engines = s.engines := rfl
@[simp] theorem answer_rst (v : Word) (s : State) : (answer v s).rst = s.rst := rfl
@[simp] theorem answer_host (v : Word) (s : State) : (answer v s).host = s.host := rfl
@[simp] theorem answer_seen (v : Word) (s : State) : (answer v s).seen = { data := v, busError := false } :: s.seen := rfl
@[simp] theorem answer_sched (v : Word) (s : State) : (answer v s).sched = s.sched := rfl
@[simp] theorem answer_freeCtr (v : Word) (s : State) : (answer v s).freeCtr = s.freeCtr := rfl

/-! ### refuseAccess -/

@[simp] theorem refuseAccess_params (s : State) : (refuseAccess s).params = s.params := rfl
@[simp] theorem refuseAccess_ctrl (s : State) : (refuseAccess s).ctrl = s.ctrl := rfl
@[simp] theorem refuseAccess_status (s : State) : (refuseAccess s).status = s.status := rfl
@[simp] theorem refuseAccess_arg0 (s : State) : (refuseAccess s).arg0 = s.arg0 := rfl
@[simp] theorem refuseAccess_arg1 (s : State) : (refuseAccess s).arg1 = s.arg1 := rfl
@[simp] theorem refuseAccess_arg2 (s : State) : (refuseAccess s).arg2 = s.arg2 := rfl
@[simp] theorem refuseAccess_res0 (s : State) : (refuseAccess s).res0 = s.res0 := rfl
@[simp] theorem refuseAccess_res1 (s : State) : (refuseAccess s).res1 = s.res1 := rfl
@[simp] theorem refuseAccess_res2 (s : State) : (refuseAccess s).res2 = s.res2 := rfl
@[simp] theorem refuseAccess_pixcnt (s : State) : (refuseAccess s).pixcnt = s.pixcnt := rfl
@[simp] theorem refuseAccess_len (s : State) : (refuseAccess s).len = s.len := rfl
@[simp] theorem refuseAccess_wreq (s : State) : (refuseAccess s).wreq = s.wreq := rfl
@[simp] theorem refuseAccess_weff (s : State) : (refuseAccess s).weff = s.weff := rfl
@[simp] theorem refuseAccess_pix (s : State) : (refuseAccess s).pix = s.pix := rfl
@[simp] theorem refuseAccess_pay (s : State) : (refuseAccess s).pay = s.pay := rfl
@[simp] theorem refuseAccess_seq (s : State) : (refuseAccess s).seq = s.seq := rfl
@[simp] theorem refuseAccess_disp (s : State) : (refuseAccess s).disp = s.disp := rfl
@[simp] theorem refuseAccess_engines (s : State) : (refuseAccess s).engines = s.engines := rfl
@[simp] theorem refuseAccess_rst (s : State) : (refuseAccess s).rst = s.rst := rfl
@[simp] theorem refuseAccess_host (s : State) : (refuseAccess s).host = s.host := rfl
@[simp] theorem refuseAccess_seen (s : State) : (refuseAccess s).seen = { data := 0, busError := true } :: s.seen := rfl
@[simp] theorem refuseAccess_sched (s : State) : (refuseAccess s).sched = s.sched := rfl
@[simp] theorem refuseAccess_freeCtr (s : State) : (refuseAccess s).freeCtr = s.freeCtr := rfl

/-! ### openJob -/

@[simp] theorem openJob_params (j : Job) (l we : Nat) (s : State) : (openJob j l we s).params = s.params := rfl
@[simp] theorem openJob_ctrl (j : Job) (l we : Nat) (s : State) : (openJob j l we s).ctrl = s.ctrl := rfl
@[simp] theorem openJob_status (j : Job) (l we : Nat) (s : State) : (openJob j l we s).status = s.status := rfl
@[simp] theorem openJob_arg0 (j : Job) (l we : Nat) (s : State) : (openJob j l we s).arg0 = s.arg0 := rfl
@[simp] theorem openJob_arg1 (j : Job) (l we : Nat) (s : State) : (openJob j l we s).arg1 = s.arg1 := rfl
@[simp] theorem openJob_arg2 (j : Job) (l we : Nat) (s : State) : (openJob j l we s).arg2 = s.arg2 := rfl
@[simp] theorem openJob_res0 (j : Job) (l we : Nat) (s : State) : (openJob j l we s).res0 = s.res0 := rfl
@[simp] theorem openJob_res1 (j : Job) (l we : Nat) (s : State) : (openJob j l we s).res1 = s.res1 := rfl
@[simp] theorem openJob_res2 (j : Job) (l we : Nat) (s : State) : (openJob j l we s).res2 = s.res2 := rfl
@[simp] theorem openJob_pixcnt (j : Job) (l we : Nat) (s : State) : (openJob j l we s).pixcnt = s.pixcnt := rfl
@[simp] theorem openJob_len (j : Job) (l we : Nat) (s : State) : (openJob j l we s).len = s.len := rfl
@[simp] theorem openJob_wreq (j : Job) (l we : Nat) (s : State) : (openJob j l we s).wreq = s.wreq := rfl
@[simp] theorem openJob_weff (j : Job) (l we : Nat) (s : State) : (openJob j l we s).weff = s.weff := rfl
@[simp] theorem openJob_pix (j : Job) (l we : Nat) (s : State) : (openJob j l we s).pix = s.pix := rfl
@[simp] theorem openJob_pay (j : Job) (l we : Nat) (s : State) : (openJob j l we s).pay = s.pay := rfl
@[simp] theorem openJob_seq (j : Job) (l we : Nat) (s : State) : (openJob j l we s).seq = { s.seq with job := some j, len := l, weff := we } := rfl
@[simp] theorem openJob_disp (j : Job) (l we : Nat) (s : State) : (openJob j l we s).disp = Dispatcher.reset := rfl
@[simp] theorem openJob_engines (j : Job) (l we : Nat) (s : State) : (openJob j l we s).engines = s.engines := rfl
@[simp] theorem openJob_rst (j : Job) (l we : Nat) (s : State) : (openJob j l we s).rst = s.rst := rfl
@[simp] theorem openJob_host (j : Job) (l we : Nat) (s : State) : (openJob j l we s).host = s.host := rfl
@[simp] theorem openJob_seen (j : Job) (l we : Nat) (s : State) : (openJob j l we s).seen = s.seen := rfl
@[simp] theorem openJob_sched (j : Job) (l we : Nat) (s : State) : (openJob j l we s).sched = s.sched := rfl
@[simp] theorem openJob_freeCtr (j : Job) (l we : Nat) (s : State) : (openJob j l we s).freeCtr = s.freeCtr := rfl

/-! ### assertReset: the fields it keeps or counts -/

@[simp] theorem assertReset_params (s : State) : (assertReset s).params = s.params := rfl
@[simp] theorem assertReset_ctrl (s : State) : (assertReset s).ctrl = Ctrl.reset := rfl
@[simp] theorem assertReset_status (s : State) : (assertReset s).status = Status.reset := rfl
@[simp] theorem assertReset_seq (s : State) : (assertReset s).seq = Sequencer.reset := rfl
@[simp] theorem assertReset_disp (s : State) : (assertReset s).disp = Dispatcher.reset := rfl
@[simp] theorem assertReset_engines (s : State) : (assertReset s).engines = List.replicate s.params.numEngines Engine.idle := rfl
@[simp] theorem assertReset_rst (s : State) : (assertReset s).rst = true := rfl
@[simp] theorem assertReset_host (s : State) : (assertReset s).host = s.host := rfl
@[simp] theorem assertReset_seen (s : State) : (assertReset s).seen = s.seen := rfl
@[simp] theorem assertReset_sched (s : State) : (assertReset s).sched = s.sched := rfl
@[simp] theorem assertReset_freeCtr (s : State) : (assertReset s).freeCtr = s.freeCtr + 1 := rfl

end Sys2Proof.Machine
end

