-- ==== Sys2Proof/Laws/Checks.lean ====
section
/-! SUPPORT. The ordered checks: when a list of checks passes, what a checked command does, and when each list of the spec
passes. -/

namespace Sys2Proof.Machine

/-- Every check of the list holds. -/
theorem firstError_eq_none_iff (l : List Check) : firstError l = none ↔ ∀ c ∈ l, c.1 = true := by
  induction l with
  | nil => simp [firstError]
  | cons c l ih =>
    obtain ⟨ok, code⟩ := c
    cases ok <;> simp [firstError, ih]

@[simp] theorem firstError_nil : firstError [] = none := rfl

theorem firstError_cons_pass {c : Check} (h : c.1 = true) (l : List Check) : firstError (c :: l) = firstError l := by
  obtain ⟨ok, code⟩ := c; simp only at h; subst h; rfl

theorem firstError_cons_fail {c : Check} (h : c.1 = false) (l : List Check) : firstError (c :: l) = some c.2 := by
  obtain ⟨ok, code⟩ := c; simp only at h; subst h; rfl

/-- Checks that pass leave the rest of the list to decide. -/
theorem firstError_append_pass {l : List Check} (h : firstError l = none) (l' : List Check) : firstError (l ++ l') = firstError l' := by
  induction l with
  | nil => rfl
  | cons c l ih =>
    obtain ⟨ok, code⟩ := c
    cases ok
    · cases h
    · exact ih h

/-- A failing check hides every later one (30_encoding.md R99). -/
theorem firstError_append_fail {l : List Check} {code : ErrCode} (h : firstError l = some code) (l' : List Check) :
    firstError (l ++ l') = some code := by
  induction l with
  | nil => cases h
  | cons c l ih =>
    obtain ⟨ok, k⟩ := c
    cases ok
    · exact h
    · exact ih h

/-- A code that is raised is the code of a check of the list. -/
theorem mem_of_firstError {l : List Check} {code : ErrCode} (h : firstError l = some code) : ∃ c ∈ l, c.2 = code := by
  induction l with
  | nil => cases h
  | cons c l ih =>
    obtain ⟨ok, k⟩ := c
    cases ok
    · exact ⟨_, List.mem_cons_self, Option.some.inj h⟩
    · obtain ⟨d, hd, e⟩ := ih h
      exact ⟨d, List.mem_cons_of_mem _ hd, e⟩

/-- Everything a checked command can do: it answers a next state, an error completion by the first failing check or the
completed effect. -/
theorem runChecked_cases {checks : List Check} {body : State → State} {s : State} {r : Result} (h : runChecked checks body s = r) :
    (∃ code, firstError checks = some code ∧ r = .next (raiseError code s)) ∨
      (firstError checks = none ∧ r = .next (complete (body s))) := by
  subst h
  unfold runChecked
  cases firstError checks with
  | none => exact .inr ⟨rfl, rfl⟩
  | some code => exact .inl ⟨code, rfl, rfl⟩

theorem runChecked_pass {checks : List Check} (h : firstError checks = none) (body : State → State) (s : State) :
    runChecked checks body s = .next (complete (body s)) := by unfold runChecked; rw [h]

theorem runChecked_fail {checks : List Check} {code : ErrCode} (h : firstError checks = some code) (body : State → State) (s : State) :
    runChecked checks body s = .next (raiseError code s) := by unfold runChecked; rw [h]

theorem openChecked_pass {checks : List Check} (h : firstError checks = none) (body : State → State) (s : State) :
    openChecked checks body s = body s := by unfold openChecked; rw [h]

theorem openChecked_fail {checks : List Check} {code : ErrCode} (h : firstError checks = some code) (body : State → State) (s : State) :
    openChecked checks body s = raiseError code s := by unfold openChecked; rw [h]

/-! ### The image check -/

/-- `image_check` passes exactly where the image holds the header and fits PIX (60_exceptions.md R192). -/
theorem imageChecks_pass (s : State) : firstError (imageChecks s) = none ↔ 11 ≤ s.opP ∧ 3 * s.opP ≤ s.params.pixBytes := by
  simp [imageChecks, firstError_eq_none_iff]

/-- IMAGE_SMALL comes first. -/
theorem imageChecks_small {s : State} (h : s.opP < 11) : firstError (imageChecks s) = some .imageSmall :=
  firstError_cons_fail (by simpa using h) _

/-- PIX_BOUNDS where the image passes the end of PIX. -/
theorem imageChecks_bounds {s : State} (h : 11 ≤ s.opP) (h' : s.params.pixBytes < 3 * s.opP) :
    firstError (imageChecks s) = some .pixBounds := by
  rw [imageChecks, firstError_cons_pass (by simpa using h), firstError_cons_fail (by simpa using h')]

/-- The characters of a span pass CHMODE exactly where the mode truncates or each is below 128. -/
theorem charsCheck_pass (s : State) (start n : Nat) :
    (charsCheck s start n).1 = true ↔ s.opCm = true ∨ ∀ j < n, (s.payAt (start + j)).toNat < 128 := by
  simp [charsCheck, List.all_eq_true]

/-! ### When the checks of each command pass, in terms of its snapshot -/

theorem wrhdrChecks_pass (s : State) : firstError (wrhdrChecks s) = none ↔ 11 ≤ s.opP ∧ 3 * s.opP ≤ s.params.pixBytes := by
  have : s.opA0 < 4294967296 := s.seq.snap.a0.isLt
  simp [wrhdrChecks, firstError_eq_none_iff, imageChecks, this]

theorem emchrChecks_pass (s : State) :
    firstError (imageChecks s ++ [charSpanCheck s, (charAdmitted s.opCm s.opA1, .charRange)]) = none ↔
      (11 ≤ s.opP ∧ 3 * s.opP ≤ s.params.pixBytes) ∧ 33 + s.opA0 + 7 ≤ 3 * s.opP ∧ (s.opA1 < 128 ∨ s.opCm = true) := by
  simp [firstError_eq_none_iff, imageChecks, charSpanCheck, charAdmitted]
  tauto

theorem exchrChecks_pass (s : State) :
    firstError (imageChecks s ++ [charSpanCheck s]) = none ↔
      (11 ≤ s.opP ∧ 3 * s.opP ≤ s.params.pixBytes) ∧ 33 + s.opA0 + 7 ≤ 3 * s.opP := by
  simp [firstError_eq_none_iff, imageChecks, charSpanCheck]
  tauto

theorem decrngChecks_pass (s : State) :
    firstError (imageChecks s ++ rangeChecks s) = none ↔
      (11 ≤ s.opP ∧ 3 * s.opP ≤ s.params.pixBytes) ∧ 33 + 7 * (s.opA0 + s.opA1) ≤ 3 * s.opP ∧
        s.opA0 + s.opA1 ≤ s.params.payBytes := by
  simp [firstError_eq_none_iff, imageChecks, rangeChecks]
  tauto

theorem encrngChecks_pass (s : State) :
    firstError (imageChecks s ++ rangeChecks s ++ [charsCheck s s.opA0 s.opA1]) = none ↔
      ((11 ≤ s.opP ∧ 3 * s.opP ≤ s.params.pixBytes) ∧ 33 + 7 * (s.opA0 + s.opA1) ≤ 3 * s.opP ∧
        s.opA0 + s.opA1 ≤ s.params.payBytes) ∧
      (s.opCm = true ∨ ∀ j < s.opA1, (s.payAt (s.opA0 + j)).toNat < 128) := by
  rw [← charsCheck_pass, ← decrngChecks_pass]
  simp only [firstError_eq_none_iff, List.mem_append, List.mem_singleton, or_imp, forall_and, forall_eq]

theorem decodeChecks_pass (s : State) :
    firstError (decodeChecks s) = none ↔ 1 ≤ s.opWin ∧ 11 ≤ s.opP ∧ 3 * s.opP ≤ s.params.pixBytes := by
  simp [decodeChecks, workerCheck, firstError_eq_none_iff, imageChecks]

theorem lengthChecks_pass (s : State) (l : Nat) :
    firstError (lengthChecks s l) = none ↔ l ≤ maxCapacity s.opP ∧ l ≤ s.params.payBytes := by
  simp [lengthChecks, firstError_eq_none_iff]

theorem encodeChecks_pass (s : State) :
    firstError (encodeChecks s) = none ↔
      (1 ≤ s.opWin ∧ 11 ≤ s.opP ∧ 3 * s.opP ≤ s.params.pixBytes) ∧ s.opLin ≤ maxCapacity s.opP ∧
        s.opLin ≤ s.params.payBytes ∧ (s.opCm = true ∨ ∀ j < s.opLin, (s.payAt j).toNat < 128) := by
  have hl : s.opLin < 4294967296 := s.seq.snap.lin.isLt
  have hc := charsCheck_pass s 0 s.opLin
  simp only [Nat.zero_add] at hc
  rw [← hc]
  simp [encodeChecks, workerCheck, firstError_eq_none_iff, imageChecks, hl]
  tauto

end Sys2Proof.Machine
end

