-- ==== Sys2Proof/Laws/Memory.lean ====
section
/-! SUPPORT. The laws of the byte memories: read after write, the canonical form, extensionality, and the one lemma about
embedding a run of bits. -/

namespace Sys2Proof.Machine

/-! ### One byte -/

@[simp] theorem lookup_nil (a : Nat) : Memory.lookup [] a = none := rfl

theorem lookup_cons (x : Nat) (v : Byte) (m : Memory) (a : Nat) :
    Memory.lookup ((x, v) :: m) a = if x = a then some v else Memory.lookup m a := rfl

/-- A write is read back at its offset and leaves every other offset alone. -/
theorem lookup_write (m : Memory) (a : Nat) (v : Byte) (b : Nat) :
    Memory.lookup (Memory.write m a v) b = if a = b then some v else Memory.lookup m b := by
  induction m with
  | nil => rfl
  | cons c m ih =>
    obtain ⟨x, w⟩ := c
    simp only [Memory.write]
    split
    · rfl
    · split
      · subst_vars; simp only [lookup_cons]; split <;> rfl
      · rename_i h1 h2
        simp only [lookup_cons, ih]
        split
        · subst_vars; rw [if_neg (fun h => h2 h.symm)]
        · rfl

/-- `MemRead` after `MemWrite`. -/
theorem read_write (sp : Space) (m : Memory) (a : Nat) (v : Byte) (b : Nat) :
    Memory.read sp (Memory.write m a v) b = if a = b then v else Memory.read sp m b := by
  simp only [Memory.read, lookup_write]
  split <;> rfl

@[simp] theorem read_write_same (sp : Space) (m : Memory) (a : Nat) (v : Byte) :
    Memory.read sp (Memory.write m a v) a = v := by simp [read_write]

theorem read_write_other (sp : Space) (m : Memory) {a b : Nat} (v : Byte) (h : a ≠ b) :
    Memory.read sp (Memory.write m a v) b = Memory.read sp m b := by simp [read_write, h]

/-- The offsets a write lists: its own and those listed before. -/
theorem mem_write {m : Memory} {a : Nat} {v : Byte} {c : Host.Cell} (h : c ∈ Memory.write m a v) : c = (a, v) ∨ c ∈ m := by
  induction m with
  | nil => simpa [Memory.write] using h
  | cons d m ih =>
    obtain ⟨x, w⟩ := d
    simp only [Memory.write] at h
    split at h
    · simpa using h
    · split at h
      · rcases List.mem_cons.1 h with h | h
        · exact .inl h
        · exact .inr (List.mem_cons_of_mem _ h)
      · rcases List.mem_cons.1 h with h | h
        · exact .inr (by simp [h])
        · exact (ih h).imp id (List.mem_cons_of_mem _)

/-! ### The canonical form -/

/-- A write keeps the canonical form. -/
theorem write_wf {m : Memory} (h : Memory.wf m) (a : Nat) (v : Byte) : Memory.wf (Memory.write m a v) := by
  induction m with
  | nil => exact List.pairwise_singleton _ _
  | cons c m ih =>
    obtain ⟨x, w⟩ := c
    obtain ⟨h1, h2⟩ := List.pairwise_cons.1 h
    simp only [Memory.write]
    split
    · rename_i hax
      refine List.pairwise_cons.2 ⟨fun d hd => ?_, h⟩
      rcases List.mem_cons.1 hd with rfl | hd
      · exact hax
      · exact lt_trans hax (h1 d hd)
    · split
      · rename_i hxa
        exact List.pairwise_cons.2 ⟨fun d hd => hxa ▸ h1 d hd, h2⟩
      · rename_i hax hxa
        refine List.pairwise_cons.2 ⟨fun d hd => ?_, ih h2⟩
        rcases mem_write hd with rfl | hd
        · show x < a; omega
        · exact h1 d hd

/-- A write below the size keeps every listed offset below the size. -/
theorem write_within {m : Memory} {n : Nat} (h : Memory.within n m) {a : Nat} (ha : a < n) (v : Byte) :
    Memory.within n (Memory.write m a v) := by
  intro c hc
  rcases mem_write hc with rfl | hc
  · exact ha
  · exact h c hc

/-- A listed byte is what a look-up of its offset finds. -/
theorem lookup_eq_some_of_mem {m : Memory} (h : Memory.wf m) {c : Host.Cell} (hc : c ∈ m) :
    Memory.lookup m c.1 = some c.2 := by
  induction m with
  | nil => cases hc
  | cons d m ih =>
    obtain ⟨x, w⟩ := d
    obtain ⟨h1, h2⟩ := List.pairwise_cons.1 h
    rw [lookup_cons]
    rcases List.mem_cons.1 hc with rfl | hc
    · simp
    · have : x < c.1 := h1 c hc
      rw [if_neg (by omega), ih h2 hc]

/-- What a look-up finds is listed. -/
theorem mem_of_lookup_eq_some {m : Memory} {a : Nat} {v : Byte} (h : Memory.lookup m a = some v) : (a, v) ∈ m := by
  induction m with
  | nil => cases h
  | cons d m ih =>
    obtain ⟨x, w⟩ := d
    rw [lookup_cons] at h
    split at h
    · cases h; subst_vars; exact List.mem_cons_self
    · exact List.mem_cons_of_mem _ (ih h)

/-- An offset below every listed one is not listed. -/
theorem lookup_eq_none_of_lt {m : Memory} {a : Nat} (h : ∀ c ∈ m, a < c.1) : Memory.lookup m a = none := by
  cases hl : Memory.lookup m a with
  | none => rfl
  | some v => exact absurd (h _ (mem_of_lookup_eq_some hl)) (lt_irrefl _)

/-- Equal memories are equal data: two canonical memories with the same look-ups are the same list. -/
theorem memory_ext {m m' : Memory} (h : Memory.wf m) (h' : Memory.wf m')
    (e : ∀ a, Memory.lookup m a = Memory.lookup m' a) : m = m' := by
  induction m generalizing m' with
  | nil =>
    cases m' with
    | nil => rfl
    | cons d m' => obtain ⟨x, w⟩ := d; have := e x; simp [lookup_cons] at this
  | cons c m ih =>
    obtain ⟨x, w⟩ := c
    obtain ⟨h1, h2⟩ := List.pairwise_cons.1 h
    cases m' with
    | nil => have := e x; simp [lookup_cons] at this
    | cons d m' =>
      obtain ⟨y, z⟩ := d
      obtain ⟨h1', h2'⟩ := List.pairwise_cons.1 h'
      have hx : Memory.lookup ((y, z) :: m') x = some w := by rw [← e x, lookup_cons, if_pos rfl]
      have hy : Memory.lookup ((x, w) :: m) y = some z := by rw [e y, lookup_cons, if_pos rfl]
      have xy : x = y := by
        rcases List.mem_cons.1 (mem_of_lookup_eq_some hx) with hx | hx
        · exact congrArg Prod.fst hx
        · rcases List.mem_cons.1 (mem_of_lookup_eq_some hy) with hy | hy
          · exact (congrArg Prod.fst hy).symm
          · have := h1' _ hx; have := h1 _ hy; simp only at *; omega
      subst xy
      have wz : w = z := by rw [lookup_cons, if_pos rfl] at hx; exact (Option.some.inj hx).symm
      subst wz
      refine congrArg _ (ih h2 h2' fun a => ?_)
      have := e a
      simp only [lookup_cons] at this
      split at this
      · subst_vars; rw [lookup_eq_none_of_lt h1, lookup_eq_none_of_lt h1']
      · exact this

/-! ### Bits -/

@[simp] theorem extractBit_embedBit (v : Byte) (e : Bool) : extractBit (embedBit v e) = e := by
  cases e <;> simp [extractBit, embedBit]

/-- Bits 7:1 of a component are kept by embedding (43_payload_codec.md R130). -/
theorem embedBit_high (v : Byte) (e : Bool) {i : Nat} (h : 0 < i) : (embedBit v e).getLsbD i = v.getLsbD i := by
  rcases Nat.lt_or_ge i 8 with hi | hi
  · interval_cases i <;> cases e <;> simp [embedBit]
  · rw [BitVec.getLsbD_of_ge _ _ hi, BitVec.getLsbD_of_ge _ _ hi]

/-- Embedding twice is embedding the second bit. -/
@[simp] theorem embedBit_embedBit (v : Byte) (e e' : Bool) : embedBit (embedBit v e) e' = embedBit v e' := by
  apply BitVec.eq_of_getLsbD_eq
  intro i _
  rcases Nat.eq_zero_or_pos i with rfl | hp
  · exact (extractBit_embedBit _ e').trans (extractBit_embedBit _ e').symm
  · rw [embedBit_high _ _ hp, embedBit_high _ _ hp, embedBit_high _ _ hp]

/-- Embedding the bit a component holds gives the component (R130). -/
@[simp] theorem embedBit_extractBit (v : Byte) : embedBit v (extractBit v) = v := by
  apply BitVec.eq_of_getLsbD_eq
  intro i _
  rcases Nat.eq_zero_or_pos i with rfl | hp
  · exact extractBit_embedBit _ _
  · rw [embedBit_high _ _ hp]

/-! ### Runs of bits -/

/-- Everything `embedBits` does: the bytes of the run take their bits, every other byte is kept. -/
theorem lookup_embedBits (bits : Nat → Bool) (base n : Nat) (m : Memory) (a : Nat) :
    Memory.lookup (embedBits bits base n m) a =
      if base ≤ a ∧ a < base + n then some (embedBit (Memory.read .pix m a) (bits (a - base))) else Memory.lookup m a := by
  induction n with
  | zero => rw [if_neg (by omega)]; rfl
  | succ n ih =>
    simp only [embedBits, lookup_write]
    split
    · subst_vars
      rw [if_pos (by omega), Nat.add_sub_cancel_left]
      simp only [Memory.read, ih]
      rw [if_neg (by omega)]
    · rw [ih]
      exact if_congr (by omega) rfl rfl

theorem read_embedBits (bits : Nat → Bool) (base n : Nat) (m : Memory) (a : Nat) :
    Memory.read .pix (embedBits bits base n m) a =
      if base ≤ a ∧ a < base + n then embedBit (Memory.read .pix m a) (bits (a - base)) else Memory.read .pix m a := by
  unfold Memory.read
  rw [lookup_embedBits]
  split <;> rfl

theorem embedBits_wf (bits : Nat → Bool) (base n : Nat) {m : Memory} (h : Memory.wf m) : Memory.wf (embedBits bits base n m) := by
  induction n with
  | zero => exact h
  | succ n ih => exact write_wf ih _ _

theorem embedBits_within (bits : Nat → Bool) (base n : Nat) {m : Memory} {size : Nat} (h : Memory.within size m)
    (hb : base + n ≤ size) : Memory.within size (embedBits bits base n m) := by
  induction n with
  | zero => exact h
  | succ n ih => exact write_within (ih (by omega)) (by omega) _

/-! ### Numbers read from bits -/

theorem bitsValue_congr {f g : Nat → Bool} {n : Nat} (h : ∀ i < n, f i = g i) : bitsValue f n = bitsValue g n := by
  induction n with
  | zero => rfl
  | succ n ih => simp only [bitsValue]; rw [ih (fun i hi => h i (by omega)), h n (by omega)]

theorem bitsValue_lt (f : Nat → Bool) (n : Nat) : bitsValue f n < 2 ^ n := by
  induction n with
  | zero => simp [bitsValue]
  | succ n ih => simp only [bitsValue, pow_succ]; have := Bool.toNat_le (f n); omega

/-- The bits of a number, most significant first, accumulate to the number. -/
theorem bitsValue_testBit (v w n : Nat) (h : n ≤ w) : bitsValue (fun i => v.testBit (w - 1 - i)) n = v / 2 ^ (w - n) % 2 ^ n := by
  induction n with
  | zero => simp [bitsValue, Nat.mod_one]
  | succ n ih =>
    simp only [bitsValue]
    rw [ih (by omega), show w - 1 - n = w - (n + 1) by omega]
    have e : w - n = (w - (n + 1)) + 1 := by omega
    rw [e, Nat.toNat_testBit, pow_succ 2 (w - (n + 1)), ← Nat.div_div_eq_div_mul]
    generalize v / 2 ^ (w - (n + 1)) = u
    rw [pow_succ, mul_comm (2 ^ n) 2, Nat.mod_mul]
    omega

/-- The accumulation is the sum of R121 and R135. -/
theorem bitsValue_eq_sum (f : Nat → Bool) (n : Nat) : bitsValue f n = ∑ i ∈ Finset.range n, (f i).toNat * 2 ^ (n - 1 - i) := by
  induction n with
  | zero => rfl
  | succ n ih =>
    rw [Finset.sum_range_succ, bitsValue, ih, Finset.mul_sum]
    congr 1
    · refine Finset.sum_congr rfl fun i hi => ?_
      have hi := Finset.mem_range.1 hi
      rw [show n + 1 - 1 - i = (n - 1 - i) + 1 by omega, pow_succ]; ring
    · simp

end Sys2Proof.Machine
end

