-- ==== Sys2Proof/Laws/Tasks.lean ====
section
/-! SUPPORT. What the header functions, the character functions and the range tasks do to every byte, and what running the
ranges of a job does to a state. -/

namespace Sys2Proof.Machine

/-! ### Addresses -/

/-- The byte offset of a bit index (41_bit_addressing.md R111). -/
@[simp] theorem boff_eq (b : Nat) : boff b = 33 + b := by
  simp only [boff, address, Config.channels, Config.firstPixel]; omega

@[simp] theorem c2b_eq (k : Nat) : c2b k = 7 * k := rfl

/-! ### Header and characters -/

theorem lookup_hdrWrite (n : Nat) (m : Memory) (a : Nat) :
    Memory.lookup (hdrWrite n m) a =
      if a < 32 then some (embedBit (Memory.read .pix m a) (n.testBit (31 - a))) else Memory.lookup m a := by
  rw [hdrWrite, lookup_embedBits]
  exact if_congr (by simp) (by simp) rfl

theorem read_hdrWrite (n : Nat) (m : Memory) (a : Nat) :
    Memory.read .pix (hdrWrite n m) a =
      if a < 32 then embedBit (Memory.read .pix m a) (n.testBit (31 - a)) else Memory.read .pix m a := by
  unfold Memory.read; rw [lookup_hdrWrite]; split <;> rfl

theorem hdrRead_lt (m : Memory) : hdrRead m < 2 ^ 32 := bitsValue_lt _ _

/-- Memories that agree on the header's lowest bits hold the same header (42_header_codec.md R121). -/
theorem hdrRead_congr {m m' : Memory} (h : ∀ i < 32, extractBit (Memory.read .pix m i) = extractBit (Memory.read .pix m' i)) :
    hdrRead m = hdrRead m' := bitsValue_congr h

theorem extractChar_lt (b : Nat) (m : Memory) : extractChar b m < 128 := bitsValue_lt _ _

/-- Memories that agree on the seven lowest bits hold the same character (43_payload_codec.md R135). -/
theorem extractChar_congr {m m' : Memory} {b : Nat}
    (h : ∀ k < 7, extractBit (Memory.read .pix m (33 + b + k)) = extractBit (Memory.read .pix m' (33 + b + k))) :
    extractChar b m = extractChar b m' := bitsValue_congr (by simpa using h)

theorem lookup_embedChar (b : Nat) (ch : BitVec 7) (m : Memory) (a : Nat) :
    Memory.lookup (embedChar b ch m) a =
      if 33 + b ≤ a ∧ a < 33 + b + 7 then some (embedBit (Memory.read .pix m a) (cbit ch (a - (33 + b)))) else Memory.lookup m a := by
  rw [embedChar, lookup_embedBits, boff_eq]

theorem read_embedChar (b : Nat) (ch : BitVec 7) (m : Memory) (a : Nat) :
    Memory.read .pix (embedChar b ch m) a =
      if 33 + b ≤ a ∧ a < 33 + b + 7 then embedBit (Memory.read .pix m a) (cbit ch (a - (33 + b))) else Memory.read .pix m a := by
  unfold Memory.read; rw [lookup_embedChar]; split <;> rfl

/-- The bits of a character, high bit first, accumulate to the character (R133, R135). -/
theorem bitsValue_cbit (ch : BitVec 7) : bitsValue (cbit ch) 7 = ch.toNat := by
  have := bitsValue_testBit ch.toNat 7 7 (le_refl _)
  simp only [Nat.sub_self, pow_zero, Nat.div_one] at this
  rw [Nat.mod_eq_of_lt ch.isLt] at this
  exact (bitsValue_congr fun i _ => by simp [cbit, BitVec.getLsbD]).trans this

/-! ### Range tasks -/

/-- The bit that character `(a - 33) / 7` of the payload puts into PIX byte a (41_bit_addressing.md R114, R133). -/
def payloadBit (pay : Memory) (a : Nat) : Bool := cbit (normByte (Memory.read .pay pay ((a - 33) / 7))) ((a - 33) % 7)

/-- Everything an encode range task does to PIX: the bytes of its span take their payload bits, every other byte is kept
(45_worker_orchestration.md R167). -/
theorem lookup_encRange (pay : Memory) (s n : Nat) (m : Memory) (a : Nat) :
    Memory.lookup (encRange pay s n m) a =
      if 33 + 7 * s ≤ a ∧ a < 33 + 7 * (s + n) then some (embedBit (Memory.read .pix m a) (payloadBit pay a))
      else Memory.lookup m a := by
  induction n with
  | zero => rw [if_neg (by omega)]; rfl
  | succ n ih =>
    rw [encRange, lookup_embedChar, c2b_eq]
    split
    · rename_i h
      have hq : (a - 33) / 7 = s + n := by omega
      have hr : (a - 33) % 7 = a - (33 + 7 * (s + n)) := by omega
      rw [if_pos (by omega), payloadBit, hq, hr]
      simp only [Memory.read, ih]
      rw [if_neg (by omega)]
    · rw [ih]
      exact if_congr (by omega) rfl rfl

theorem read_encRange (pay : Memory) (s n : Nat) (m : Memory) (a : Nat) :
    Memory.read .pix (encRange pay s n m) a =
      if 33 + 7 * s ≤ a ∧ a < 33 + 7 * (s + n) then embedBit (Memory.read .pix m a) (payloadBit pay a)
      else Memory.read .pix m a := by
  unfold Memory.read; rw [lookup_encRange]; split <;> rfl

theorem encRange_wf (pay : Memory) (s n : Nat) {m : Memory} (h : Memory.wf m) : Memory.wf (encRange pay s n m) := by
  induction n with
  | zero => exact h
  | succ n ih => exact embedBits_wf _ _ _ ih

theorem encRange_within (pay : Memory) (s n : Nat) {m : Memory} {size : Nat} (h : Memory.within size m)
    (hb : n = 0 ∨ 33 + 7 * (s + n) ≤ size) : Memory.within size (encRange pay s n m) := by
  induction n with
  | zero => exact h
  | succ n ih => exact embedBits_within _ _ _ (ih (by omega)) (by simp only [boff_eq, c2b_eq, Config.bitsPerChar]; omega)

/-- Everything a decode range task does to PAY: the bytes of its span take their characters, every other byte is kept
(R167). -/
theorem lookup_decRange (pix : Memory) (s n : Nat) (m : Memory) (a : Nat) :
    Memory.lookup (decRange pix s n m) a =
      if s ≤ a ∧ a < s + n then some (BitVec.ofNat 8 (extractChar (7 * a) pix)) else Memory.lookup m a := by
  induction n with
  | zero => rw [if_neg (by omega)]; rfl
  | succ n ih =>
    rw [decRange, lookup_write, c2b_eq]
    split
    · subst_vars; rw [if_pos (by omega)]
    · rw [ih]; exact if_congr (by omega) rfl rfl

theorem read_decRange (pix : Memory) (s n : Nat) (m : Memory) (a : Nat) :
    Memory.read .pay (decRange pix s n m) a =
      if s ≤ a ∧ a < s + n then BitVec.ofNat 8 (extractChar (7 * a) pix) else Memory.read .pay m a := by
  unfold Memory.read; rw [lookup_decRange]; split <;> rfl

theorem decRange_wf (pix : Memory) (s n : Nat) {m : Memory} (h : Memory.wf m) : Memory.wf (decRange pix s n m) := by
  induction n with
  | zero => exact h
  | succ n ih => exact write_wf ih _ _

theorem decRange_within (pix : Memory) (s n : Nat) {m : Memory} {size : Nat} (h : Memory.within size m)
    (hb : n = 0 ∨ s + n ≤ size) : Memory.within size (decRange pix s n m) := by
  induction n with
  | zero => exact h
  | succ n ih => exact write_within (ih (by omega)) (by omega) _

/-! ### Running the ranges of a job -/

/-- A range task changes nothing but the memory of its direction. -/
theorem runRange_eq (d : Dir) (r : Nat × Nat) (s : State) :
    runRange d r s = { s with pix := (runRange d r s).pix, pay := (runRange d r s).pay } := by cases d <;> rfl

/-- The ranges of a job change nothing but PIX and PAY. -/
theorem runRanges_eq (j : Job) (n : Nat) (s : State) :
    runRanges j n s = { s with pix := (runRanges j n s).pix, pay := (runRanges j n s).pay } := by
  induction n with
  | zero => rfl
  | succ n ih => rw [runRanges, runRange_eq]; generalize runRange j.dir (s.jobRange n j) (runRanges j n s) = t; rw [ih]

theorem runRanges_pay_of_enc {j : Job} (h : j.dir = .enc) (n : Nat) (s : State) : (runRanges j n s).pay = s.pay := by
  induction n with
  | zero => rfl
  | succ n ih => rw [runRanges, h, runRange, ih]

theorem runRanges_pix_of_dec {j : Job} (h : j.dir = .dec) (n : Nat) (s : State) : (runRanges j n s).pix = s.pix := by
  induction n with
  | zero => rfl
  | succ n ih => rw [runRanges, h, runRange, ih]

theorem runRanges_pix_succ {j : Job} (h : j.dir = .enc) (n : Nat) (s : State) :
    (runRanges j (n + 1) s).pix = encRange s.pay (s.jobRange n j).1 (s.jobRange n j).2 (runRanges j n s).pix := by
  rw [runRanges, h, runRange, runRanges_pay_of_enc h]

theorem runRanges_pay_succ {j : Job} (h : j.dir = .dec) (n : Nat) (s : State) :
    (runRanges j (n + 1) s).pay = decRange s.pix (s.jobRange n j).1 (s.jobRange n j).2 (runRanges j n s).pay := by
  rw [runRanges, h, runRange, runRanges_pix_of_dec h]

/-- Everything the ranges of an encode job do to PIX. -/
theorem lookup_runRanges_pix {j : Job} (h : j.dir = .enc) (n : Nat) (s : State) (a : Nat) :
    Memory.lookup (runRanges j n s).pix a =
      if ∃ i < n, 33 + 7 * (s.jobRange i j).1 ≤ a ∧ a < 33 + 7 * ((s.jobRange i j).1 + (s.jobRange i j).2)
      then some (embedBit (Memory.read .pix s.pix a) (payloadBit s.pay a)) else Memory.lookup s.pix a := by
  induction n with
  | zero => rw [if_neg (by rintro ⟨i, hi, _⟩; omega)]; rfl
  | succ n ih =>
    rw [runRanges_pix_succ h, lookup_encRange]
    by_cases hn : 33 + 7 * (s.jobRange n j).1 ≤ a ∧ a < 33 + 7 * ((s.jobRange n j).1 + (s.jobRange n j).2)
    · rw [if_pos hn, if_pos ⟨n, by omega, hn⟩]
      simp only [Memory.read, ih]
      split
      · simp
      · rfl
    · rw [if_neg hn, ih]
      refine if_congr ⟨?_, ?_⟩ rfl rfl
      · rintro ⟨i, hi, hh⟩; exact ⟨i, by omega, hh⟩
      · rintro ⟨i, hi, hh⟩
        rcases Nat.lt_succ_iff_lt_or_eq.1 hi with hi | rfl
        · exact ⟨i, hi, hh⟩
        · exact absurd hh hn

/-- Everything the ranges of a decode job do to PAY. -/
theorem lookup_runRanges_pay {j : Job} (h : j.dir = .dec) (n : Nat) (s : State) (a : Nat) :
    Memory.lookup (runRanges j n s).pay a =
      if ∃ i < n, (s.jobRange i j).1 ≤ a ∧ a < (s.jobRange i j).1 + (s.jobRange i j).2
      then some (BitVec.ofNat 8 (extractChar (7 * a) s.pix)) else Memory.lookup s.pay a := by
  induction n with
  | zero => rw [if_neg (by rintro ⟨i, hi, _⟩; omega)]; rfl
  | succ n ih =>
    rw [runRanges_pay_succ h, lookup_decRange]
    by_cases hn : (s.jobRange n j).1 ≤ a ∧ a < (s.jobRange n j).1 + (s.jobRange n j).2
    · rw [if_pos hn, if_pos ⟨n, by omega, hn⟩]
    · rw [if_neg hn, ih]
      refine if_congr ⟨?_, ?_⟩ rfl rfl
      · rintro ⟨i, hi, hh⟩; exact ⟨i, by omega, hh⟩
      · rintro ⟨i, hi, hh⟩
        rcases Nat.lt_succ_iff_lt_or_eq.1 hi with hi | rfl
        · exact ⟨i, hi, hh⟩
        · exact absurd hh hn

/-! ### The partition -/

@[simp] theorem rangeStart_zero (l we : Nat) : rangeStart l we 0 = 0 := by
  unfold rangeStart
  rcases Nat.eq_zero_or_pos we with rfl | h
  · simp
  · exact Nat.div_eq_of_lt (by omega)

theorem rangeStart_self {we : Nat} (h : 1 ≤ we) (l : Nat) : rangeStart l we we = l := by
  unfold rangeStart
  rw [Nat.div_eq_iff (by omega)]
  constructor
  · calc l * (2 * we) = 2 * l * we := by ring
      _ ≤ _ := by omega
  · have : l * (2 * we) = 2 * l * we := by ring
    rw [this]; omega

theorem rangeStart_mono (l we : Nat) {i j : Nat} (h : i ≤ j) : rangeStart l we i ≤ rangeStart l we j := by
  unfold rangeStart
  refine Nat.div_le_div_right ?_
  have := Nat.mul_le_mul_left (2 * l) h
  omega

theorem rangeStart_add_count (l we i : Nat) : rangeStart l we i + rangeCount l we i = rangeStart l we (i + 1) := by
  have := rangeStart_mono l we (show i ≤ i + 1 by omega)
  unfold rangeCount; omega

/-- The ranges below index n cover exactly the characters below start(n) (44_work_partitioner.md R153). -/
theorem range_cover (l we n k : Nat) :
    (∃ i < n, rangeStart l we i ≤ k ∧ k < rangeStart l we i + rangeCount l we i) ↔ k < rangeStart l we n := by
  induction n with
  | zero => simp
  | succ n ih =>
    constructor
    · rintro ⟨i, hi, h1, h2⟩
      rw [rangeStart_add_count] at h2
      exact lt_of_lt_of_le h2 (rangeStart_mono l we (by omega))
    · intro h
      rcases Nat.lt_or_ge k (rangeStart l we n) with hk | hk
      · obtain ⟨i, hi, hh⟩ := ih.2 hk
        exact ⟨i, by omega, hh⟩
      · exact ⟨n, by omega, hk, by rw [rangeStart_add_count]; exact h⟩

/-- All We ranges cover exactly the payload, where there is a worker for a non-empty payload. -/
theorem range_cover_all {l we : Nat} (h : 1 ≤ we ∨ l = 0) (k : Nat) :
    (∃ i < we, rangeStart l we i ≤ k ∧ k < rangeStart l we i + rangeCount l we i) ↔ k < l := by
  rw [range_cover]
  rcases Nat.eq_zero_or_pos we with rfl | hw
  · have : l = 0 := by omega
    simp [this]
  · rw [rangeStart_self hw]

theorem effWorkers_pos {w : Int} (h : 1 ≤ w) (l : Nat) : 1 ≤ effWorkers w l ∨ l = 0 := by
  unfold effWorkers; omega

end Sys2Proof.Machine
end

