-- ==== Sys2Proof/Laws/Jobs.lean ====
section
/-! SUPPORT. How a command ends: the frames of error and successful completion, and what each command with ranges ends in,
once its checks are decided. -/

namespace Sys2Proof.Machine

/-! ### Completion -/

theorem raiseError_fails (c : ErrCode) (s : State) : Fails c s (raiseError c s) :=
  ⟨⟨rfl, rfl, rfl, rfl, rfl, rfl, rfl, rfl, rfl, rfl, rfl, rfl, rfl, rfl, rfl, rfl, rfl, rfl⟩, rfl, rfl, rfl, rfl⟩

/-- An error completion that has written RES0 (DECODE on HDR_LENGTH, 45_worker_orchestration.md R174). -/
theorem raiseError_fails_res0 (c : ErrCode) (s : State) (r : Word) : Fails c s (raiseError c { s with res0 := r }) :=
  ⟨⟨rfl, rfl, rfl, rfl, rfl, rfl, rfl, rfl, rfl, rfl, rfl, rfl, rfl, rfl, rfl, rfl, rfl, rfl⟩, rfl, rfl, rfl, rfl⟩

/-- An error completion with nothing else done changes no result, length or memory (60_exceptions.md R195). -/
theorem raiseError_rejects (c : ErrCode) (s : State) : Rejects c s (.next (raiseError c s)) :=
  ⟨_, rfl, raiseError_fails c s, ⟨rfl, rfl, rfl⟩, ⟨rfl, rfl⟩, ⟨rfl, rfl⟩⟩

/-- A completion after an effect on results, lengths and memories only is a success in the frame of commands. -/
theorem complete_succeeds (s : State) (r0 r1 r2 l w : Word) (pix pay : Memory) :
    Succeeds s (complete { s with res0 := r0, res1 := r1, res2 := r2, len := l, weff := w, pix := pix, pay := pay }) :=
  ⟨⟨rfl, rfl, rfl, rfl, rfl, rfl, rfl, rfl, rfl, rfl, rfl, rfl, rfl, rfl, rfl, rfl, rfl, rfl⟩, rfl, rfl, rfl, rfl⟩

theorem runChecked_rejects {checks : List Check} {code : ErrCode} (h : firstError checks = some code) (body : State → State) (s : State) :
    Rejects code s (runChecked checks body s) := by
  rw [runChecked_fail h]; exact raiseError_rejects code s

/-- A checked command whose checks pass, over an effect on results, lengths and memories: everything it ends in. -/
theorem runChecked_succeeds {checks : List Check} (hc : firstError checks = none) {body : State → State} {s : State}
    (r0 r1 r2 l w : Word) (pix pay : Memory)
    (h : body s = { s with res0 := r0, res1 := r1, res2 := r2, len := l, weff := w, pix := pix, pay := pay }) :
    ∃ t, runChecked checks body s = .next t ∧ Succeeds s t ∧ t.res0 = r0 ∧ t.res1 = r1 ∧ t.res2 = r2 ∧ t.len = l ∧ t.weff = w ∧
      t.pix = pix ∧ t.pay = pay :=
  ⟨_, by rw [runChecked_pass hc, h], complete_succeeds s r0 r1 r2 l w pix pay, rfl, rfl, rfl, rfl, rfl, rfl, rfl⟩

theorem openChecked_rejects {checks : List Check} {code : ErrCode} (h : firstError checks = some code) (body : State → State) (s : State) :
    Rejects code s (.next (finishJob (openChecked checks body s))) := by
  rw [openChecked_fail h]; exact raiseError_rejects code s

/-! ### The ends of the jobs -/

@[simp] theorem finishJob_raiseError (c : ErrCode) (s : State) : finishJob (raiseError c s) = raiseError c s := rfl

/-- An opened job in general: its ranges, then its registers, then completion. -/
theorem finishJob_openJob (j : Job) (l we : Nat) (s : State) :
    finishJob (openJob j l we s) = joinJob j (runRanges j ((openJob j l we s).jobCount j) (openJob j l we s)) := rfl

theorem finish_encrng (s : State) :
    finishJob (openJob .encrng 0 0 s) = complete { s with pix := encRange s.pay s.opA0 s.opA1 s.pix } := rfl

theorem finish_decrng (s : State) :
    finishJob (openJob .decrng 0 0 s) = complete { s with pay := decRange s.pix s.opA0 s.opA1 s.pay } := rfl

theorem finish_encode (l we : Nat) (s : State) :
    finishJob (openJob .encode l we s) =
      complete { s with weff := BitVec.ofNat 32 we, pix := (runRanges .encode we (openJob .encode l we s)).pix } := by
  rw [finishJob_openJob, joinJob, jobResults, runRanges_eq, runRanges_pay_of_enc rfl]
  rfl

theorem finish_decode (l we : Nat) (s : State) :
    finishJob (openJob .decode l we s) =
      complete { s with
        res0 := BitVec.ofNat 32 l
        len := BitVec.ofNat 32 l
        weff := BitVec.ofNat 32 we
        pay := (runRanges .decode we (openJob .decode l we s)).pay } := by
  rw [finishJob_openJob, joinJob, jobResults, runRanges_eq, runRanges_pix_of_dec rfl]
  rfl

/-- The PIX bytes of all ranges of a partition of `l` characters are the payload bytes 33..33+7l-1 (44_work_partitioner.md
R153). -/
theorem byte_cover {l we : Nat} (h : 1 ≤ we ∨ l = 0) (a : Nat) :
    (∃ i < we, 33 + 7 * rangeStart l we i ≤ a ∧ a < 33 + 7 * (rangeStart l we i + rangeCount l we i)) ↔ 33 ≤ a ∧ a < 33 + 7 * l := by
  rw [show (33 ≤ a ∧ a < 33 + 7 * l) ↔ 33 ≤ a ∧ (a - 33) / 7 < l by omega, ← range_cover_all h]
  constructor
  · rintro ⟨i, hi, h1, h2⟩; exact ⟨by omega, i, hi, by omega, by omega⟩
  · rintro ⟨ha, i, hi, h1, h2⟩; exact ⟨i, hi, by omega, by omega⟩

/-- Everything the ranges of an ENCODE do to PIX, whatever the partition (45_worker_orchestration.md R177). -/
theorem lookup_encode_pix {l we : Nat} (h : 1 ≤ we ∨ l = 0) (s : State) (a : Nat) :
    Memory.lookup (runRanges .encode we (openJob .encode l we s)).pix a =
      if 33 ≤ a ∧ a < 33 + 7 * l then some (embedBit (Memory.read .pix s.pix a) (payloadBit s.pay a)) else Memory.lookup s.pix a := by
  rw [lookup_runRanges_pix rfl]
  exact if_congr (byte_cover h a) rfl rfl

theorem read_encode_pix {l we : Nat} (h : 1 ≤ we ∨ l = 0) (s : State) (a : Nat) :
    Memory.read .pix (runRanges .encode we (openJob .encode l we s)).pix a =
      if 33 ≤ a ∧ a < 33 + 7 * l then embedBit (Memory.read .pix s.pix a) (payloadBit s.pay a) else Memory.read .pix s.pix a := by
  unfold Memory.read; rw [lookup_encode_pix h]; split <;> rfl

/-- Everything the ranges of a DECODE do to PAY, whatever the partition (R175, R177). -/
theorem lookup_decode_pay {l we : Nat} (h : 1 ≤ we ∨ l = 0) (s : State) (a : Nat) :
    Memory.lookup (runRanges .decode we (openJob .decode l we s)).pay a =
      if a < l then some (BitVec.ofNat 8 (extractChar (7 * a) s.pix)) else Memory.lookup s.pay a := by
  rw [lookup_runRanges_pay rfl]
  exact if_congr (range_cover_all h a) rfl rfl

theorem read_decode_pay {l we : Nat} (h : 1 ≤ we ∨ l = 0) (s : State) (a : Nat) :
    Memory.read .pay (runRanges .decode we (openJob .decode l we s)).pay a =
      if a < l then BitVec.ofNat 8 (extractChar (7 * a) s.pix) else Memory.read .pay s.pay a := by
  unfold Memory.read; rw [lookup_decode_pay h]; split <;> rfl

theorem runRanges_pix_wf {j : Job} (h : j.dir = .enc) (n : Nat) {s : State} (w : Memory.wf s.pix) : Memory.wf (runRanges j n s).pix := by
  induction n with
  | zero => exact w
  | succ n ih => rw [runRanges_pix_succ h]; exact encRange_wf _ _ _ ih

theorem runRanges_pay_wf {j : Job} (h : j.dir = .dec) (n : Nat) {s : State} (w : Memory.wf s.pay) : Memory.wf (runRanges j n s).pay := by
  induction n with
  | zero => exact w
  | succ n ih => rw [runRanges_pay_succ h]; exact decRange_wf _ _ _ ih

/-! ### The memories of an open job -/

theorem runRanges_pix_within {j : Job} (h : j.dir = .enc) (n : Nat) {s : State} {size : Nat} (w : Memory.within size s.pix)
    (hb : ∀ i < n, (s.jobRange i j).2 = 0 ∨ 33 + 7 * ((s.jobRange i j).1 + (s.jobRange i j).2) ≤ size) :
    Memory.within size (runRanges j n s).pix := by
  induction n with
  | zero => exact w
  | succ n ih => rw [runRanges_pix_succ h]; exact encRange_within _ _ _ (ih fun i hi => hb i (by omega)) (hb n (by omega))

theorem runRanges_pay_within {j : Job} (h : j.dir = .dec) (n : Nat) {s : State} {size : Nat} (w : Memory.within size s.pay)
    (hb : ∀ i < n, (s.jobRange i j).2 = 0 ∨ (s.jobRange i j).1 + (s.jobRange i j).2 ≤ size) :
    Memory.within size (runRanges j n s).pay := by
  induction n with
  | zero => exact w
  | succ n ih => rw [runRanges_pay_succ h]; exact decRange_within _ _ _ (ih fun i hi => hb i (by omega)) (hb n (by omega))

/-- Every range of a checked job lies in PIX and in PAY (60_exceptions.md R193). -/
theorem jobRange_bound {s : State} {j : Job} (hi : 11 ≤ s.opP ∧ 3 * s.opP ≤ s.params.pixBytes) (hc : jobChecked s j) {i : Nat}
    (h : i < s.jobCount j) :
    33 + 7 * ((s.jobRange i j).1 + (s.jobRange i j).2) ≤ s.params.pixBytes ∧
      (s.jobRange i j).1 + (s.jobRange i j).2 ≤ s.params.payBytes := by
  have key : ∀ l we, i < we → l ≤ maxCapacity s.opP → l ≤ s.params.payBytes →
      33 + 7 * (rangeStart l we i + rangeCount l we i) ≤ s.params.pixBytes ∧
        rangeStart l we i + rangeCount l we i ≤ s.params.payBytes := by
    intro l we hw h1 h2
    rw [rangeStart_add_count]
    have := rangeStart_mono l we (show i + 1 ≤ we by omega)
    rw [rangeStart_self (by omega)] at this
    simp only [maxCapacity, Config.firstPixel, if_pos hi.1] at *
    constructor <;> omega
  cases j
  · simp only [jobChecked, State.jobRange, Config.pbase, Config.bitsPerChar] at *; omega
  · simp only [jobChecked, State.jobRange, Config.pbase, Config.bitsPerChar] at *; omega
  · exact key _ _ h hc.1 hc.2.1
  · exact key _ _ h hc.1 hc.2.1

theorem memInv_of_eq {s t : State} (h : MemInv s) (h1 : t.params = s.params) (h2 : t.pix = s.pix) (h3 : t.pay = s.pay) : MemInv t :=
  ⟨by rw [h2]; exact h.1, by rw [h3]; exact h.2, by rw [h1, h2]; exact h.3, by rw [h1, h3]; exact h.4⟩

/-- The ranges of a checked job keep the memories canonical and inside their sizes. -/
theorem runRanges_memInv {s : State} {j : Job} (h : MemInv s) (hi : 11 ≤ s.opP ∧ 3 * s.opP ≤ s.params.pixBytes)
    (hc : jobChecked s j) : MemInv (runRanges j (s.jobCount j) s) := by
  have hp : (runRanges j (s.jobCount j) s).params = s.params := by rw [runRanges_eq]
  cases hd : j.dir with
  | enc =>
    have hq := runRanges_pay_of_enc hd (s.jobCount j) s
    exact ⟨runRanges_pix_wf hd _ h.1, by rw [hq]; exact h.2,
      by rw [hp]; exact runRanges_pix_within hd _ h.3 fun i hi' => .inr (jobRange_bound hi hc hi').1, by rw [hp, hq]; exact h.4⟩
  | dec =>
    have hq := runRanges_pix_of_dec hd (s.jobCount j) s
    exact ⟨by rw [hq]; exact h.1, runRanges_pay_wf hd _ h.2, by rw [hp, hq]; exact h.3,
      by rw [hp]; exact runRanges_pay_within hd _ h.4 fun i hi' => .inr (jobRange_bound hi hc hi').2⟩

/-- An opened job run to its end keeps the memories canonical and inside their sizes. -/
theorem finishJob_memInv {s : State} {j : Job} {l we : Nat} (h : MemInv s) (hi : 11 ≤ s.opP ∧ 3 * s.opP ≤ s.params.pixBytes)
    (hc : jobChecked (openJob j l we s) j) : MemInv (finishJob (openJob j l we s)) := by
  have := runRanges_memInv (s := openJob j l we s) ⟨h.1, h.2, h.3, h.4⟩ hi hc
  rw [finishJob_openJob]
  refine memInv_of_eq this ?_ ?_ ?_ <;> cases j <;> rfl

theorem hdrWrite_memInv {s : State} (h : MemInv s) (hi : 11 ≤ s.opP ∧ 3 * s.opP ≤ s.params.pixBytes) (n : Nat) :
    MemInv { s with pix := hdrWrite n s.pix } := by
  have h1 : Memory.wf (hdrWrite n s.pix) := embedBits_wf _ _ _ h.1
  have h2 : Memory.within s.params.pixBytes (hdrWrite n s.pix) :=
    embedBits_within _ _ _ h.3 (by simp only [Config.hdrBits]; omega)
  generalize hdrWrite n s.pix = m at *
  exact ⟨h1, h.2, h2, h.4⟩

/-! ### The spec's functions and the model's -/

/-- `embed_bit` as arithmetic (43_payload_codec.md R130). -/
theorem embedBit_toNat (v : Byte) (e : Bool) : (embedBit v e).toNat = withLowBit v.toNat e.toNat := by
  revert v e; decide

theorem extractBit_toNat (v : Byte) : (extractBit v).toNat = v.toNat % 2 := by
  simp only [extractBit, BitVec.getLsbD, Nat.toNat_testBit, pow_zero, Nat.div_one]

/-- The accumulation of bits as the sum of weighted bits, the form of `headerOf` and `characterOf`. -/
theorem bitsValue_eq_foldl (f : Nat → Bool) (n : Nat) :
    bitsValue f n = (List.range n).foldl (fun v i => v + 2 ^ (n - 1 - i) * (f i).toNat) 0 := by
  have key : ∀ (g : Nat → Nat) (m : Nat), ∑ i ∈ Finset.range m, g i = (List.range m).foldl (fun v i => v + g i) 0 := by
    intro g m
    induction m with
    | zero => rfl
    | succ m ih => rw [Finset.sum_range_succ, List.range_succ, List.foldl_append, ih]; rfl
  rw [bitsValue_eq_sum]
  simp only [mul_comm _ (2 ^ _)]
  exact key _ n

/-- The model's header read is the sum of 42_header_codec.md R121. -/
theorem hdrRead_eq_headerOf (s : State) : hdrRead s.pix = headerOf s := by
  simp only [hdrRead, headerOf, bitsValue_eq_foldl, extractBit_toNat, State.pixAt, Config.hdrBits, Nat.reduceSub]

/-- A header fits the 32 bits of LEN and RES0. -/
theorem headerOf_lt (s : State) : headerOf s < 2 ^ 32 := by rw [← hdrRead_eq_headerOf]; exact hdrRead_lt _

/-- The model's character extraction is the sum of 43_payload_codec.md R135. -/
theorem extractChar_eq_characterOf (s : State) (b : Nat) : extractChar b s.pix = characterOf s b := by
  simp only [extractChar, characterOf, bitsValue_eq_foldl, extractBit_toNat, State.pixAt, Config.bitsPerChar, boff_eq, Nat.reduceSub]

theorem maxCapacity_eq_capacityOf (p : Nat) : maxCapacity p = capacityOf p := rfl

theorem payloadBit_toNat (s : State) (a : Nat) : (payloadBit s.pay a).toNat = payloadBitOf s a := by
  simp [payloadBit, payloadBitOf, cbit, normByte, BitVec.getLsbD, Nat.toNat_testBit, State.payAt]

end Sys2Proof.Machine
end

