-- ==== Sys2Proof/Laws/Exec.lean ====
section
/-! SUPPORT. The meaning of each command written out over the shared operations, and the one inversion lemma of `exec`: what a
command can end in. -/

namespace Sys2Proof.Machine

theorem exec_addr (s : State) :
    exec .addr s = .next (complete { s with res0 := BitVec.ofNat 32 (address s.opA0).1, res1 := BitVec.ofNat 32 (address s.opA0).2 }) := rfl

theorem exec_c2b (s : State) :
    exec .c2b s = .next (complete { s with res0 := BitVec.ofNat 32 (c2b s.opA0), res1 := BitVec.ofNat 32 (c2b s.opA0 / 2 ^ 32) }) := rfl

theorem exec_wrhdr (s : State) :
    exec .wrhdr s = runChecked (wrhdrChecks s) (fun s => { s with pix := hdrWrite s.opA0 s.pix }) s := rfl

theorem exec_rdhdr (s : State) :
    exec .rdhdr s = runChecked (imageChecks s) (fun s => { s with res0 := BitVec.ofNat 32 (hdrRead s.pix) }) s := rfl

theorem exec_embit (s : State) :
    exec .embit s = runChecked [(decide (s.opA1 ≤ 1), .bitValue)] (fun s => { s with res0 := (embedBit s.opComponent s.opBit).setWidth 32 }) s := rfl

theorem exec_exbit (s : State) :
    exec .exbit s = .next (complete { s with res0 := (BitVec.ofBool (extractBit s.opComponent)).setWidth 32 }) := rfl

theorem exec_emchr (s : State) :
    exec .emchr s = runChecked (imageChecks s ++ [charSpanCheck s, (charAdmitted s.opCm s.opA1, .charRange)])
      (fun s => { s with pix := embedChar s.opA0 (normChar s.seq.snap.a1) s.pix }) s := rfl

theorem exec_exchr (s : State) :
    exec .exchr s = runChecked (imageChecks s ++ [charSpanCheck s]) (fun s => { s with res0 := BitVec.ofNat 32 (extractChar s.opA0 s.pix) }) s := rfl

theorem exec_maxcap (s : State) :
    exec .maxcap s = .next (complete { s with res0 := BitVec.ofNat 32 (maxCapacity s.opP) }) := rfl

theorem exec_part (s : State) :
    exec .part s = runChecked [workerCheck s.opA1Signed, (decide (s.opA2 < effWorkers s.opA1Signed s.opA0), .rangeIndex)]
      (fun t => { t with
        res0 := BitVec.ofNat 32 (rangeStart t.opA0 (effWorkers s.opA1Signed s.opA0) t.opA2)
        res1 := BitVec.ofNat 32 (rangeCount t.opA0 (effWorkers s.opA1Signed s.opA0) t.opA2)
        res2 := BitVec.ofNat 32 (effWorkers s.opA1Signed s.opA0) }) s := rfl

theorem exec_limit (s : State) :
    exec .limit s = .next (complete { s with
      res0 := BitVec.ofNat 32 (getLimits s.opA0).1
      res1 := BitVec.ofNat 32 ((getLimits s.opA0).1 / 2 ^ 32)
      res2 := BitVec.ofNat 32 (getLimits s.opA0).2 }) := rfl

theorem exec_encrng (s : State) :
    exec .encrng s = .next (finishJob (openEncrng s)) := rfl

theorem exec_decrng (s : State) :
    exec .decrng s = .next (finishJob (openDecrng s)) := rfl

theorem exec_encode (s : State) :
    exec .encode s = .next (finishJob (openEncode s)) := rfl

theorem exec_decode (s : State) :
    exec .decode s = .next (finishJob (openDecode s)) := rfl

/-- DECODE once its first checks pass, for the length as a number `l`. A proof is fast where `l` is a variable here and not
the sum `headerOf s`, which a unifier would try to evaluate. -/
theorem exec_decode_of_header {s : State} {l : Nat} (hc : firstError (decodeChecks s) = none) (hl : headerOf s = l) :
    exec .decode s = .next (finishJob (openDecodeLength l s)) := by
  rw [exec_decode, openDecode, openChecked_pass hc, hdrRead_eq_headerOf, hl]

/-- DECODE of a header that fails a length check (45_worker_orchestration.md R174). -/
theorem exec_decode_bad_length {s : State} {l : Nat} {code : ErrCode} (hc : firstError (decodeChecks s) = none)
    (hl : headerOf s = l) (he : firstError (lengthChecks s l) = some code) :
    exec .decode s = .next (raiseError code { s with res0 := BitVec.ofNat 32 l }) := by
  rw [exec_decode_of_header hc hl, openDecodeLength, he, finishJob_raiseError]

/-- DECODE of a header that passes both length checks (R174). -/
theorem exec_decode_good_length {s : State} {l : Nat} (hc : firstError (decodeChecks s) = none) (hl : headerOf s = l)
    (he : firstError (lengthChecks s l) = none) :
    exec .decode s = .next (complete { s with
      res0 := BitVec.ofNat 32 l
      len := BitVec.ofNat 32 l
      weff := BitVec.ofNat 32 (effWorkers s.opWin l)
      pay := (runRanges .decode (effWorkers s.opWin l) (openJob .decode l (effWorkers s.opWin l) s)).pay }) := by
  rw [exec_decode_of_header hc hl, openDecodeLength, he, finish_decode]

/-- What a checked command over an effect on results and PIX can end in. -/
theorem runChecked_ends {checks : List Check} {body : State → State} {s : State} {r0 r1 r2 : Word} {pix : Memory} {i : Instr}
    (hi : pix ≠ s.pix → i = .wrhdr ∨ i = .emchr ∨ i = .encrng ∨ i = .encode)
    (h : body s = { s with res0 := r0, res1 := r1, res2 := r2, pix := pix }) :
    (∃ code, runChecked checks body s = .next (raiseError code s)) ∨
      (i = .decode ∧ runChecked checks body s = .next (raiseError .hdrLength { s with res0 := BitVec.ofNat 32 (headerOf s) })) ∨
      ∃ r0 r1 r2 l w pix pay, runChecked checks body s =
        .next (complete { s with res0 := r0, res1 := r1, res2 := r2, len := l, weff := w, pix := pix, pay := pay }) ∧
        (l ≠ s.len → i = .decode) ∧ (w ≠ s.weff → i = .encode ∨ i = .decode) ∧ (pay ≠ s.pay → i = .decrng ∨ i = .decode) ∧
        (pix ≠ s.pix → i = .wrhdr ∨ i = .emchr ∨ i = .encrng ∨ i = .encode) := by
  cases hc : firstError checks with
  | some code => exact .inl ⟨code, runChecked_fail hc body s⟩
  | none =>
    exact .inr (.inr ⟨r0, r1, r2, s.len, s.weff, pix, s.pay, by rw [runChecked_pass hc, h], by simp, by simp, by simp, hi⟩)

/-- Everything a command can end in: an error completion with nothing else done, or DECODE's, which has written RES0, or a
successful completion after an effect on results, lengths and memories, each of them written by the commands whose rows name
it only (30_encoding.md R93). -/
theorem exec_cases (i : Instr) (s : State) :
    (∃ code, exec i s = .next (raiseError code s)) ∨
      (i = .decode ∧ exec i s = .next (raiseError .hdrLength { s with res0 := BitVec.ofNat 32 (headerOf s) })) ∨
      ∃ r0 r1 r2 l w pix pay, exec i s =
        .next (complete { s with res0 := r0, res1 := r1, res2 := r2, len := l, weff := w, pix := pix, pay := pay }) ∧
        (l ≠ s.len → i = .decode) ∧ (w ≠ s.weff → i = .encode ∨ i = .decode) ∧ (pay ≠ s.pay → i = .decrng ∨ i = .decode) ∧
        (pix ≠ s.pix → i = .wrhdr ∨ i = .emchr ∨ i = .encrng ∨ i = .encode) := by
  cases i
  case addr => exact .inr (.inr ⟨_, _, s.res2, s.len, s.weff, s.pix, s.pay, exec_addr s, by simp⟩)
  case c2b => exact .inr (.inr ⟨_, _, s.res2, s.len, s.weff, s.pix, s.pay, exec_c2b s, by simp⟩)
  case exbit => exact .inr (.inr ⟨_, s.res1, s.res2, s.len, s.weff, s.pix, s.pay, exec_exbit s, by simp⟩)
  case maxcap => exact .inr (.inr ⟨_, s.res1, s.res2, s.len, s.weff, s.pix, s.pay, exec_maxcap s, by simp⟩)
  case limit => exact .inr (.inr ⟨_, _, _, s.len, s.weff, s.pix, s.pay, exec_limit s, by simp⟩)
  case wrhdr => rw [exec_wrhdr]; exact runChecked_ends (fun _ => by simp) rfl
  case rdhdr => rw [exec_rdhdr]; exact runChecked_ends (pix := s.pix) (by simp) rfl
  case embit => rw [exec_embit]; exact runChecked_ends (pix := s.pix) (by simp) rfl
  case emchr => rw [exec_emchr]; exact runChecked_ends (fun _ => by simp) rfl
  case exchr => rw [exec_exchr]; exact runChecked_ends (pix := s.pix) (by simp) rfl
  case part => rw [exec_part]; exact runChecked_ends (pix := s.pix) (by simp) rfl
  case encrng =>
    rw [exec_encrng, openEncrng]
    cases hc : firstError (imageChecks s ++ rangeChecks s ++ [charsCheck s s.opA0 s.opA1]) with
    | some code => rw [openChecked_fail hc]; exact .inl ⟨_, rfl⟩
    | none =>
      rw [openChecked_pass hc]
      exact .inr (.inr ⟨s.res0, s.res1, s.res2, s.len, s.weff, _, s.pay, by rw [finish_encrng], by simp⟩)
  case decrng =>
    rw [exec_decrng, openDecrng]
    cases hc : firstError (imageChecks s ++ rangeChecks s) with
    | some code => rw [openChecked_fail hc]; exact .inl ⟨_, rfl⟩
    | none =>
      rw [openChecked_pass hc]
      exact .inr (.inr ⟨s.res0, s.res1, s.res2, s.len, s.weff, s.pix, _, by rw [finish_decrng], by simp⟩)
  case encode =>
    rw [exec_encode, openEncode]
    cases hc : firstError (encodeChecks s) with
    | some code => rw [openChecked_fail hc]; exact .inl ⟨_, rfl⟩
    | none =>
      rw [openChecked_pass hc]
      exact .inr (.inr ⟨s.res0, s.res1, s.res2, s.len, _, _, s.pay, by rw [finish_encode], by simp⟩)
  case decode =>
    cases hc : firstError (decodeChecks s) with
    | some code => rw [exec_decode, openDecode, openChecked_fail hc]; exact .inl ⟨_, rfl⟩
    | none =>
      cases hl : firstError (lengthChecks s (headerOf s)) with
      | some code =>
        obtain ⟨c, hm, rfl⟩ := mem_of_firstError hl
        rw [exec_decode_bad_length hc rfl hl]
        refine .inr (.inl ⟨rfl, ?_⟩)
        simp only [lengthChecks, List.mem_cons, List.not_mem_nil, or_false] at hm
        rcases hm with rfl | rfl <;> simp only
      | none =>
        rw [exec_decode_good_length hc rfl hl]
        exact .inr (.inr ⟨_, s.res1, s.res2, _, _, s.pix, _, rfl, by simp⟩)

end Sys2Proof.Machine
end

