-- ==== Sys2Proof/Laws/PerInstr.lean ====
section
/-! SUPPORT. Statements made per instruction, as syntax. `Codec`: the word of each command is well formed (its RSVD is 0 and its
OPC is listed, spec/30_encoding.md R90, R94) and decodes to the command. -/

namespace Sys2Proof.Laws.Codec

/-- The command's word is well formed and decodes to the command. -/
def Statement (i : Instr) : Prop := (fieldsOf (encode i)).wellFormed = true ∧ decode (encode i) = some i

theorem addr : Statement .addr := by unfold Statement; decide
theorem c2b : Statement .c2b := by unfold Statement; decide
theorem wrhdr : Statement .wrhdr := by unfold Statement; decide
theorem rdhdr : Statement .rdhdr := by unfold Statement; decide
theorem embit : Statement .embit := by unfold Statement; decide
theorem exbit : Statement .exbit := by unfold Statement; decide
theorem emchr : Statement .emchr := by unfold Statement; decide
theorem exchr : Statement .exchr := by unfold Statement; decide
theorem maxcap : Statement .maxcap := by unfold Statement; decide
theorem part : Statement .part := by unfold Statement; decide
theorem limit : Statement .limit := by unfold Statement; decide
theorem encrng : Statement .encrng := by unfold Statement; decide
theorem decrng : Statement .decrng := by unfold Statement; decide
theorem encode : Statement .encode := by unfold Statement; decide
theorem decode : Statement .decode := by unfold Statement; decide

end Sys2Proof.Laws.Codec
end

