-- ==== Sys2Proof/Laws/Step.lean ====
section
/-! SUPPORT. What a step does, once for each kind of turn, and the bits of a register word as numbers. -/

namespace Sys2Proof.Machine

/-- A step takes the next turn of the schedule. -/
theorem step_of_sched {s : State} {t : Turn} {ts : List Turn} (h : s.sched = t :: ts) : step s = runTurn t { s with sched := ts } := by
  unfold step; rw [h]

/-- A step of an empty schedule takes the default turn. -/
theorem step_of_empty {s : State} (h : s.sched = []) : step s = runTurn (defaultTurn s) s := by
  unfold step; rw [h]

/-- Every step is a turn on the state, with that turn taken from the schedule if it came from there. -/
theorem step_cases (s : State) :
    (∃ t ts, s.sched = t :: ts ∧ step s = runTurn t { s with sched := ts }) ∨
      (s.sched = [] ∧ step s = runTurn (defaultTurn s) s) := by
  cases h : s.sched with
  | nil => exact .inr ⟨rfl, step_of_empty h⟩
  | cons t ts => exact .inl ⟨t, ts, rfl, step_of_sched h⟩

/-- The host's access is performed on the state with its turn and operation taken. -/
theorem step_of_hostNext {s : State} {a : Access} {rest : List HostOp} {ts : List Turn} (h : hostNext s a rest ts) :
    step s = hostAccess a { s with sched := ts, host := rest } := by
  obtain ⟨h1, h2, h3⟩ := h
  rw [step_of_sched h1]
  simp [runTurn, hostTurn, h2, h3, hostPerform]

/-- A write of an admitted register. -/
theorem hostAccess_writeReg {off : Nat} {r : Reg} (h : regAt off = some r) (v : Word) (s : State) :
    hostAccess (.writeReg .word off v) s = .next (answer 0 (regWrite r v s)) := by
  simp [hostAccess, regAdmitted, h]

/-- A read of an admitted register. -/
theorem hostAccess_readReg {off : Nat} {r : Reg} (h : regAt off = some r) (s : State) :
    hostAccess (.readReg .word off) s = .next (answer (regRead r s) s) := by
  simp [hostAccess, regAdmitted, h]

/-- Each slot is found at its offset. -/
theorem regAt_offset (r : Reg) : regAt r.offset = some r := by cases r <;> rfl

/-- An offset that is not a multiple of 4, or lies above 0x3C, reaches no slot (20_memory.md R66). -/
theorem regAt_eq_none {off : Nat} (h : off % 4 ≠ 0 ∨ 0x3C < off) : regAt off = none := by
  unfold regAt
  split
  · have hl : regSlots.length = 16 := rfl
    exact List.getElem?_eq_none (by omega)
  · rfl

/-- A bit of a register word as arithmetic. -/
theorem getLsbD_eq_decide {n : Nat} (v : BitVec n) (k : Nat) : v.getLsbD k = decide (v.toNat / 2 ^ k % 2 = 1) := by
  rw [BitVec.getLsbD, Nat.testBit_eq_decide_div_mod_eq]

/-- The write-one-to-clear rule of STATUS, its bits as arithmetic (10_state.md R30). -/
theorem acknowledge_eq (st : Status) (v : Word) :
    st.acknowledge v =
      { busy := st.busy
        done := if v.toNat / 2 % 2 = 1 then false else st.done
        err := if v.toNat / 4 % 2 = 1 then false else st.err
        ovr := if v.toNat / 8 % 2 = 1 then false else st.ovr
        errcode := if v.toNat / 4 % 2 = 1 then .noError else st.errcode } := by
  simp only [Status.acknowledge, getLsbD_eq_decide, Nat.reducePow, decide_eq_true_eq, Status.mk.injEq, true_and, and_true]
  refine ⟨?_, ?_, ?_⟩ <;> split <;> simp_all

end Sys2Proof.Machine
end

