-- ==== Sys2Proof/Laws/Turns.lean ====
section
/-! SUPPORT. What each turn can do, once: the ends of a command with the codes it can raise, the opening of a command with
ranges, the host's turn; and that every command keeps the memories canonical and inside their sizes. -/

namespace Sys2Proof.Machine

/-- Every step is one turn, on the state with its schedule advanced. -/
theorem step_turn (s : State) : ∃ t ts, step s = runTurn t { s with sched := ts } := by
  rcases step_cases s with ⟨t, ts, -, e⟩ | ⟨e1, e⟩
  · exact ⟨t, ts, e⟩
  · refine ⟨defaultTurn s, [], ?_⟩
    rw [e]
    congr 1
    cases s; simp only at e1; subst e1; rfl

/-! ### Opening a command with ranges -/

/-- The commands with ranges, opened. -/
def opened (s : State) : Job → State
  | .encrng => openEncrng s
  | .decrng => openDecrng s
  | .encode => openEncode s
  | .decode => openDecode s

theorem openChecked_cases (l : List Check) (b : State → State) (s : State) :
    (∃ c ∈ l, openChecked l b s = raiseError c.2 s) ∨ (firstError l = none ∧ openChecked l b s = b s) := by
  cases h : firstError l with
  | some c => obtain ⟨c, hm, rfl⟩ := mem_of_firstError h; exact .inl ⟨c, hm, openChecked_fail h _ _⟩
  | none => exact .inr ⟨rfl, openChecked_pass h _ _⟩

/-- What opening a command with ranges ends in: an error completion (DECODE may have written RES0), or the open job with what
its checks established, the header written by ENCODE. -/
theorem opened_cases (s : State) (j : Job) :
    (∃ code r0, code ≠ .noError ∧ opened s j = raiseError code { s with res0 := r0 }) ∨
      ∃ l we pix, opened s j = openJob j l we { s with pix := pix } ∧ (11 ≤ s.opP ∧ 3 * s.opP ≤ s.params.pixBytes) ∧
        jobChecked (openJob j l we s) j ∧ (pix = s.pix ∨ pix = hdrWrite s.opLin s.pix) := by
  cases j
  case encrng =>
    rcases openChecked_cases (imageChecks s ++ rangeChecks s ++ [charsCheck s s.opA0 s.opA1]) (openJob .encrng 0 0) s
      with ⟨c, hm, e⟩ | ⟨hc, e⟩ <;> rw [opened, openEncrng, e]
    · have : ∀ c ∈ imageChecks s ++ rangeChecks s ++ [charsCheck s s.opA0 s.opA1], c.2 ≠ .noError := by
        simp [imageChecks, rangeChecks, charsCheck]
      exact .inl ⟨c.2, s.res0, this c hm, rfl⟩
    · obtain ⟨⟨h1, h2, h3⟩, -⟩ := (encrngChecks_pass s).1 hc
      exact .inr ⟨_, _, s.pix, rfl, h1, ⟨h2, h3⟩, .inl rfl⟩
  case decrng =>
    rcases openChecked_cases (imageChecks s ++ rangeChecks s) (openJob .decrng 0 0) s with ⟨c, hm, e⟩ | ⟨hc, e⟩ <;>
      rw [opened, openDecrng, e]
    · have : ∀ c ∈ imageChecks s ++ rangeChecks s, c.2 ≠ .noError := by simp [imageChecks, rangeChecks]
      exact .inl ⟨c.2, s.res0, this c hm, rfl⟩
    · obtain ⟨h1, h2, h3⟩ := (decrngChecks_pass s).1 hc
      exact .inr ⟨_, _, s.pix, rfl, h1, ⟨h2, h3⟩, .inl rfl⟩
  case encode =>
    rcases openChecked_cases (encodeChecks s)
      (fun s => openJob .encode s.opLin (effWorkers s.opWin s.opLin) { s with pix := hdrWrite s.opLin s.pix }) s
      with ⟨c, hm, e⟩ | ⟨hc, e⟩ <;> rw [opened, openEncode, e]
    · have : ∀ c ∈ encodeChecks s, c.2 ≠ .noError := by simp [encodeChecks, workerCheck, imageChecks, charsCheck]
      exact .inl ⟨c.2, s.res0, this c hm, rfl⟩
    · obtain ⟨⟨h1, h2⟩, h3, h4, -⟩ := (encodeChecks_pass s).1 hc
      exact .inr ⟨_, _, _, rfl, h2, ⟨h3, h4, rfl, h1⟩, .inr rfl⟩
  case decode =>
    rcases openChecked_cases (decodeChecks s) (fun s => openDecodeLength (hdrRead s.pix) s) s with ⟨c, hm, e⟩ | ⟨hc, e⟩ <;>
      rw [opened, openDecode, e]
    · have : ∀ c ∈ decodeChecks s, c.2 ≠ .noError := by simp [decodeChecks, workerCheck, imageChecks]
      exact .inl ⟨c.2, s.res0, this c hm, rfl⟩
    · obtain ⟨h1, h2⟩ := (decodeChecks_pass s).1 hc
      generalize hdrRead s.pix = l
      simp only [openDecodeLength]
      cases hl : firstError (lengthChecks s l) with
      | some code =>
        obtain ⟨c, hm, rfl⟩ := mem_of_firstError hl
        have : ∀ c ∈ lengthChecks s l, c.2 ≠ .noError := by simp [lengthChecks]
        exact .inl ⟨c.2, BitVec.ofNat 32 l, this c hm, rfl⟩
      | none =>
        obtain ⟨h3, h4⟩ := (lengthChecks_pass s l).1 hl
        exact .inr ⟨_, _, s.pix, rfl, h2, ⟨h3, h4, rfl, h1⟩, .inl rfl⟩

/-- A command either has ranges, and is its opening run to the end, or it ends as `exec` says at once. -/
theorem startCommand_cases (s : State) :
    (∃ j, startCommand s = .next (opened s j) ∧ runCommand s = .next (finishJob (opened s j))) ∨ startCommand s = runCommand s := by
  unfold startCommand runCommand
  cases decode s.seq.cmd with
  | none => exact .inr rfl
  | some i =>
    cases i
    case encrng => exact .inl ⟨.encrng, rfl, rfl⟩
    case decrng => exact .inl ⟨.decrng, rfl, rfl⟩
    case encode => exact .inl ⟨.encode, rfl, rfl⟩
    case decode => exact .inl ⟨.decode, rfl, rfl⟩
    all_goals exact .inr rfl

/-! ### The turns of an open dispatch -/

/-- Everything a hand-out can do: nothing, or give range `nxt` of the open job to an idle engine (45_worker_orchestration.md
R170). -/
theorem handOut_cases (e : Nat) (s : State) :
    handOut e s = s ∨ ∃ j g, s.seq.job = some j ∧ s.disp.nxt < s.jobCount j ∧ s.engines[e]? = some g ∧ g.busy = false ∧
      handOut e s = { s with
        engines := s.engines.set e (engineFor j s.disp.nxt s)
        disp := { nxt := s.disp.nxt + 1, live := s.disp.live ++ [s.disp.nxt] } } := by
  unfold handOut
  split
  · rename_i j hj
    split
    · rename_i h
      obtain ⟨h1, h2⟩ := h
      unfold State.engineIdle at h2
      split at h2
      · rename_i g hg
        exact .inr ⟨j, g, hj, h1, hg, by simpa using h2, rfl⟩
      · cases h2
    · exact .inl rfl
  · exact .inl rfl

/-- Everything an engine's turn can do: nothing, one bit of its task, or the end of its range (R171, 10_state.md R40). -/
theorem engineStep_cases (e : Nat) (s : State) :
    engineStep e s = s ∨ ∃ g, s.engines[e]? = some g ∧ g.busy = true ∧
      (g.j < g.n ∧ g.dir = .enc ∧ engineStep e s = encodeBit e g s ∨ g.j < g.n ∧ g.dir = .dec ∧ engineStep e s = decodeBit e g s ∨
        g.n ≤ g.j ∧ engineStep e s = finishRange e g s) := by
  unfold engineStep
  split
  · rename_i g hg
    split
    · rename_i hb
      refine .inr ⟨g, hg, hb, ?_⟩
      split
      · rename_i hlt
        cases hd : g.dir
        · exact .inl ⟨hlt, rfl, rfl⟩
        · exact .inr (.inl ⟨hlt, rfl, rfl⟩)
      · exact .inr (.inr ⟨by omega, rfl⟩)
    · exact .inl rfl
  · exact .inl rfl

/-- Everything a join can do: nothing, or the completion of the open job, all of whose ranges are handed out and none of which
is live (R172). -/
theorem joinStep_cases (s : State) :
    joinStep s = s ∨ ∃ j, s.seq.job = some j ∧ s.jobCount j ≤ s.disp.nxt ∧ s.disp.live = [] ∧ joinStep s = joinJob j s := by
  unfold joinStep
  split
  · rename_i j hj
    split
    · rename_i h; exact .inr ⟨j, hj, h.1, h.2, rfl⟩
    · exact .inl rfl
  · exact .inl rfl

/-- A turn of an engine changes the memories, the engines and the live set only. -/
theorem engineStep_keeps (e : Nat) (s : State) :
    ∃ pix pay es live, engineStep e s = { s with pix := pix, pay := pay, engines := es, disp := { s.disp with live := live } } := by
  rcases engineStep_cases e s with h | ⟨g, -, -, ⟨-, -, h⟩ | ⟨-, -, h⟩ | ⟨-, h⟩⟩ <;> rw [h]
  · exact ⟨_, _, _, _, rfl⟩
  · exact ⟨_, _, _, _, rfl⟩
  · unfold decodeBit; split <;> exact ⟨_, _, _, _, rfl⟩
  · exact ⟨_, _, _, _, rfl⟩

/-! ### The host's turn -/

/-- Everything an access of the host can do to a state it does not stop in. -/
theorem hostAccess_next {a : Access} {s t : State} (h : hostAccess a s = .next t) :
    (∃ r, t = respond r s) ∨ (∃ rsp r v, t = respond rsp (regWrite r v s)) ∨
      ∃ rsp sp off v, s.status.busy = false ∧ off < s.spaceBytes sp ∧ t = respond rsp (memWrite sp off v s) := by
  cases a with
  | readReg w off => simp only [hostAccess] at h; split at h <;> cases h <;> exact .inl ⟨_, rfl⟩
  | writeReg w off v =>
    simp only [hostAccess] at h
    split at h <;> cases h
    · exact .inr (.inl ⟨_, _, _, rfl⟩)
    · exact .inl ⟨_, rfl⟩
  | readMem sp w off =>
    simp only [hostAccess, memGuard] at h
    split at h
    · split at h <;> cases h; exact .inl ⟨_, rfl⟩
    · cases h; exact .inl ⟨_, rfl⟩
  | writeMem sp w off v =>
    simp only [hostAccess, memGuard] at h
    split at h
    · rename_i hm
      split at h <;> cases h
      simp only [memAdmitted, Bool.and_eq_true, decide_eq_true_eq] at hm
      exact .inr (.inr ⟨_, sp, off, _, by simp_all, hm.2, rfl⟩)
    · cases h; exact .inl ⟨_, rfl⟩

/-- Everything the host's turn can do: at most one register write or one byte write, beside its own queue and answers. -/
theorem hostTurn_next {s t : State} (h : hostTurn s = .next t) :
    ∃ ops rs, t = { s with host := ops, seen := rs } ∨
      (∃ r v, s.rst = false ∧ t = regWrite r v { s with host := ops, seen := rs }) ∨
      ∃ sp off v, s.status.busy = false ∧ off < s.spaceBytes sp ∧ t = memWrite sp off v { s with host := ops, seen := rs } := by
  unfold hostTurn at h
  split at h
  · cases h; exact ⟨s.host, s.seen, .inl rfl⟩
  · rename_i hr
    split at h
    · cases h; exact ⟨s.host, s.seen, .inl rfl⟩
    · rename_i op rest _
      cases op with
      | access a =>
        rcases hostAccess_next h with ⟨r, rfl⟩ | ⟨rsp, r, v, rfl⟩ | ⟨rsp, sp, off, v, h1, h2, rfl⟩
        · exact ⟨rest, r :: s.seen, .inl rfl⟩
        · refine ⟨rest, rsp :: s.seen, .inr (.inl ⟨r, v, by simpa using hr, ?_⟩)⟩
          cases r
          case cmd => simp only [regWrite, respond, cmdWrite]; split <;> rfl
          all_goals rfl
        · exact ⟨rest, rsp :: s.seen, .inr (.inr ⟨sp, off, v, h1, by cases sp <;> exact h2, by cases sp <;> rfl⟩)⟩
      | waitIdle => simp only [hostPerform] at h; cases h; exact ⟨_, _, .inl rfl⟩
      | waitIrq => simp only [hostPerform] at h; cases h; exact ⟨_, _, .inl rfl⟩

/-! ### What the invariant does not read -/

/-- The dispatcher's invariant reads the parameters, the sequencer, the dispatcher and the engines only. -/
theorem dispatchInv_of_eq {s t : State} (h : DispatchInv s) (h1 : t.params = s.params) (h2 : t.seq = s.seq) (h3 : t.disp = s.disp)
    (h4 : t.engines = s.engines) : DispatchInv t := by
  have hr : ∀ j i, t.jobRange i j = s.jobRange i j := by intro j i; cases j <;> simp [State.jobRange, State.opA0, State.opA1, h2]
  have hn : ∀ j, t.jobCount j = s.jobCount j := by intro j; cases j <;> simp [State.jobCount, h2]
  refine ⟨by rw [h4, h1]; exact h.1, by rw [h4]; exact h.2, by rw [h2, h3, h4]; exact h.3, fun j hj => ?_⟩
  rw [h2] at hj
  obtain ⟨a1, a2, a3, a4, a5, a6, a7⟩ := h.4 j hj
  refine ⟨by rw [h2]; exact a1, by simp only [State.opP, h2, h1]; exact a2, ?_, by rw [h3, hn]; exact a4, by rw [h4, h3]; exact a5,
    by rw [h3]; exact a6, ?_⟩
  · cases j <;> simp only [jobChecked, State.opP, State.opA0, State.opA1, State.opWin, h2, h1] at * <;> exact a3
  · rw [h4]
    intro g hg hb
    obtain ⟨b1, b2, b3, b4, b5, b6, b7, b8⟩ := a7 g hg hb
    exact ⟨b1, by rw [hr]; exact b2, by rw [h3]; exact b3, b4, b5, b6, b7, b8⟩

/-- The invariant does not read the schedule. -/
theorem inv_sched {s : State} (h : Inv s) (ts : List Turn) : Inv { s with sched := ts } :=
  ⟨h.1, ⟨h.2.1, h.2.2, h.2.3, h.2.4⟩, ⟨h.3.1, h.3.2, h.3.3, h.3.4⟩, dispatchInv_of_eq h.4 rfl rfl rfl rfl, ⟨h.5.1⟩⟩

/-! ### Memories -/

/-- What opening a command with ranges does to the memories, and what running it to its end does. -/
theorem opened_memInv {s : State} (h : MemInv s) (j : Job) : MemInv (opened s j) ∧ MemInv (finishJob (opened s j)) := by
  rcases opened_cases s j with ⟨code, r0, -, e⟩ | ⟨l, we, pix, e, hi, hc, hp⟩ <;> rw [e]
  · exact ⟨⟨h.1, h.2, h.3, h.4⟩, by rw [finishJob_raiseError]; exact ⟨h.1, h.2, h.3, h.4⟩⟩
  · have hm : MemInv { s with pix := pix } := by
      rcases hp with hp | hp
      · rw [hp]; exact h
      · have := hdrWrite_memInv h hi s.opLin
        rw [← hp] at this; exact this
    clear hp e
    have hc' : jobChecked (openJob j l we { s with pix := pix }) j := by cases j <;> exact hc
    exact ⟨⟨hm.1, hm.2, hm.3, hm.4⟩, finishJob_memInv hm hi hc'⟩

/-- Every command keeps the memories canonical and inside their sizes (20_memory.md R60, 60_exceptions.md R193). -/
theorem exec_memInv {i : Instr} {s t : State} (h : MemInv s) (e : exec i s = .next t) : MemInv t := by
  have same : ∀ {t : State}, t.params = s.params → t.pix = s.pix → t.pay = s.pay → MemInv t := fun h1 h2 h3 => memInv_of_eq h h1 h2 h3
  have jobs : ∀ j : Job, exec i s = .next (finishJob (opened s j)) → MemInv t := by
    intro j hj; rw [hj] at e; cases e; exact (opened_memInv h j).2
  cases i
  case encrng => exact jobs .encrng rfl
  case decrng => exact jobs .decrng rfl
  case encode => exact jobs .encode rfl
  case decode => exact jobs .decode rfl
  case wrhdr =>
    rw [exec_wrhdr] at e
    rcases runChecked_cases e with ⟨code, -, e⟩ | ⟨hc, e⟩ <;> cases e
    · exact same rfl rfl rfl
    · have hm := hdrWrite_memInv h ((wrhdrChecks_pass s).1 hc) s.opA0
      generalize hdrWrite s.opA0 s.pix = m at *
      exact ⟨hm.1, hm.2, hm.3, hm.4⟩
  case emchr =>
    rw [exec_emchr] at e
    rcases runChecked_cases e with ⟨code, -, e⟩ | ⟨hc, e⟩ <;> cases e
    · exact same rfl rfl rfl
    · obtain ⟨h1, h2, -⟩ := (emchrChecks_pass s).1 hc
      have w1 : Memory.wf (embedChar s.opA0 (normChar s.seq.snap.a1) s.pix) := embedBits_wf _ _ _ h.1
      have w2 : Memory.within s.params.pixBytes (embedChar s.opA0 (normChar s.seq.snap.a1) s.pix) :=
        embedBits_within _ _ _ h.3 (by simp only [boff_eq, Config.bitsPerChar]; omega)
      generalize embedChar s.opA0 (normChar s.seq.snap.a1) s.pix = m at *
      exact ⟨w1, h.2, w2, h.4⟩
  case addr => rw [exec_addr] at e; cases e; exact same rfl rfl rfl
  case c2b => rw [exec_c2b] at e; cases e; exact same rfl rfl rfl
  case exbit => rw [exec_exbit] at e; cases e; exact same rfl rfl rfl
  case maxcap => rw [exec_maxcap] at e; cases e; exact same rfl rfl rfl
  case limit => rw [exec_limit] at e; cases e; exact same rfl rfl rfl
  case rdhdr =>
    rw [exec_rdhdr] at e
    generalize hdrRead s.pix = n at e
    rcases runChecked_cases e with ⟨code, -, e⟩ | ⟨-, e⟩ <;> cases e <;> exact same rfl rfl rfl
  case embit =>
    rw [exec_embit] at e
    rcases runChecked_cases e with ⟨code, -, e⟩ | ⟨-, e⟩ <;> cases e <;> exact same rfl rfl rfl
  case exchr =>
    rw [exec_exchr] at e
    rcases runChecked_cases e with ⟨code, -, e⟩ | ⟨-, e⟩ <;> cases e <;> exact same rfl rfl rfl
  case part =>
    rw [exec_part] at e
    rcases runChecked_cases e with ⟨code, -, e⟩ | ⟨-, e⟩ <;> cases e <;> exact same rfl rfl rfl

/-- The accepted command, run, keeps the memories canonical and inside their sizes. -/
theorem runCommand_memInv {s t : State} (h : MemInv s) (e : runCommand s = .next t) : MemInv t := by
  unfold runCommand at e
  split at e
  · exact exec_memInv h e
  · cases e; exact ⟨h.1, h.2, h.3, h.4⟩

/-! ### The memory an abandoned command leaves -/

/-- The canonical form after an abandoned command (70_reset_and_hazards.md R221): the bytes listed are among those listed at
its end. -/
theorem abandonedMemory_mem {n : Nat} {sp : Space} {cur fin : Memory} {c : Host.Cell} (h : c ∈ abandonedMemory n sp cur fin) :
    ∃ d ∈ fin, d.1 = c.1 := by
  simp only [abandonedMemory, List.mem_filterMap] at h
  obtain ⟨d, hd, hc⟩ := h
  refine ⟨d, hd, ?_⟩
  split at hc
  · cases hc; rfl
  · split at hc
    · cases hc; rfl
    · cases hl : Memory.lookup cur d.1 with
      | none => rw [hl] at hc; cases hc
      | some v => rw [hl] at hc; cases hc; rfl

theorem abandonedMemory_wf (n : Nat) (sp : Space) (cur : Memory) {fin : Memory} (h : Memory.wf fin) :
    Memory.wf (abandonedMemory n sp cur fin) := by
  induction fin with
  | nil => exact List.Pairwise.nil
  | cons d fin ih =>
    obtain ⟨h1, h2⟩ := List.pairwise_cons.1 h
    have ih := ih h2
    have hr : ∀ c : Host.Cell, c.1 = d.1 → Memory.wf (c :: abandonedMemory n sp cur fin) := by
      intro c hc
      refine List.pairwise_cons.2 ⟨fun c' hc' => ?_, ih⟩
      obtain ⟨e, he, he'⟩ := abandonedMemory_mem hc'
      have := h1 e he
      omega
    rw [abandonedMemory, List.filterMap_cons]
    split
    · exact ih
    · rename_i c hc
      refine hr c ?_
      have : c ∈ abandonedMemory n sp cur [d] := by simp [abandonedMemory, hc]
      obtain ⟨e, he, he'⟩ := abandonedMemory_mem this
      rw [List.mem_singleton] at he; subst he; exact he'.symm

theorem abandonedMemory_within {n : Nat} {sp : Space} {cur fin : Memory} {size : Nat} (h : Memory.within size fin) :
    Memory.within size (abandonedMemory n sp cur fin) := by
  intro c hc
  obtain ⟨d, hd, e⟩ := abandonedMemory_mem hc
  have := h d hd
  omega

/-- What an abandoned command leaves at an offset (70_reset_and_hazards.md R221): what was there, or what its end holds there,
where the end lists every offset that was listed. -/
theorem abandonedMemory_lookup (n : Nat) (sp : Space) (cur fin : Memory) (hw : Memory.wf fin)
    (h : ∀ a, Memory.lookup fin a = none → Memory.lookup cur a = none) (a : Nat) :
    Memory.lookup (abandonedMemory n sp cur fin) a = Memory.lookup cur a ∨
      Memory.lookup (abandonedMemory n sp cur fin) a = Memory.lookup fin a := by
  have gen : ∀ fin : Memory, Memory.wf fin → Memory.lookup fin a = none ∧ Memory.lookup (abandonedMemory n sp cur fin) a = none ∨
      ∃ v, Memory.lookup fin a = some v ∧ (Memory.lookup (abandonedMemory n sp cur fin) a = some v ∨
        Memory.lookup (abandonedMemory n sp cur fin) a = Memory.lookup cur a) := by
    intro fin
    induction fin with
    | nil => intro _; exact .inl ⟨rfl, rfl⟩
    | cons d fin ih =>
      obtain ⟨x, v⟩ := d
      intro hw
      obtain ⟨h1, h2⟩ := List.pairwise_cons.1 hw
      have ih := ih h2
      have hn : x = a → Memory.lookup fin a = none ∧ Memory.lookup (abandonedMemory n sp cur fin) a = none := by
        rintro rfl
        have : Memory.lookup fin x = none := lookup_eq_none_of_lt h1
        refine ⟨this, lookup_eq_none_of_lt fun c hc => ?_⟩
        obtain ⟨d, hd, e⟩ := abandonedMemory_mem hc
        have := h1 d hd; simp only at this; omega
      have hc : abandonedMemory n sp cur ((x, v) :: fin) =
          (if Memory.lookup cur x = some v then [(x, v)] else if Config.resetDraw n sp x then [(x, v)]
            else ((Memory.lookup cur x).map fun w => (x, w)).toList) ++ abandonedMemory n sp cur fin := by
        simp only [abandonedMemory, List.filterMap_cons]
        by_cases c1 : Memory.lookup cur x = some v
        · simp [c1]
        · by_cases c2 : Config.resetDraw n sp x = true
          · simp [c1, c2]
          · simp only [c1, c2, if_false]
            cases Memory.lookup cur x <;> simp
      by_cases hx : x = a
      · right
        obtain ⟨hn1, hn2⟩ := hn hx
        refine ⟨v, by simp [lookup_cons, hx], ?_⟩
        rw [hc]
        subst hx
        split
        · left; simp [lookup_cons]
        · split
          · left; simp [lookup_cons]
          · right
            cases hl : Memory.lookup cur x <;> simp [lookup_cons, hn2]
      · have e1 : Memory.lookup ((x, v) :: fin) a = Memory.lookup fin a := by simp [lookup_cons, hx]
        have e2 : Memory.lookup (abandonedMemory n sp cur ((x, v) :: fin)) a =
            Memory.lookup (abandonedMemory n sp cur fin) a := by
          rw [hc]
          split
          · simp [lookup_cons, hx]
          · split
            · simp [lookup_cons, hx]
            · cases Memory.lookup cur x <;> simp [lookup_cons, hx]
        rw [e1, e2]; exact ih
  rcases gen fin hw with ⟨h1, h2⟩ | ⟨v, h1, h2 | h2⟩
  · left; rw [h2, h a h1]
  · right; rw [h1, h2]
  · exact .inl h2

end Sys2Proof.Machine
end

