-- ==== Sys2Proof/Tests/Slice0.lean ====
section
/-! SUPPORT. The model's own tests: expected values from the vectors of spec/95_test_vectors.md and the command words written
out from spec/30_encoding.md; and a named witness for the hypotheses of each statement that has some. -/

open Sys2Proof Sys2Proof.Machine

namespace Sys2Proof.Tests

/-! ### Helpers -/

/-- `n` bytes of the value `v` from offset `a`. -/
def bytes (a n : Nat) (v : Byte) : Memory := (List.range n).map fun k => (a + k, v)

/-- An instance in which the word `w` has just been accepted with the snapshot `sn`. -/
def ready (p : Params) (w : Word) (sn : Snapshot) (pix pay : Memory) : State :=
  { State.resetOf p pix pay with
    status := { busy := true, done := false, err := false, ovr := false, errcode := .noError }
    seq := { phase := .run, cmd := w, snap := sn, job := none, len := 0, weff := 0 } }

/-- A snapshot with operands a0, a1, a2 and P. -/
def snap (a0 a1 a2 p : Word) : Snapshot := { a0 := a0, a1 := a1, a2 := a2, p := p, lin := 0, win := 0, cm := false }

/-- A snapshot with P, LEN and WREQ. -/
def snapOf (p lin win : Word) : Snapshot := { a0 := 0, a1 := 0, a2 := 0, p := p, lin := lin, win := win, cm := false }

/-- The snapshot under CHMODE = 1. -/
def truncating (sn : Snapshot) : Snapshot := { sn with cm := true }

/-- The instance of the vectors (95_test_vectors.md). -/
abbrev p0 : Params := Config.vectorParams

/-- A field of the next state. -/
def after {α : Type} (r : Result) (f : State → α) : Option α :=
  match r with
  | .next t => some (f t)
  | .fault _ => none
  | .refused _ => none

/-- RES0, RES1, RES2 and STATUS. -/
def results (t : State) : Nat × Nat × Nat × Nat := (t.res0.toNat, t.res1.toNat, t.res2.toNat, t.status.toWord.toNat)

/-- The PIX bytes at some offsets, and STATUS. -/
def pixels (l : List Nat) (t : State) : List Nat × Nat := (l.map fun a => (t.pixAt a).toNat, t.status.toWord.toNat)

/-- The PAY bytes at some offsets, and STATUS. -/
def payload (l : List Nat) (t : State) : List Nat × Nat := (l.map fun a => (t.payAt a).toNat, t.status.toWord.toNat)

/-- The payload "Hi" (72, 105). -/
def hi : Memory := [(0, 72), (1, 105)]

/-- The image of V5.7: 16 pixels that hold the header 2 and "Hi". -/
def hiImage : Memory :=
  bytes 0 30 0 ++ (30, 1) :: bytes 31 2 0 ++ (33, 1) :: bytes 34 2 0 ++ (36, 1) :: bytes 37 3 0 ++ bytes 40 2 1 ++
    (42, 0) :: (43, 1) :: bytes 44 2 0 ++ [(46, 1), (47, 0)]

/-- A state in which the host's turn comes next and performs `op`. -/
def hostState (op : HostOp) (st : Status) : State := { State.reset with sched := [.host], host := [op], status := st }

/-- A state in which the host accesses the port while a command runs. -/
def busyStatus : Status := { busy := true, done := false, err := false, ovr := false, errcode := .noError }

/-! ### Well-formedness -/

theorem test_wf_rsvd_refused : ({ rsvd := 1, opc := 0x50 } : CmdFields).wellFormed = false := by decide
theorem test_wf_opc_zero_refused : ({ rsvd := 0, opc := 0x00 } : CmdFields).wellFormed = false := by decide
theorem test_wf_opc_gap_refused : ({ rsvd := 0, opc := 0x03 } : CmdFields).wellFormed = false := by decide
theorem test_wf_opc_last_listed : ({ rsvd := 0, opc := 0x51 } : CmdFields).wellFormed = true := by decide
theorem test_wf_no_engine_refused : ({ p0 with numEngines := 0 } : Params).wellFormed = false := by decide
theorem test_wf_engines_above_256_refused : ({ p0 with numEngines := 257 } : Params).wellFormed = false := by decide
theorem test_wf_pix_above_2_32_refused : ({ p0 with pixBytes := 2 ^ 32 + 1 } : Params).wellFormed = false := by decide
theorem test_wf_pay_above_2_32_refused : ({ p0 with payBytes := 2 ^ 32 + 1 } : Params).wellFormed = false := by decide
theorem test_wf_largest_instance :
    ({ numEngines := 256, pixBytes := 2 ^ 32, payBytes := 2 ^ 32 } : Params).wellFormed = true := by decide
theorem test_wf_instr : ∀ i : Instr, i.wellFormed = true := by intro i; cases i <;> rfl

/-! ### Decoding: each command's word, bit by bit from the string of R90 and the opcodes of R93 -/

theorem test_decode_bit_addressing :
    decode 0b00000000000000000000000000000001#32 = some .addr ∧ decode 0b00000000000000000000000000000010#32 = some .c2b := by decide
theorem test_decode_header_codec :
    decode 0b00000000000000000000000000010000#32 = some .wrhdr ∧ decode 0b00000000000000000000000000010001#32 = some .rdhdr := by decide
theorem test_decode_payload_codec :
    decode 0b00000000000000000000000000100000#32 = some .embit ∧ decode 0b00000000000000000000000000100001#32 = some .exbit ∧
    decode 0b00000000000000000000000000100010#32 = some .emchr ∧ decode 0b00000000000000000000000000100011#32 = some .exchr ∧
    decode 0b00000000000000000000000000100100#32 = some .maxcap := by decide
theorem test_decode_work_partitioner :
    decode 0b00000000000000000000000000110000#32 = some .part ∧ decode 0b00000000000000000000000000110001#32 = some .limit := by decide
theorem test_decode_worker_tasks :
    decode 0b00000000000000000000000001000000#32 = some .encrng ∧ decode 0b00000000000000000000000001000001#32 = some .decrng := by decide
theorem test_decode_orchestration :
    decode 0b00000000000000000000000001010000#32 = some .encode ∧ decode 0b00000000000000000000000001010001#32 = some .decode := by decide
/-- V6.1 to V6.4: the words that are illegal. -/
theorem test_decode_illegal :
    decode 0x00000000#32 = none ∧ decode 0x00000150#32 = none ∧ decode 0x00000003#32 = none ∧ decode 0x000000FF#32 = none := by decide
theorem test_decode_table_word : decodeTableWord 32 0x24 = some .maxcap ∧ decodeTableWord 64 0x24 = none := by decide

/-! ### Commands: the vectors of 95_test_vectors.md -/

/-- V1.9. -/
theorem test_addr_largest : after (exec .addr (ready p0 1 (snap 0xFFFFFFFF 0 0 0) [] [])) results = some (1431655776, 0, 0, 2) := by decide
/-- V1.5. -/
theorem test_addr_channel_b : after (exec .addr (ready p0 1 (snap 5 0 0 0) [] [])) results = some (12, 2, 0, 2) := by decide
/-- V1.14. -/
theorem test_c2b_first_carry : after (exec .c2b (ready p0 2 (snap 613566757 0 0 0) [] [])) results = some (3, 1, 0, 2) := by decide
/-- V1.15. -/
theorem test_c2b_largest : after (exec .c2b (ready p0 2 (snap 0xFFFFFFFF 0 0 0) [] [])) results = some (0xFFFFFFF9, 6, 0, 2) := by decide
/-- V2.5. -/
theorem test_wrhdr_most_significant_first :
    after (exec .wrhdr (ready p0 16 (snap 0x80000001 0 0 16) (bytes 0 48 0) [])) (pixels [0, 1, 30, 31, 32]) =
      some ([1, 0, 0, 1, 0], 2) := by decide
/-- V2.13. -/
theorem test_wrhdr_pix_bounds :
    after (exec .wrhdr (ready p0 16 (snap 5 0 0 22) (bytes 0 64 0) [])) (pixels [29, 31]) = some ([0, 0], 0x406) := by decide
/-- V2.9. -/
theorem test_rdhdr_ignores_high_bits :
    after (exec .rdhdr (ready p0 17 (snap 0 0 0 16) (bytes 0 30 0 ++ (30, 0xFF) :: bytes 31 17 0) [])) results = some (2, 0, 0, 2) := by decide
/-- V2.12. -/
theorem test_rdhdr_image_small : after (exec .rdhdr (ready p0 17 (snap 0 0 0 0) [] [])) results = some (0, 0, 0, 0x306) := by decide
/-- V3.4. -/
theorem test_embit_ignores_high_component_bits :
    after (exec .embit (ready p0 32 (snap 0x1FF 1 0 0) [] [])) results = some (0xFF, 0, 0, 2) := by decide
/-- V3.5. -/
theorem test_embit_rejects_two : after (exec .embit (ready p0 32 (snap 0x10 2 0 0) [] [])) results = some (0, 0, 0, 0x906) := by decide
/-- V3.8. -/
theorem test_exbit_zero : after (exec .exbit (ready p0 33 (snap 0xFFFFFFFE 0 0 0) [] [])) results = some (0, 0, 0, 2) := by decide
/-- V3.9. -/
theorem test_exbit_one : after (exec .exbit (ready p0 33 (snap 0x101 0 0 0) [] [])) results = some (1, 0, 0, 2) := by decide
/-- V3.33, first command. -/
theorem test_emchr_high_bit_first :
    after (exec .emchr (ready p0 34 (snap 0 65 0 16) (bytes 0 48 0xFF) [])) (pixels [32, 33, 34, 35, 36, 37, 38, 39, 40]) =
      some ([0xFF, 0xFF, 0xFE, 0xFE, 0xFE, 0xFE, 0xFE, 0xFF, 0xFF], 2) := by decide
/-- V3.29: PIX_BOUNDS before CHAR_RANGE. -/
theorem test_emchr_bounds_first :
    after (exec .emchr (ready p0 34 (snap 9 200 0 16) (bytes 0 48 0) [])) (pixels [42, 47]) = some ([0, 0], 0x406) := by decide
/-- V3.33, second command. -/
theorem test_exchr_reads_back :
    after (exec .exchr (ready p0 35 (snap 0 0 0 16) (bytes 0 34 0xFF ++ bytes 34 5 0xFE ++ bytes 39 9 0xFF) [])) results =
      some (65, 0, 0, 2) := by decide
/-- V3.32. -/
theorem test_exchr_bounds : after (exec .exchr (ready p0 35 (snap 9 0 0 16) (bytes 0 48 0xFF) [])) results = some (0, 0, 0, 0x406) := by decide
/-- V3.20. -/
theorem test_maxcap_largest : after (exec .maxcap (ready p0 36 (snap 0 0 0 0xFFFFFFFF) [] [])) results = some (1840700264, 0, 0, 2) := by decide
/-- V3.11: no image check. -/
theorem test_maxcap_below_header : after (exec .maxcap (ready p0 36 (snap 0 0 0 10) [] [])) results = some (0, 0, 0, 2) := by decide
/-- V4.9: the tie rounds up. -/
theorem test_part_tie : after (exec .part (ready p0 48 (snap 34 28 21 0) [] [])) results = some (26, 1, 28, 2) := by decide
/-- V4.21: the clamp comes before the index check. -/
theorem test_part_index_after_clamp : after (exec .part (ready p0 48 (snap 3 10 3 0) [] [])) results = some (0, 0, 0, 0xB06) := by decide
/-- V4.29. -/
theorem test_limit_largest : after (exec .limit (ready p0 49 (snap 0xFFFFFFFF 0 0 0) [] [])) results = some (0x5555555E, 2, 0, 2) := by decide
/-- V4.24. -/
theorem test_limit_channel : after (exec .limit (ready p0 49 (snap 2 0 0 0) [] [])) results = some (15, 0, 2, 2) := by decide
/-- V5.1. -/
theorem test_encrng_one_character :
    after (exec .encrng (ready p0 64 (snap 1 1 0 16) (bytes 0 48 0) hi)) (pixels [31, 33, 39, 40, 41, 42, 43, 44, 45, 46, 47]) =
      some ([0, 0, 0, 1, 1, 0, 1, 0, 0, 1, 0], 2) := by decide
/-- V5.4: the checks apply with n = 0. -/
theorem test_encrng_bounds_of_empty_range :
    after (exec .encrng (ready p0 64 (snap 3 0 0 16) (bytes 0 48 0) hi)) (pixels [47]) = some ([0], 0x406) := by decide
/-- V5.6. -/
theorem test_decrng_clears_bit_7 :
    after (exec .decrng (ready p0 65 (snap 0 2 0 16) (bytes 0 48 0xFF) (bytes 0 3 0xFF))) (payload [0, 1, 2]) =
      some ([127, 127, 255], 2) := by decide
/-- V5.24. -/
theorem test_decrng_empty_at_the_end :
    after (exec .decrng (ready { numEngines := 1, pixBytes := 256, payBytes := 2 } 65 (snap 2 0 0 85) [] hi)) (payload [0, 1]) =
      some ([72, 105], 2) := by decide
/-- V5.16. -/
theorem test_encode_over_ones :
    after (exec .encode (ready p0 80 (snapOf 16 2 2) (bytes 0 48 0xFF) hi))
        (fun t => (pixels [0, 29, 30, 31, 32, 33, 34, 36, 40, 41, 42, 46, 47] t, t.weff.toNat)) =
      some (([0xFE, 0xFE, 0xFF, 0xFE, 0xFF, 0xFF, 0xFE, 0xFF, 0xFF, 0xFF, 0xFE, 0xFF, 0xFF], 2), 2) := by decide
/-- V5.12: WCOUNT before CAPACITY. -/
theorem test_encode_worker_count_first :
    after (exec .encode (ready p0 80 (snapOf 16 3 0) (bytes 0 48 0) hi)) (pixels [30, 33]) = some ([0, 0], 0x206) := by decide
/-- The image of V5.7 is decoded as V5.17 says. -/
theorem test_decode_recovers :
    after (exec .decode (ready p0 81 (snapOf 16 0 7) hiImage []))
        (fun t => (payload [0, 1] t, t.len.toNat, t.weff.toNat, t.res0.toNat)) =
      some (([72, 105], 2), 2, 2, 2) := by decide
/-- V5.20. -/
theorem test_decode_rejects_length :
    after (exec .decode (ready p0 81 (snapOf 16 0 1) (bytes 0 30 0 ++ bytes 30 2 1 ++ bytes 32 16 0) hi))
        (fun t => (payload [0, 1] t, t.len.toNat, t.weff.toNat, t.res0.toNat)) =
      some (([72, 105], 0xA06), 0, 0, 3) := by decide

/-! ### Reset and the host port -/

theorem test_reset_memory_canonical : Memory.wf State.reset.pix ∧ Memory.wf State.reset.pay := by decide
/-- V6.13, for the instance of the vectors. -/
theorem test_reset_reads :
    [Reg.id, .cfg, .ctrl, .status].map (fun r => (regRead r State.reset).toNat) = [0x53544701, 0x01200B37, 0, 0] := by decide
/-- V6.5: a CMD write after an error only sets OVR. -/
theorem test_cmd_refused_after_error :
    after (step (hostState (.access (.writeReg .word 0x10 0x24)) { done := true, err := true, busy := false, ovr := false, errcode := .illegalCmd }))
      (fun t => t.status.toWord.toNat) = some 0x10E := by decide
/-- V6.6. -/
theorem test_status_write_one_clears :
    after (step (hostState (.access (.writeReg .word 0x0C 4)) { done := true, err := true, busy := false, ovr := true, errcode := .illegalCmd }))
      (fun t => t.status.toWord.toNat) = some 0xA := by decide
/-- V6.2: an illegal word is accepted, and the next step is its error. -/
theorem test_illegal_word_completes :
    after (step (State.reset.withFetchWord 32 0x150)) (fun t => t.status.toWord.toNat) = some 0x106 := by decide
/-- 30_encoding.md R104 `TEXT`, with 95_test_vectors.md's "Hi" = 72 105. -/
theorem test_text : hostProgram [.text .pay 0 "Hi"] = hostProgram [.load .pay 0 [72, 105]] := by decide

/-! ### Witnesses: concrete states that meet the hypotheses of the statements -/

/-- An accepted command of an instance with canonical memories meets the invariant. -/
theorem ready_inv {p : Params} (hp : p.wellFormed = true) (w : Word) (sn : Snapshot) {pix pay : Memory} (h1 : Memory.wf pix)
    (h2 : Memory.wf pay) (h3 : Memory.within p.pixBytes pix) (h4 : Memory.within p.payBytes pay) : Inv (ready p w sn pix pay) := by
  refine ⟨hp, ⟨by simp [ready], by simp [ready], by simp [ready], by simp [ready, State.resetOf]⟩, ⟨h1, h2, h3, h4⟩, ⟨?_, ?_, ?_, ?_⟩, ⟨?_⟩⟩ <;>
    simp [ready, State.resetOf]

/-- The same with memories that list nothing. -/
theorem ready_inv_nil {p : Params} (hp : p.wellFormed = true) (w : Word) (sn : Snapshot) : Inv (ready p w sn [] []) :=
  ready_inv hp w sn (by simp) (by simp) (by simp) (by simp)

/-- A dispatch opened after its checks, with no range handed out, meets the invariant. -/
theorem opened_inv {p : Params} (hp : p.wellFormed = true) (w : Word) {sn : Snapshot} {j : Job} {l we : Nat}
    (hi : 11 ≤ sn.p.toNat ∧ 3 * sn.p.toNat ≤ p.pixBytes) (hc : jobChecked (openJob j l we (ready p w sn [] [])) j) :
    Inv (openJob j l we (ready p w sn [] [])) := by
  have h := ready_inv_nil hp w sn
  have idle := (h.4.3 rfl).1
  refine ⟨h.1, ⟨by simp [openJob, ready], by simp [openJob, ready], by simp [openJob, ready], by simp [openJob, ready, State.resetOf]⟩,
    ⟨h.3.1, h.3.2, h.3.3, h.3.4⟩, ⟨h.4.1, h.4.2, fun h => ?_, fun j' hj => ?_⟩, ⟨fun h => ?_⟩⟩
  · cases h
  · cases hj
    refine ⟨rfl, hi, hc, Nat.zero_le _, ?_, by simp [openJob], fun g hg hb => by rw [idle g hg] at hb; cases hb⟩
    rw [List.filter_eq_nil_iff.2 fun g hg => by rw [idle g hg]; simp]
    exact .refl _
  · cases h

theorem witness_StepRunsTheAcceptedCommand :
    (∃ s : State, s.rst = false ∧ s.seq.phase = .run ∧ s.seq.job = none ∧ decode s.seq.cmd = some .part ∧ s.sched = [.run]) ∧
    (∃ s : State, s.rst = false ∧ s.seq.phase = .run ∧ s.seq.job = none ∧ decode s.seq.cmd = some .part ∧ s.sched = []) ∧
    (0x51 < 2 ^ 32 ∧ decode (BitVec.ofNat 32 0x51) = some .decode) :=
  ⟨⟨{ ready p0 0x30 (snap 3 2 1 0) [] [] with sched := [.run] }, by decide⟩, ⟨ready p0 0x30 (snap 3 2 1 0) [] [], by decide⟩, by decide⟩

theorem witness_IllegalWordEndsInIllegalCmd :
    (∃ (s : State) (v : Word), hostNext s (.writeReg .word 0x10 v) [] [] ∧ s.status.busy = false ∧ s.status.err = false ∧ v.toNat / 256 ≠ 0) ∧
    (∃ (s : State) (v : Word), hostNext s (.writeReg .word 0x10 v) [] [] ∧ s.status.busy = false ∧ s.status.err = false ∧
      v.toNat % 256 ∉ [0x01, 0x02, 0x10, 0x11, 0x20, 0x21, 0x22, 0x23, 0x24, 0x30, 0x31, 0x40, 0x41, 0x50, 0x51]) :=
  ⟨⟨hostState (.access (.writeReg .word 0x10 0x101)) Status.reset, 0x101, by unfold hostNext; decide⟩,
   ⟨hostState (.access (.writeReg .word 0x10 0x52)) Status.reset, 0x52, by unfold hostNext; decide⟩⟩

theorem witness_AssertedResetClearsTheBlock :
    (∃ s : State, s.sched = [.rstOn] ∧ s.status.busy = false) ∧ (∃ s : State, s.sched = [.host] ∧ s.rst = true) ∧
    (∃ s : State, s.sched = [.rstOff] ∧ s.rst = true) :=
  ⟨⟨{ State.reset with sched := [.rstOn] }, by decide⟩, ⟨{ State.reset with sched := [.host], rst := true }, by decide⟩,
   ⟨{ State.reset with sched := [.rstOff], rst := true }, by decide⟩⟩

/-- A state of an open dispatch: what `start` makes of an accepted DECRNG of one character. -/
def openState : State := openJob .decrng 0 0 (ready p0 0x41 (snap 0 1 0 14) [] [])

theorem openState_inv : Inv openState := opened_inv (by decide) _ (by decide) (by unfold jobChecked; decide)

/-- The open dispatch of an ENCODE of two characters by two workers. -/
def openEncodeState : State := openJob .encode 2 2 (ready p0 0x50 (snapOf 16 2 2) [] [])

/-- Each case of a reset while a command runs: an illegal word, an accepted command, an open dispatch. -/
theorem witness_ResetDuringACommandAbandonsIt :
    (∃ s : State, Inv s ∧ s.sched = [.rstOn] ∧ s.status.busy = true ∧ s.seq.job = none ∧ decode s.seq.cmd = none) ∧
    (∃ s u : State, Inv s ∧ s.sched = [.rstOn] ∧ s.status.busy = true ∧ s.seq.job = none ∧ decode s.seq.cmd = some .addr ∧
      exec .addr s = .next u) ∧
    (∃ s : State, Inv s ∧ s.sched = [.rstOn] ∧ s.status.busy = true ∧ s.seq.job = some .decrng) :=
  ⟨⟨_, inv_sched (ready_inv_nil (p := p0) (by decide) 0x52 (snap 0 0 0 0)) [.rstOn], rfl, rfl, rfl, by decide⟩,
    ⟨_, _, inv_sched (ready_inv_nil (p := p0) (by decide) 0x01 (snap 0 0 0 0)) [.rstOn], rfl, rfl, rfl, by decide, rfl⟩,
    ⟨_, inv_sched openState_inv [.rstOn], rfl, rfl, rfl⟩⟩

theorem witness_AcceptanceLatchesTheSnapshot :
    (∃ (s : State) (v : Word), hostNext s (.writeReg .word 0x10 v) [] [] ∧ s.status.busy = false ∧ s.status.err = false ∧
      decode v = some .decode) ∧
    (∃ (s : State) (v : Word), hostNext s (.writeReg .word 0x10 v) [] [] ∧ s.status.busy = false ∧ s.status.err = false ∧ decode v = none) ∧
    (∃ (s : State) (v : Word), hostNext s (.writeReg .word 0x10 v) [] [] ∧ s.status.busy = true) ∧
    (∃ (s : State) (v : Word), hostNext s (.writeReg .word 0x10 v) [] [] ∧ s.status.err = true) :=
  ⟨⟨hostState (.access (.writeReg .word 0x10 0x51)) Status.reset, 0x51, by unfold hostNext; decide⟩,
   ⟨hostState (.access (.writeReg .word 0x10 0x52)) Status.reset, 0x52, by unfold hostNext; decide⟩,
   ⟨hostState (.access (.writeReg .word 0x10 0x51)) busyStatus, 0x51, by unfold hostNext; decide⟩,
   ⟨hostState (.access (.writeReg .word 0x10 0x51)) { Status.reset with done := true, err := true, errcode := .wcount }, 0x51,
     by unfold hostNext; decide⟩⟩

theorem witness_AcknowledgementClearsWhatIsWrittenAsOne :
    ∃ s : State, hostNext s (.writeReg .word 0x0C 0xE) [] [] ∧ (0xE#32).toNat / 4 % 2 = 1 ∧ s.status.busy = false ∧
      ∃ t : State, hostNext t (.writeReg .word 0x10 0x01) [] [] :=
  ⟨hostState (.access (.writeReg .word 0x0C 0xE)) { Status.reset with done := true, err := true, errcode := .wcount }, ⟨rfl, rfl, rfl⟩,
   by decide, rfl, hostState (.access (.writeReg .word 0x10 0x01)) Status.reset, ⟨rfl, rfl, rfl⟩⟩

theorem witness_InterruptFollowsCompletion :
    (∃ t, exec .addr (ready p0 1 (snap 5 0 0 0) [] []) = .next t) ∧
    (∃ s t : State, step s = .next t ∧ s.status.busy = true ∧ t.status.busy = false ∧ t.rst = false ∧ decode s.seq.cmd = none) ∧
    (∃ s t : State, step s = .next t ∧ hostNext s (.writeReg .word 0x0C 2) [] [] ∧ (2#32).toNat / 2 % 2 = 1) ∧
    (∃ s t : State, step s = .next t ∧ hostNext s (.writeReg .word 0x08 0) [] [] ∧ (0#32).toNat % 2 = 0) ∧
    (∃ s t : State, step s = .next t ∧ hostNext s (.writeReg .word 0x10 1) [] [] ∧ s.status.busy = false ∧ s.status.err = false) :=
  ⟨⟨_, rfl⟩, ⟨ready p0 0 (snap 0 0 0 0) [] [], _, rfl, rfl, rfl, rfl, by decide⟩,
   ⟨hostState (.access (.writeReg .word 0x0C 2)) { Status.reset with done := true }, _, rfl, ⟨rfl, rfl, rfl⟩, by decide⟩,
   ⟨hostState (.access (.writeReg .word 0x08 0)) { Status.reset with done := true }, _, rfl, ⟨rfl, rfl, rfl⟩, by decide⟩,
   ⟨hostState (.access (.writeReg .word 0x10 1)) { Status.reset with done := true }, _, rfl, ⟨rfl, rfl, rfl⟩, rfl, rfl⟩⟩

theorem witness_ConstantSlotsReadAsSpecified : ∃ s : State, s.params.wellFormed = true ∧ s.params.numEngines = 256 :=
  ⟨State.resetOf { p0 with numEngines := 256 } [] [], by decide⟩

theorem witness_RegisterWritesStoreOrAreIgnored :
    ∀ off ∈ [0x08, 0x14, 0x18, 0x1C, 0x2C, 0x30, 0x34, 0x00, 0x04, 0x20, 0x24, 0x28, 0x38, 0x3C],
      ∃ s : State, hostNext s (.writeReg .word off 0xFFFFFFFF) [] [] :=
  fun off _ => ⟨hostState (.access (.writeReg .word off 0xFFFFFFFF)) Status.reset, rfl, rfl, rfl⟩

/-- Each clause, the byte accesses at the last offset. -/
theorem witness_ReadsHaveNoSideEffect :
    (∀ off ∈ [0x00, 0x04, 0x08, 0x0C, 0x10, 0x14, 0x18, 0x1C, 0x20, 0x24, 0x28, 0x2C, 0x30, 0x34, 0x38, 0x3C],
      ∃ s : State, hostNext s (.readReg .word off) [] []) ∧
    (∃ s : State, s.status.busy = false ∧ 63 < s.params.pixBytes ∧ hostNext s (.readMem .pix .byte 63) [] []) ∧
    (∃ s : State, s.status.busy = false ∧ 15 < s.params.payBytes ∧ hostNext s (.readMem .pay .byte 15) [] []) :=
  ⟨fun off _ => ⟨hostState (.access (.readReg .word off)) Status.reset, rfl, rfl, rfl⟩,
   ⟨hostState (.access (.readMem .pix .byte 63)) Status.reset, rfl, by decide, rfl, rfl, rfl⟩,
   ⟨hostState (.access (.readMem .pay .byte 15)) Status.reset, rfl, by decide, rfl, rfl, rfl⟩⟩

theorem witness_ByteWriteChangesExactlyThatByte :
    (∃ s : State, s.status.busy = false ∧ 63 < s.params.pixBytes ∧ hostNext s (.writeMem .pix .byte 63 0x1FF) [] []) ∧
    (∃ s : State, s.status.busy = false ∧ 15 < s.params.payBytes ∧ hostNext s (.writeMem .pay .byte 15 0x1FF) [] []) :=
  ⟨⟨hostState (.access (.writeMem .pix .byte 63 0x1FF)) Status.reset, rfl, by decide, rfl, rfl, rfl⟩,
   ⟨hostState (.access (.writeMem .pay .byte 15 0x1FF)) Status.reset, rfl, by decide, rfl, rfl, rfl⟩⟩

/-- Each way an access is refused, the offsets at their boundaries. -/
theorem witness_RefusedAccessRaisesBusError :
    (Width.half ≠ .word ∧ ∃ s : State, hostNext s (.readReg .half 0x3C) [] []) ∧
    (0x3E % 4 ≠ 0 ∧ ∃ s : State, hostNext s (.writeReg .word 0x3E 1) [] []) ∧
    (0x3C < 0x40 ∧ ∃ s : State, hostNext s (.writeReg .word 0x40 1) [] []) ∧
    (Width.word ≠ .byte ∧ ∃ s : State, hostNext s (.readMem .pay .word 0) [] []) ∧
    (∃ s : State, s.params.pixBytes ≤ 64 ∧ hostNext s (.writeMem .pix .byte 64 1) [] []) ∧
    (∃ s : State, s.params.payBytes ≤ 16 ∧ hostNext s (.readMem .pay .byte 16) [] []) :=
  ⟨⟨by decide, hostState (.access (.readReg .half 0x3C)) Status.reset, rfl, rfl, rfl⟩,
   ⟨by decide, hostState (.access (.writeReg .word 0x3E 1)) Status.reset, rfl, rfl, rfl⟩,
   ⟨by decide, hostState (.access (.writeReg .word 0x40 1)) Status.reset, rfl, rfl, rfl⟩,
   ⟨by decide, hostState (.access (.readMem .pay .word 0)) Status.reset, rfl, rfl, rfl⟩,
   ⟨hostState (.access (.writeMem .pix .byte 64 1)) Status.reset, by decide, rfl, rfl, rfl⟩,
   ⟨hostState (.access (.readMem .pay .byte 16)) Status.reset, by decide, rfl, rfl, rfl⟩⟩

theorem witness_MemoryAccessDuringBusyFaults :
    (∃ s : State, s.status.busy = true ∧ 63 < s.params.pixBytes ∧ hostNext s (.readMem .pix .byte 63) [] []) ∧
    (∃ s : State, s.status.busy = true ∧ 15 < s.params.payBytes ∧ hostNext s (.writeMem .pay .byte 15 0) [] []) :=
  ⟨⟨hostState (.access (.readMem .pix .byte 63)) busyStatus, rfl, by decide, rfl, rfl, rfl⟩,
   ⟨hostState (.access (.writeMem .pay .byte 15 0)) busyStatus, rfl, by decide, rfl, rfl, rfl⟩⟩

theorem witness_WaitRepeatsUntilIdle :
    (∃ s : State, s.sched = [.host] ∧ s.rst = false ∧ s.host = [.waitIdle] ∧ s.status.busy = true) ∧
    (∃ s : State, s.sched = [.host] ∧ s.rst = false ∧ s.host = [.waitIdle] ∧ s.status.busy = false) ∧
    (∃ s : State, s.sched = [.host] ∧ s.rst = false ∧ s.host = [.waitIrq]) :=
  ⟨⟨hostState .waitIdle busyStatus, by decide⟩, ⟨hostState .waitIdle Status.reset, by decide⟩, ⟨hostState .waitIrq Status.reset, by decide⟩⟩

/-- The three cases of the image check, at their boundaries: P = 10; P = 22 with 64 bytes; P = 21 and P = 11 that fit. -/
theorem witness_WrhdrWritesTheHeader_and_Rdhdr :
    (∃ s : State, s.seq.snap.p.toNat < 11 ∧ s.seq.snap.p.toNat = 10) ∧
    (∃ s : State, 11 ≤ s.seq.snap.p.toNat ∧ s.params.pixBytes < 3 * s.seq.snap.p.toNat ∧ s.seq.snap.p.toNat = 22) ∧
    (∃ s : State, imageFits s ∧ s.seq.snap.p.toNat = 21) ∧ (∃ s : State, imageFits s ∧ s.seq.snap.p.toNat = 11) :=
  ⟨⟨ready p0 16 (snap 5 0 0 10) [] [], by decide⟩, ⟨ready p0 16 (snap 5 0 0 22) [] [], by decide⟩,
   ⟨ready p0 16 (snap 5 0 0 21) [] [], by unfold imageFits; decide⟩, ⟨ready p0 16 (snap 5 0 0 11) [] [], by unfold imageFits; decide⟩⟩

theorem witness_HeaderReadsBackWhatWasWritten :
    ∃ s u t : State, imageFits s ∧ imageFits u ∧ exec .wrhdr s = .next t ∧ u.pix = t.pix := by
  have e := exec_wrhdr (ready p0 16 (snap 5 0 0 11) [] [])
  rw [runChecked_pass (by decide)] at e
  generalize hdrWrite (ready p0 16 (snap 5 0 0 11) [] []).opA0 (ready p0 16 (snap 5 0 0 11) [] []).pix = m at e
  exact ⟨_, { ready p0 16 (snap 5 0 0 11) [] [] with pix := m }, _, by unfold imageFits; decide,
    (by unfold imageFits; decide : imageFits (ready p0 16 (snap 5 0 0 11) [] [])), e,
    by simp only [complete_pix]⟩

theorem witness_EmbitEmbedsABitOrRejects :
    (∃ s : State, s.seq.snap.a1.toNat ≤ 1 ∧ s.seq.snap.a1.toNat = 1) ∧ (∃ s : State, 1 < s.seq.snap.a1.toNat ∧ s.seq.snap.a1.toNat = 2) :=
  ⟨⟨ready p0 32 (snap 0 1 0 0) [] [], by decide⟩, ⟨ready p0 32 (snap 0 2 0 0) [] [], by decide⟩⟩

/-- Each clause of EMCHR (and of EXCHR, whose clauses are the first two and the last two without the character): V3.30, P = 22,
V3.25, V3.26, V3.24 and V3.27. -/
theorem witness_EmchrEmbedsACharacter_and_Exchr :
    (∃ s : State, s.seq.snap.p.toNat < 11) ∧
    (∃ s : State, 11 ≤ s.seq.snap.p.toNat ∧ s.params.pixBytes < 3 * s.seq.snap.p.toNat) ∧
    (∃ s : State, 11 ≤ s.seq.snap.p.toNat ∧ 3 * s.seq.snap.p.toNat < 33 + s.seq.snap.a0.toNat + 7 ∧ s.seq.snap.a0.toNat = 9) ∧
    (∃ s : State, imageFits s ∧ 33 + s.seq.snap.a0.toNat + 7 ≤ 3 * s.seq.snap.p.toNat ∧ 128 ≤ s.seq.snap.a1.toNat ∧ s.seq.snap.cm = false) ∧
    (∃ s : State, imageFits s ∧ 33 + s.seq.snap.a0.toNat + 7 ≤ 3 * s.seq.snap.p.toNat ∧ s.seq.snap.a0.toNat = 8 ∧
      s.seq.snap.a1.toNat < 128) ∧
    (∃ s : State, imageFits s ∧ 33 + s.seq.snap.a0.toNat + 7 ≤ 3 * s.seq.snap.p.toNat ∧ s.seq.snap.cm = true ∧ s.seq.snap.a1.toNat = 200) :=
  ⟨⟨ready p0 34 (snap 0 0 0 10) [] [], by decide⟩, ⟨ready p0 34 (snap 0 0 0 22) [] [], by decide⟩, ⟨ready p0 34 (snap 9 1 0 16) [] [], by decide⟩,
   ⟨ready p0 34 (snap 0 128 0 16) [] [], by unfold imageFits; decide⟩, ⟨ready p0 34 (snap 8 127 0 16) [] [], by unfold imageFits; decide⟩,
   ⟨ready p0 34 (truncating (snap 0 200 0 16)) [] [], by unfold imageFits; decide⟩⟩

theorem witness_CharacterReadsBackWhatWasEmbedded :
    ∃ s u t : State, imageFits s ∧ imageFits u ∧ 33 + s.seq.snap.a0.toNat + 7 ≤ 3 * s.seq.snap.p.toNat ∧
      33 + s.seq.snap.a0.toNat + 7 ≤ 3 * u.seq.snap.p.toNat ∧ (s.seq.snap.a1.toNat < 128 ∨ s.seq.snap.cm = true) ∧
      u.seq.snap.a0 = s.seq.snap.a0 ∧ exec .emchr s = .next t ∧
      ∀ k < 7, (u.pixAt (33 + s.seq.snap.a0.toNat + k)).toNat % 2 = (t.pixAt (33 + s.seq.snap.a0.toNat + k)).toNat % 2 := by
  let s := ready p0 34 (snap 8 127 0 16) [] []
  have e := exec_emchr s
  rw [runChecked_pass (by decide)] at e
  exact ⟨s, { s with pix := embedChar s.opA0 (normChar s.seq.snap.a1) s.pix }, _, by unfold imageFits; decide,
    by unfold imageFits; decide, by decide, by decide, by decide, rfl, e, fun k _ => by simp only [State.pixAt, complete_pix]⟩

/-- Each clause of PART: V4.16, V4.18, V4.19 and the last range of V4.3. -/
theorem witness_PartGivesRangeOfThePartition :
    (∃ s : State, s.seq.snap.a1.toInt ≤ 0 ∧ s.seq.snap.a1.toInt = -1) ∧ (∃ s : State, s.seq.snap.a1.toInt ≤ 0 ∧ s.seq.snap.a1.toInt = 0) ∧
    (∃ s : State, 1 ≤ s.seq.snap.a1.toInt ∧ min s.seq.snap.a1.toInt.toNat s.seq.snap.a0.toNat ≤ s.seq.snap.a2.toNat ∧ s.seq.snap.a2.toNat = 3) ∧
    (∃ s : State, 1 ≤ s.seq.snap.a1.toInt ∧ min s.seq.snap.a1.toInt.toNat s.seq.snap.a0.toNat ≤ s.seq.snap.a2.toNat ∧ s.seq.snap.a0.toNat = 0) ∧
    (∃ s : State, 1 ≤ s.seq.snap.a1.toInt ∧ s.seq.snap.a2.toNat < min s.seq.snap.a1.toInt.toNat s.seq.snap.a0.toNat ∧ s.seq.snap.a2.toNat = 3) :=
  ⟨⟨ready p0 48 (snap 10 0xFFFFFFFF 0 0) [] [], by decide⟩, ⟨ready p0 48 (snap 10 0 0 0) [] [], by decide⟩,
   ⟨ready p0 48 (snap 10 3 3 0) [] [], by decide⟩, ⟨ready p0 48 (snap 0 1 0 0) [] [], by decide⟩, ⟨ready p0 48 (snap 7 4 3 0) [] [], by decide⟩⟩

theorem witness_partitions :
    (∃ we : Nat, 1 ≤ we) ∧ (∃ l we i : Nat, 1 ≤ we ∧ we ≤ l ∧ i < we ∧ l = 7 ∧ we = 4 ∧ i = 3) ∧
    (∃ (w : Int) (l i : Nat), 1 ≤ l ∧ (l : Int) ≤ w ∧ i < l ∧ w = 3 ∧ l = 3) :=
  ⟨⟨1, by decide⟩, ⟨7, 4, 3, by decide⟩, ⟨3, 3, 2, by decide⟩⟩

/-- Each clause of ENCRNG: P = 10, P = 22, V5.4, V5.23, a character of 128, V5.2 and the same under CHMODE = 1. -/
theorem witness_EncrngEncodesARange :
    (∃ s : State, s.seq.snap.p.toNat < 11) ∧
    (∃ s : State, 11 ≤ s.seq.snap.p.toNat ∧ s.params.pixBytes < 3 * s.seq.snap.p.toNat) ∧
    (∃ s : State, 11 ≤ s.seq.snap.p.toNat ∧ 3 * s.seq.snap.p.toNat < 33 + 7 * (s.seq.snap.a0.toNat + s.seq.snap.a1.toNat)) ∧
    (∃ s : State, imageFits s ∧ 33 + 7 * (s.seq.snap.a0.toNat + s.seq.snap.a1.toNat) ≤ 3 * s.seq.snap.p.toNat ∧
      s.params.payBytes < s.seq.snap.a0.toNat + s.seq.snap.a1.toNat) ∧
    (∃ s : State, imageFits s ∧ 33 + 7 * (s.seq.snap.a0.toNat + s.seq.snap.a1.toNat) ≤ 3 * s.seq.snap.p.toNat ∧
      s.seq.snap.a0.toNat + s.seq.snap.a1.toNat ≤ s.params.payBytes ∧ ¬ charsFit s s.seq.snap.a0.toNat s.seq.snap.a1.toNat) ∧
    (∃ s : State, imageFits s ∧ 33 + 7 * (s.seq.snap.a0.toNat + s.seq.snap.a1.toNat) ≤ 3 * s.seq.snap.p.toNat ∧
      s.seq.snap.a0.toNat + s.seq.snap.a1.toNat ≤ s.params.payBytes ∧ charsFit s s.seq.snap.a0.toNat s.seq.snap.a1.toNat ∧ s.seq.snap.cm = false) ∧
    (∃ s : State, imageFits s ∧ 33 + 7 * (s.seq.snap.a0.toNat + s.seq.snap.a1.toNat) ≤ 3 * s.seq.snap.p.toNat ∧
      s.seq.snap.a0.toNat + s.seq.snap.a1.toNat ≤ s.params.payBytes ∧ charsFit s s.seq.snap.a0.toNat s.seq.snap.a1.toNat ∧ s.seq.snap.cm = true) :=
  ⟨⟨ready p0 64 (snap 0 0 0 10) [] [], by decide⟩, ⟨ready p0 64 (snap 0 0 0 22) [] [], by decide⟩, ⟨ready p0 64 (snap 3 0 0 16) [] [], by decide⟩,
   ⟨ready { numEngines := 1, pixBytes := 256, payBytes := 2 } 64 (snap 1 2 0 85) [] hi, by unfold imageFits; decide⟩,
   ⟨ready p0 64 (snap 0 1 0 16) [] [(0, 128)], by unfold imageFits charsFit; decide⟩,
   ⟨ready p0 64 (snap 0 2 0 16) [] hi, by unfold imageFits charsFit; decide⟩,
   ⟨ready p0 64 (truncating (snap 0 2 0 16)) [] [(0, 128), (1, 255)], by unfold imageFits charsFit; decide⟩⟩

/-- DECRNG: the clauses of ENCRNG but the character check; its success at the end of the image (V5.6). -/
theorem witness_DecrngDecodesARange :
    (∃ s : State, imageFits s ∧ 33 + 7 * (s.seq.snap.a0.toNat + s.seq.snap.a1.toNat) ≤ 3 * s.seq.snap.p.toNat ∧
      s.params.payBytes < s.seq.snap.a0.toNat + s.seq.snap.a1.toNat) ∧
    (∃ s : State, imageFits s ∧ 33 + 7 * (s.seq.snap.a0.toNat + s.seq.snap.a1.toNat) ≤ 3 * s.seq.snap.p.toNat ∧
      s.seq.snap.a0.toNat + s.seq.snap.a1.toNat ≤ s.params.payBytes) :=
  ⟨⟨ready { numEngines := 1, pixBytes := 256, payBytes := 2 } 65 (snap 2 1 0 85) [] hi, by unfold imageFits; decide⟩,
   ⟨ready p0 65 (snap 0 2 0 16) [] [], by unfold imageFits; decide⟩⟩

/-- Each clause of ENCODE: V5.11, a negative count, V5.13, P = 22, V5.9, V5.22, V5.14, V5.7. -/
theorem witness_EncodeHidesThePayload :
    (∃ s : State, s.seq.snap.win.toInt ≤ 0 ∧ s.seq.snap.win.toInt = 0) ∧ (∃ s : State, s.seq.snap.win.toInt ≤ 0 ∧ s.seq.snap.win.toInt < 0) ∧
    (∃ s : State, 1 ≤ s.seq.snap.win.toInt ∧ s.seq.snap.p.toNat < 11) ∧
    (∃ s : State, 1 ≤ s.seq.snap.win.toInt ∧ 11 ≤ s.seq.snap.p.toNat ∧ s.params.pixBytes < 3 * s.seq.snap.p.toNat) ∧
    (∃ s : State, 1 ≤ s.seq.snap.win.toInt ∧ imageFits s ∧ capacityOf s.seq.snap.p.toNat < s.seq.snap.lin.toNat) ∧
    (∃ s : State, 1 ≤ s.seq.snap.win.toInt ∧ imageFits s ∧ s.seq.snap.lin.toNat ≤ capacityOf s.seq.snap.p.toNat ∧
      s.params.payBytes < s.seq.snap.lin.toNat) ∧
    (∃ s : State, 1 ≤ s.seq.snap.win.toInt ∧ imageFits s ∧ s.seq.snap.lin.toNat ≤ capacityOf s.seq.snap.p.toNat ∧
      s.seq.snap.lin.toNat ≤ s.params.payBytes ∧ ¬ charsFit s 0 s.seq.snap.lin.toNat) ∧
    (∃ s : State, 1 ≤ s.seq.snap.win.toInt ∧ imageFits s ∧ s.seq.snap.lin.toNat ≤ capacityOf s.seq.snap.p.toNat ∧
      s.seq.snap.lin.toNat ≤ s.params.payBytes ∧ charsFit s 0 s.seq.snap.lin.toNat) :=
  ⟨⟨ready p0 80 (snapOf 16 2 0) [] hi, by decide⟩, ⟨ready p0 80 (snapOf 16 2 0x80000000) [] hi, by decide⟩, ⟨ready p0 80 (snapOf 10 0 1) [] hi, by decide⟩,
   ⟨ready p0 80 (snapOf 22 0 1) [] hi, by decide⟩, ⟨ready p0 80 (snapOf 16 3 1) [] hi, by unfold imageFits; decide⟩,
   ⟨ready { numEngines := 1, pixBytes := 256, payBytes := 2 } 80 (snapOf 85 3 1) [] hi, by unfold imageFits; decide⟩,
   ⟨ready p0 80 (snapOf 16 1 1) [] [(0, 200)], by unfold imageFits charsFit; decide⟩,
   ⟨ready p0 80 (snapOf 16 2 2) [] hi, by unfold imageFits charsFit; decide⟩⟩

/-- The clauses of DECODE beyond those of ENCODE: V5.20 and V5.25 (a length that a check rejects), and V5.18's image with a header
of 2. -/
theorem witness_DecodeRecoversThePayload :
    (∃ s : State, 1 ≤ s.seq.snap.win.toInt ∧ imageFits s ∧ capacityOf s.seq.snap.p.toNat < headerOf s) ∧
    (∃ s : State, 1 ≤ s.seq.snap.win.toInt ∧ imageFits s ∧ headerOf s ≤ capacityOf s.seq.snap.p.toNat ∧ s.params.payBytes < headerOf s) ∧
    (∃ s : State, 1 ≤ s.seq.snap.win.toInt ∧ imageFits s ∧ headerOf s ≤ capacityOf s.seq.snap.p.toNat ∧ headerOf s ≤ s.params.payBytes ∧
      headerOf s = 2) :=
  ⟨⟨ready p0 81 (snapOf 16 0 1) (bytes 0 30 0 ++ bytes 30 2 1) [], by unfold imageFits; decide⟩,
   ⟨ready { numEngines := 1, pixBytes := 256, payBytes := 2 } 81 (snapOf 85 0 1) (bytes 0 30 0 ++ bytes 30 2 1) [], by unfold imageFits; decide⟩,
   ⟨ready p0 81 (snapOf 16 0 1) (bytes 0 30 0 ++ [(30, 1), (31, 0)]) [], by unfold imageFits; decide⟩⟩

/-- A word that decodes, for the second clause; the first and third hold of every instruction and every word. -/
theorem witness_EveryCommandHasExactlyOneWord : Instr.decode.wellFormed = true ∧ decode 0x51#32 = some .decode := by decide

/-- An ENCODE of "Hi" with two workers, and an image in which a DECODE with seven follows (V5.7, V5.17). -/
theorem witness_DecodeAfterEncodeGivesThePayload :
    ∃ s t u : State, 1 ≤ s.seq.snap.win.toInt ∧ imageFits s ∧ s.seq.snap.lin.toNat ≤ capacityOf s.seq.snap.p.toNat ∧
      s.seq.snap.lin.toNat ≤ s.params.payBytes ∧ charsFit s 0 s.seq.snap.lin.toNat ∧ exec .encode s = .next t ∧
      1 ≤ u.seq.snap.win.toInt ∧ u.seq.snap.p = s.seq.snap.p ∧ u.params = s.params ∧
      ∀ a, (a < 32 ∨ 33 ≤ a ∧ a < 33 + 7 * s.seq.snap.lin.toNat) → (u.pixAt a).toNat % 2 = (t.pixAt a).toNat % 2 := by
  obtain ⟨t, e⟩ : ∃ t, exec .encode (ready p0 80 (snapOf 16 2 2) [] hi) = .next t := ⟨_, exec_encode _⟩
  exact ⟨_, t, { ready p0 81 (snapOf 16 0 7) [] [] with pix := t.pix }, by decide, by unfold imageFits; decide, by decide, by decide,
    by unfold charsFit; decide, e, (by decide : 1 ≤ (7#32).toInt), rfl, rfl, fun a _ => rfl⟩

theorem witness_ResultsDoNotDependOnTheWorkerCount :
    ∃ (s t : State) (w : Word), 1 ≤ s.seq.snap.win.toInt ∧ 1 ≤ w.toInt ∧ exec .encode s = .next t :=
  ⟨ready p0 80 (snapOf 16 2 1) [] hi, _, 0x7FFFFFFF, by decide, by decide, exec_encode _⟩

/-- An accepted DECODE of the image of V5.7 with two workers, and a schedule in which its two ranges run on two engines, one bit
each in turn, with turns that are not possible yet among them; it completes, with "Hi" in PAY (V5.17). -/
theorem witness_EveryInterleavingEndsInTheSameState :
    ∃ (s t : State) (ts : List Turn), Inv s ∧ s.rst = false ∧ s.seq.phase = .run ∧ s.seq.job = none ∧ decode s.seq.cmd = some .decode ∧
      s.sched = .start :: ts ∧ (∀ x ∈ ts, dispatchTurn x = true) ∧ Sys2Proof.core.run (ts.length + 1) s = .next t ∧
      t.seq.phase = .idle ∧ payload [0, 1] t = ([72, 105], 2) := by
  let ts : List Turn := [.handOut 1, .engine 0, .handOut 0, .join] ++ (List.replicate 8 [Turn.engine 0, .engine 1]).flatten ++ [.join]
  let s : State := { ready p0 0x51 (snapOf 16 0 2) hiImage [] with sched := .start :: ts }
  have h : after (Sys2Proof.core.run (ts.length + 1) s) (fun t => (t.seq.phase, payload [0, 1] t)) = some (.idle, [72, 105], 2) := by decide
  cases e : Sys2Proof.core.run (ts.length + 1) s with
  | next t =>
    rw [e] at h
    simp only [after, Option.some.injEq, Prod.mk.injEq] at h
    exact ⟨s, t, ts, inv_sched (ready_inv (by decide) _ _ (by decide) (by decide) (by decide) (by decide)) _, rfl, rfl, rfl, by decide, rfl,
      by decide, e, h.1, by simp [h.2]⟩
  | fault r => rw [e] at h; cases h
  | refused r => rw [e] at h; cases h

theorem witness_AnOpenDispatchCompletes : ∃ (s : State) (j : Job), Inv s ∧ s.sched = [] ∧ s.seq.job = some j :=
  ⟨openState, .decrng, openState_inv, rfl, rfl⟩

/-- Each clause: an idle engine and a range left, of DECRNG and the last one of ENCODE; no range left; an engine that does not
exist; a busy engine; and the opening of an ENCODE of "Hi" and of a DECODE. -/
theorem witness_HandOutGivesTheNextRange :
    (∃ (s : State) (g : Engine), s.sched = [.handOut 1] ∧ s.seq.job = some .decrng ∧ s.disp.nxt < 1 ∧ s.engines[1]? = some g ∧ g.busy = false) ∧
    (∃ (s : State) (g : Engine), s.sched = [.handOut 0] ∧ s.seq.job = some .encode ∧ s.disp.nxt = 1 ∧ s.disp.nxt < s.seq.weff ∧
      s.engines[0]? = some g ∧ g.busy = false) ∧
    (∃ s : State, s.sched = [.handOut 0] ∧ s.seq.job = some .encode ∧ s.seq.weff ≤ s.disp.nxt) ∧
    (∃ s : State, s.sched = [.handOut 2] ∧ s.seq.job = some .decrng ∧ s.engines[2]? = none) ∧
    (∃ (s : State) (g : Engine), s.sched = [.handOut 0] ∧ s.seq.job = some .decrng ∧ s.engines[0]? = some g ∧ g.busy = true) ∧
    (∃ s : State, s.sched = [.start] ∧ s.rst = false ∧ s.seq.phase = .run ∧ s.seq.job = none ∧ 1 ≤ s.seq.snap.win.toInt ∧ imageFits s ∧
      decode s.seq.cmd = some .encode ∧ s.seq.snap.lin.toNat ≤ capacityOf s.seq.snap.p.toNat ∧
      s.seq.snap.lin.toNat ≤ s.params.payBytes ∧ charsFit s 0 s.seq.snap.lin.toNat) ∧
    (∃ s : State, s.sched = [.start] ∧ s.rst = false ∧ s.seq.phase = .run ∧ s.seq.job = none ∧ 1 ≤ s.seq.snap.win.toInt ∧ imageFits s ∧
      decode s.seq.cmd = some .decode ∧ headerOf s ≤ capacityOf s.seq.snap.p.toNat ∧ headerOf s ≤ s.params.payBytes) :=
  ⟨⟨{ openState with sched := [.handOut 1] }, _, rfl, rfl, by decide, rfl, rfl⟩,
   ⟨{ openEncodeState with sched := [.handOut 0], disp := { nxt := 1, live := [] } }, _, rfl, rfl, rfl, by decide, rfl, rfl⟩,
   ⟨{ openEncodeState with sched := [.handOut 0], disp := { nxt := 2, live := [] } }, rfl, rfl, by decide⟩,
   ⟨{ openState with sched := [.handOut 2] }, rfl, rfl, rfl⟩,
   ⟨{ handOut 0 openState with sched := [.handOut 0] }, _, rfl, rfl, rfl, rfl⟩,
   ⟨{ ready p0 0x50 (snapOf 16 2 2) [] hi with sched := [.start] }, by unfold imageFits charsFit; decide⟩,
   ⟨{ ready p0 0x51 (snapOf 16 0 2) hiImage [] with sched := [.start] }, by unfold imageFits; decide⟩⟩

theorem witness_CapacityBoundaryIsExact :
    (∃ s : State, imageFits s ∧ 1 ≤ s.seq.snap.win.toInt ∧ s.seq.snap.lin.toNat ≤ s.params.payBytes ∧ charsFit s 0 s.seq.snap.lin.toNat ∧
      s.seq.snap.lin.toNat = capacityOf s.seq.snap.p.toNat) ∧
    (∃ s : State, imageFits s ∧ 1 ≤ s.seq.snap.win.toInt ∧ s.seq.snap.lin.toNat ≤ s.params.payBytes ∧ charsFit s 0 s.seq.snap.lin.toNat ∧
      s.seq.snap.lin.toNat = capacityOf s.seq.snap.p.toNat + 1) :=
  ⟨⟨ready p0 80 (snapOf 16 2 1) [] (bytes 0 3 127), by unfold imageFits charsFit; decide⟩,
   ⟨ready p0 80 (snapOf 16 3 1) [] (bytes 0 3 127), by unfold imageFits charsFit; decide⟩⟩

theorem witness_EngineCountIsUnobservable :
    (∃ s t : State, exec .part s = .next t) ∧ Reg.res0 ≠ Reg.cfg :=
  ⟨⟨ready p0 48 (snap 7 4 2 0) [] [], _, rfl⟩, by decide⟩

/-- A running DECODE that fails with HDR_LENGTH: the hypotheses of the statements about errors. -/
theorem witness_ErrorsComeBeforeMutation :
    ∃ s t : State, s.status.err = false ∧ exec .decode s = .next t ∧ t.status.err = true ∧ t.status.errcode = .hdrLength := by
  have hc : firstError (decodeChecks (ready p0 81 (snapOf 16 0 1) (bytes 0 30 0 ++ bytes 30 2 1) [])) = none := by decide
  have hl : headerOf (ready p0 81 (snapOf 16 0 1) (bytes 0 30 0 ++ bytes 30 2 1) []) = 3 := by decide
  exact ⟨_, _, rfl, exec_decode_bad_length hc hl (code := .hdrLength) (by decide), rfl, rfl⟩

/-- A command that raises an error of its row. -/
theorem witness_EachCommandRaisesOnlyItsErrors :
    ∃ s t : State, s.status.err = false ∧ exec .embit s = .next t ∧ t.status.err = true :=
  ⟨ready p0 32 (snap 0x10 2 0 0) [] [], _, rfl, rfl, rfl⟩

/-- A successful DECODE writes LEN, WEFF and PAY; an ENCRNG writes PIX. -/
theorem witness_CommandsWriteOnlyWhatTheirRowsName :
    after (exec .decode (ready p0 81 (snapOf 16 0 1) (bytes 0 30 0 ++ [(30, 0), (31, 1)] ++ bytes 32 16 1) []))
      (fun t => (t.len.toNat, t.weff.toNat, t.pay)) = some (1, 1, [(0, 127)]) ∧
    after (exec .encrng (ready p0 64 (snap 0 1 0 16) (bytes 0 48 1) [(0, 63)])) (fun t => (t.pixAt 33).toNat) = some 0 := by decide

theorem witness_OnlyLowestBitsInsideTheImageChange :
    ∃ s t : State, exec .emchr s = .next t ∧ 3 * s.seq.snap.p.toNat ≤ 48 := by
  obtain ⟨t, e⟩ : ∃ t, exec .emchr (ready p0 34 (snap 0 65 0 16) (bytes 0 48 0xFF) []) = .next t := by
    rw [exec_emchr, runChecked_pass (by decide)]; exact ⟨_, rfl⟩
  exact ⟨_, t, e, by decide⟩

/-- Each clause: a register no command writes; LEN and a command other than DECODE; LEN and a DECODE that fails; and a turn of
an open dispatch, of a DECODE that goes on and of an ENCODE. -/
theorem witness_RegisterWritesDoNotReachTheRunningCommand :
    (∃ s t : State, Reg.wreq ∈ [Reg.arg0, .arg1, .arg2, .pixcnt, .wreq, .ctrl] ∧ exec .decode s = .next t) ∧
    (∃ s t : State, Reg.len = .len ∧ Instr.encode ≠ .decode ∧ exec .encode s = .next t) ∧
    (∃ s t : State, Reg.len = .len ∧ s.status.err = false ∧ t.status.err = true ∧ exec .decode s = .next t) ∧
    (∃ s t : State, s.sched = [.handOut 0] ∧ dispatchTurn (.handOut 0) = true ∧ s.seq.job = some .decode ∧ t.seq.job = some .decode ∧
      step s = .next t) ∧
    (∃ s t : State, s.sched = [.handOut 0] ∧ dispatchTurn (.handOut 0) = true ∧ s.seq.job ≠ some .decode ∧ step s = .next t) :=
  ⟨⟨ready p0 81 (snapOf 16 0 1) [] [], _, by decide, exec_decode _⟩, ⟨ready p0 80 (snapOf 16 2 1) [] hi, _, rfl, by decide, exec_encode _⟩,
   ⟨ready p0 81 (snapOf 16 0 0) [] [], raiseError .wcount (ready p0 81 (snapOf 16 0 0) [] []), rfl, rfl, rfl, by
     rw [exec_decode, openDecode, openChecked_fail (code := .wcount) (by decide), finishJob_raiseError]⟩,
   ⟨{ openJob .decode 2 2 (ready p0 0x51 (snapOf 16 0 2) [] []) with sched := [.handOut 0] }, _, rfl, rfl, rfl, rfl, rfl⟩,
   ⟨{ openEncodeState with sched := [.handOut 0] }, _, rfl, rfl, by decide, rfl⟩⟩

/-- A successful DECODE of a header of 0 (V5.18), and the join of its dispatch. -/
theorem witness_DecodeOverwritesLen :
    (∃ s t : State, s.status.err = false ∧ exec .decode s = .next t ∧ t.status.err = false) ∧
    (∃ s t : State, Inv s ∧ s.sched = [.join] ∧ s.seq.job = some .decode ∧ step s = .next t ∧ t.seq.phase = .idle) := by
  have h : Inv (openJob .decode 0 0 (ready p0 0x51 (snapOf 16 0 3) [] [])) :=
    opened_inv (by decide) _ (by decide) (by unfold jobChecked; decide)
  have hc : firstError (decodeChecks (ready p0 81 (snapOf 16 0 3) (bytes 0 32 0) [])) = none := by decide
  have hl : headerOf (ready p0 81 (snapOf 16 0 3) (bytes 0 32 0) []) = 0 := by decide
  exact ⟨⟨_, _, rfl, exec_decode_good_length hc hl (by decide), rfl⟩, ⟨_, _, inv_sched h [.join], rfl, rfl, rfl, rfl⟩⟩

/-- A step in the middle of a command: a hand-out; and a host write to LEN while a command runs. -/
theorem witness_ResultsAppearOnlyAtCompletion :
    (∃ s t : State, Inv s ∧ step s = .next t ∧ t.status.busy = true ∧ s.sched = [.handOut 0]) ∧
    (∃ s t : State, Inv s ∧ step s = .next t ∧ t.status.busy = true ∧ t.len ≠ s.len) := by
  have h := openState_inv
  refine ⟨⟨_, _, inv_sched h [.handOut 0], rfl, rfl, rfl⟩, ⟨{ openState with sched := [.host], host := [.access (.writeReg .word 0x30 5)] }, _, ?_, rfl, rfl, by decide⟩⟩
  exact ⟨h.1, ⟨h.2.1, h.2.2, h.2.3, h.2.4⟩, ⟨h.3.1, h.3.2, h.3.3, h.3.4⟩, dispatchInv_of_eq h.4 rfl rfl rfl rfl, ⟨h.5.1⟩⟩

/-- A step from a state of an open dispatch, for the invariants. -/
theorem witness_StepKeepsTheInvariant_and_StatusInvariant :
    ∃ s t : State, Inv s ∧ StatusInv s ∧ step s = .next t :=
  ⟨openState, _, openState_inv, openState_inv.2, rfl⟩

theorem witness_ResetMeetsTheInvariant :
    ∃ (p : Params) (pix pay : Memory), p.wellFormed = true ∧ Memory.wf pix ∧ Memory.wf pay ∧ Memory.within p.pixBytes pix ∧
      Memory.within p.payBytes pay ∧ pay = [(0, 72), (1, 105)] :=
  ⟨p0, [(63, 1)], hi, by decide, by decide, by decide, by decide, by decide, rfl⟩

theorem witness_OnlyTheHazardStopsTheMachine :
    step (hostState (.access (.readMem .pix .byte 63)) busyStatus) = .fault (.hostAccessDuringBusy .pix 63) := by rfl

end Sys2Proof.Tests
end

section
/-! SUPPORT. What a turn can do to the registers, STATUS and the sequencer, said once: how a running command ends, what a register
write touches, and the effect of a turn. -/

open Sys2Proof

namespace Sys2Proof.Machine

/-! ## How a running command ends -/

/-- What a running command ends in (60_exceptions.md R196, R197): an error completion with a code of R190 other than NONE,
with RES0 perhaps written (DECODE, 45_worker_orchestration.md R174), or a successful completion after an effect on results,
lengths and memories. -/
def CommandEnds (s t : State) : Prop :=
  (∃ code r0, code ≠ .noError ∧ t = raiseError code { s with res0 := r0 }) ∨
    ∃ r0 r1 r2 l w pix pay,
      t = complete { s with res0 := r0, res1 := r1, res2 := r2, len := l, weff := w, pix := pix, pay := pay }

theorem CommandEnds.frame {s t : State} (h : CommandEnds s t) : CommandFrame s t := by
  rcases h with ⟨code, r0, -, rfl⟩ | ⟨r0, r1, r2, l, w, pix, pay, rfl⟩
  · exact (raiseError_fails_res0 code s r0).toCommandFrame
  · exact (complete_succeeds s r0 r1 r2 l w pix pay).toCommandFrame

theorem CommandEnds.busy_clear {s t : State} (h : CommandEnds s t) : t.status.busy = false := by
  rcases h with ⟨code, r0, -, rfl⟩ | ⟨r0, r1, r2, l, w, pix, pay, rfl⟩ <;> rfl

/-- A command leaves an empty dispatcher, and no L and We, behind (log 10). -/
theorem CommandEnds.dispatcher_empty {s t : State} (h : CommandEnds s t) :
    t.disp = Dispatcher.reset ∧ t.seq.len = 0 ∧ t.seq.weff = 0 := by
  rcases h with ⟨code, r0, -, rfl⟩ | ⟨r0, r1, r2, l, w, pix, pay, rfl⟩ <;> exact ⟨rfl, rfl, rfl⟩

theorem raiseError_commandEnds {code : ErrCode} (h : code ≠ .noError) (s : State) : CommandEnds s (raiseError code s) :=
  .inl ⟨code, s.res0, h, rfl⟩

/-- A checked command whose checks raise real codes and whose effect is on results and PIX. -/
theorem runChecked_commandEnds {checks : List Check} {body : State → State} {s t : State} (r0 r1 r2 : Word) (pix : Memory)
    (hc : ∀ c ∈ checks, c.2 ≠ .noError) (hb : body s = { s with res0 := r0, res1 := r1, res2 := r2, pix := pix })
    (e : runChecked checks body s = .next t) : CommandEnds s t := by
  rcases runChecked_cases e with ⟨code, hf, e⟩ | ⟨-, e⟩ <;> cases e
  · obtain ⟨c, hm, rfl⟩ := mem_of_firstError hf
    exact raiseError_commandEnds (hc c hm) s
  · rw [hb]; exact .inr ⟨_, _, _, _, _, _, _, rfl⟩

/-- The join writes registers a command may write, and completes (45_worker_orchestration.md R172). -/
theorem joinJob_commandEnds (j : Job) (s : State) : CommandEnds s (joinJob j s) := by
  cases j <;> exact .inr ⟨_, _, _, _, _, _, _, rfl⟩

/-- A command with ranges, opened and run to its end. -/
theorem finishJob_opened_commandEnds (s : State) (j : Job) : CommandEnds s (finishJob (opened s j)) := by
  rcases opened_cases s j with ⟨code, r0, hc, e⟩ | ⟨l, we, pix, e, -⟩ <;> rw [e]
  · exact .inl ⟨code, r0, hc, rfl⟩
  · rw [finishJob_openJob, runRanges_eq]
    cases j <;> exact .inr ⟨_, _, _, _, _, _, _, rfl⟩

/-- Every command ends as `CommandEnds` says (30_encoding.md R99, 60_exceptions.md R194). -/
theorem exec_commandEnds {i : Instr} {s t : State} (e : exec i s = .next t) : CommandEnds s t := by
  have jobs : ∀ j : Job, exec i s = .next (finishJob (opened s j)) → CommandEnds s t := by
    intro j hj; rw [hj] at e; cases e; exact finishJob_opened_commandEnds s j
  cases i
  case encrng => exact jobs .encrng rfl
  case decrng => exact jobs .decrng rfl
  case encode => exact jobs .encode rfl
  case decode => exact jobs .decode rfl
  case addr => rw [exec_addr] at e; cases e; exact .inr ⟨_, _, _, _, _, _, _, rfl⟩
  case c2b => rw [exec_c2b] at e; cases e; exact .inr ⟨_, _, _, _, _, _, _, rfl⟩
  case exbit => rw [exec_exbit] at e; cases e; exact .inr ⟨_, _, _, _, _, _, _, rfl⟩
  case maxcap => rw [exec_maxcap] at e; cases e; exact .inr ⟨_, _, _, _, _, _, _, rfl⟩
  case limit => rw [exec_limit] at e; cases e; exact .inr ⟨_, _, _, _, _, _, _, rfl⟩
  case wrhdr => rw [exec_wrhdr] at e; exact runChecked_commandEnds _ _ _ _ (by simp [wrhdrChecks, imageChecks]) rfl e
  case rdhdr => rw [exec_rdhdr] at e; exact runChecked_commandEnds _ _ _ _ (by simp [imageChecks]) rfl e
  case embit => rw [exec_embit] at e; exact runChecked_commandEnds _ _ _ _ (by simp) rfl e
  case emchr => rw [exec_emchr] at e; exact runChecked_commandEnds _ _ _ _ (by simp [imageChecks, charSpanCheck]) rfl e
  case exchr => rw [exec_exchr] at e; exact runChecked_commandEnds _ _ _ _ (by simp [imageChecks, charSpanCheck]) rfl e
  case part => rw [exec_part] at e; exact runChecked_commandEnds _ _ _ _ (by simp [workerCheck]) rfl e

/-- The accepted command ends as `CommandEnds` says, an illegal word with ILLEGAL_CMD (30_encoding.md R94). -/
theorem runCommand_commandEnds {s t : State} (e : runCommand s = .next t) : CommandEnds s t := by
  unfold runCommand at e
  split at e
  · exact exec_commandEnds e
  · cases e; exact raiseError_commandEnds (by decide) s

/-- What starting the accepted command can do: open its dispatch, with what its checks established, or end it. -/
theorem startCommand_next {s t : State} (e : startCommand s = .next t) :
    CommandEnds s t ∨ ∃ j l we pix, t = openJob j l we { s with pix := pix } ∧
      (11 ≤ s.opP ∧ 3 * s.opP ≤ s.params.pixBytes) ∧ jobChecked (openJob j l we s) j := by
  rcases startCommand_cases s with ⟨j, h, -⟩ | h
  · rw [h] at e; cases e
    rcases opened_cases s j with ⟨code, r0, hc, e⟩ | ⟨l, we, pix, e, hi, hc, -⟩
    · exact .inl (.inl ⟨code, r0, hc, e⟩)
    · exact .inr ⟨j, l, we, pix, e, hi, hc⟩
  · rw [h] at e; exact .inl (runCommand_commandEnds e)

theorem accepted_iff (s : State) : s.accepted = true ↔ s.rst = false ∧ s.seq.phase = .run ∧ s.seq.job = none := by
  simp [State.accepted, and_assoc]

/-- The sequencer's turn on the whole command: nothing, or the command's end. -/
theorem runTurn_run_next {s t : State} (e : runTurn .run s = .next t) :
    t = s ∨ s.accepted = true ∧ runCommand s = .next t := by
  simp only [runTurn] at e
  split at e
  · exact .inr ⟨‹_›, e⟩
  · cases e; exact .inl rfl

/-- The sequencer's turn up to the dispatch: nothing, or the command's opening. -/
theorem runTurn_start_next {s t : State} (e : runTurn .start s = .next t) :
    t = s ∨ s.accepted = true ∧ startCommand s = .next t := by
  simp only [runTurn] at e
  split at e
  · exact .inr ⟨‹_›, e⟩
  · cases e; exact .inl rfl

/-! ## Writes of the host -/

/-- A CMD write is accepted with BUSY = 0 and ERR = 0 (30_encoding.md R97), or refused (R98). -/
theorem cmdWrite_cases (v : Word) (s : State) :
    (s.status.busy = false ∧ s.status.err = false ∧ cmdWrite v s = accept v s) ∨
      cmdWrite v s = { s with status := { s.status with ovr := true } } := by
  unfold cmdWrite
  split
  · exact .inr rfl
  · rename_i h
    simp only [Bool.or_eq_true, not_or, Bool.not_eq_true] at h
    exact .inl ⟨h.1, h.2, rfl⟩

/-- What no register write touches: the parameters, the result registers, WEFF, the memories, the dispatcher, the engines and
rst (10_state.md R24, R33), and the host's queue. -/
structure RegWriteFrame (s t : State) : Prop where
  params_eq : t.params = s.params
  results_kept : ResultsKept s t
  weff_eq : t.weff = s.weff
  memories_kept : MemoriesKept s t
  disp_eq : t.disp = s.disp
  engines_eq : t.engines = s.engines
  rst_eq : t.rst = s.rst
  host_eq : t.host = s.host

theorem regWrite_frame (r : Reg) (v : Word) (s : State) : RegWriteFrame s (regWrite r v s) := by
  cases r
  case cmd =>
    rw [regWrite]
    rcases cmdWrite_cases v s with ⟨-, -, e⟩ | e <;> rw [e] <;>
      exact ⟨rfl, ⟨rfl, rfl, rfl⟩, rfl, ⟨rfl, rfl⟩, rfl, rfl, rfl, rfl⟩
  all_goals exact ⟨rfl, ⟨rfl, rfl, rfl⟩, rfl, ⟨rfl, rfl⟩, rfl, rfl, rfl, rfl⟩

/-- What a register write does to STATUS and the sequencer: acceptance of a command, or no effect on the sequencer with STATUS
kept, OVR set (30_encoding.md R98), or acknowledged (60_exceptions.md R198). -/
theorem regWrite_cases (r : Reg) (v : Word) (s : State) :
    (s.status.busy = false ∧ s.status.err = false ∧ regWrite r v s = accept v s) ∨
      (regWrite r v s).seq = s.seq ∧ ((regWrite r v s).status = s.status ∨
        (regWrite r v s).status = { s.status with ovr := true } ∨ (regWrite r v s).status = s.status.acknowledge v) := by
  cases r
  case cmd =>
    rcases cmdWrite_cases v s with h | h
    · exact .inl h
    · exact .inr ⟨by rw [regWrite, h], .inr (.inl (by rw [regWrite, h]))⟩
  case status => exact .inr ⟨rfl, .inr (.inr rfl)⟩
  all_goals exact .inr ⟨rfl, .inl rfl⟩

/-- LEN takes the value of a write to its own slot only (10_state.md R35). -/
theorem regWrite_len (r : Reg) (v : Word) (s : State) : (regWrite r v s).len = if r = .len then v else s.len := by
  cases r
  case cmd => rw [regWrite]; rcases cmdWrite_cases v s with ⟨-, -, e⟩ | e <;> rw [e] <;> rfl
  all_goals rfl

/-- A slot is reached at its own offset only (10_state.md R26). -/
theorem regAt_eq_some {off : Nat} {r : Reg} (h : regAt off = some r) : off = r.offset := by
  unfold regAt at h
  split at h
  · obtain ⟨hlt, -⟩ := List.getElem?_eq_some_iff.1 h
    have hlt : off / 4 < 16 := hlt
    obtain ⟨q, hq⟩ : ∃ q, q = off / 4 := ⟨_, rfl⟩
    rw [show off = 4 * q by omega]
    rw [← hq] at h hlt
    interval_cases q <;> cases h <;> rfl
  · cases h

theorem regAdmitted_eq_some {w : Width} {off : Nat} {r : Reg} (h : regAdmitted w off = some r) :
    w = .word ∧ off = r.offset := by
  unfold regAdmitted at h
  split at h
  · exact ⟨‹_›, regAt_eq_some h⟩
  · cases h

/-! ## What a turn can do to the registers, STATUS and the sequencer -/

/-- The registers, STATUS and the sequencer as they were, and rst not asserted anew. -/
structure RegistersKept (s t : State) : Prop where
  params_eq : t.params = s.params
  status_eq : t.status = s.status
  seq_eq : t.seq = s.seq
  results_kept : ResultsKept s t
  lengths_kept : LengthsKept s t
  rst_le : t.rst = true → s.rst = true

/-- The memories, the dispatcher, the engines and the host's queue and answers are no registers. -/
theorem registersKept_update {s : State} {pix pay : Memory} {d : Dispatcher} {es : List Engine} {ops : List HostOp}
    {rs : List Response} :
    RegistersKept s { s with pix := pix, pay := pay, disp := d, engines := es, host := ops, seen := rs } :=
  ⟨rfl, rfl, rfl, ⟨rfl, rfl, rfl⟩, ⟨rfl, rfl⟩, id⟩

/-- Everything a turn can do to the registers, STATUS and the sequencer: nothing, one register write of the host, the end of
the running command, the opening of its dispatch, or reset. -/
inductive TurnEffect (s t : State) : Prop where
  | kept (h : RegistersKept s t)
  | wrote (r : Reg) (v : Word) (rest : List HostOp) (hr : s.rst = false)
      (hh : s.host = .access (.writeReg .word r.offset v) :: rest) (ht : t = answer 0 (regWrite r v { s with host := rest }))
  | ended (h : CommandEnds s t)
  | opened (j : Job) (l we : Nat) (pix : Memory) (hr : s.rst = false) (ht : t = openJob j l we { s with pix := pix })
  | reset (ht : t = assertReset s)

theorem hostAccess_effect {a : Access} {rest : List HostOp} {s t : State} (hr : s.rst = false)
    (hh : s.host = .access a :: rest) (e : hostAccess a { s with host := rest } = .next t) : TurnEffect s t := by
  cases a with
  | readReg w off =>
    simp only [hostAccess] at e
    split at e <;> cases e <;> exact .kept registersKept_update
  | writeReg w off v =>
    simp only [hostAccess] at e
    split at e <;> cases e
    · rename_i r h
      obtain ⟨rfl, rfl⟩ := regAdmitted_eq_some h
      exact .wrote r v rest hr hh rfl
    · exact .kept registersKept_update
  | readMem sp w off =>
    simp only [hostAccess, memGuard] at e
    split at e
    · split at e <;> cases e
      exact .kept registersKept_update
    · cases e; exact .kept registersKept_update
  | writeMem sp w off v =>
    simp only [hostAccess, memGuard] at e
    split at e
    · split at e <;> cases e
      cases sp <;> exact .kept registersKept_update
    · cases e; exact .kept registersKept_update

theorem hostTurn_effect {s t : State} (e : hostTurn s = .next t) : TurnEffect s t := by
  unfold hostTurn at e
  split at e
  · cases e; exact .kept registersKept_update
  · rename_i hr
    split at e
    · cases e; exact .kept registersKept_update
    · rename_i op rest hh
      cases op
      case access a => exact hostAccess_effect (by simpa using hr) hh e
      case waitIdle => cases e; exact .kept registersKept_update
      case waitIrq => cases e; exact .kept registersKept_update

theorem runTurn_effect {a : Turn} {s t : State} (e : runTurn a s = .next t) : TurnEffect s t := by
  cases a
  case host => exact hostTurn_effect e
  case run =>
    rcases runTurn_run_next e with rfl | ⟨-, e⟩
    · exact .kept registersKept_update
    · exact .ended (runCommand_commandEnds e)
  case start =>
    rcases runTurn_start_next e with rfl | ⟨ha, e⟩
    · exact .kept registersKept_update
    · rcases startCommand_next e with h | ⟨j, l, we, pix, h, -⟩
      · exact .ended h
      · exact .opened j l we pix ((accepted_iff s).1 ha).1 h
  case handOut k =>
    cases e
    rcases handOut_cases k s with e | ⟨_, _, -, -, -, -, e⟩ <;> rw [e]
    · exact .kept registersKept_update
    · exact .kept registersKept_update
  case engine k =>
    cases e
    obtain ⟨_, _, _, _, e⟩ := engineStep_keeps k s
    rw [e]; exact .kept registersKept_update
  case join =>
    cases e
    rcases joinStep_cases s with e | ⟨j, -, -, -, e⟩ <;> rw [e]
    · exact .kept registersKept_update
    · exact .ended (joinJob_commandEnds j s)
  case rstOn => cases e; exact .reset rfl
  case rstOff => cases e; exact .kept ⟨rfl, rfl, rfl, ⟨rfl, rfl, rfl⟩, ⟨rfl, rfl⟩, fun h => by cases h⟩

/-- Every step has the effect of a turn, on the state with its schedule advanced. -/
theorem step_effect {s t : State} (e : step s = .next t) : ∃ ts, TurnEffect { s with sched := ts } t := by
  obtain ⟨a, ts, e'⟩ := step_turn s
  exact ⟨ts, runTurn_effect (e'.symm.trans e)⟩

/-- No turn changes the open parameters (00_scope.md R6, log 3). -/
theorem TurnEffect.params_eq {s t : State} (h : TurnEffect s t) : t.params = s.params := by
  cases h with
  | kept h => exact h.params_eq
  | wrote r v rest _ _ ht => rw [ht]; exact (regWrite_frame r v { s with host := rest }).params_eq
  | ended h => exact h.frame.params_eq
  | opened j l we pix _ ht => rw [ht]; rfl
  | reset ht => rw [ht]; rfl

/-- While rst is asserted no turn starts anything (70_reset_and_hazards.md R220). -/
theorem TurnEffect.resetInv {s t : State} (h : TurnEffect s t) (hs : ResetInv s) : ResetInv t := by
  refine ⟨fun hrst => ?_⟩
  cases h with
  | kept h => rw [h.seq_eq]; exact hs.rst_idle (h.rst_le hrst)
  | wrote r v rest hr _ ht =>
    have hf : t.rst = s.rst := by rw [ht]; exact (regWrite_frame r v { s with host := rest }).rst_eq
    rw [hf, hr] at hrst; cases hrst
  | ended h => exact h.frame.phase_idle
  | opened j l we pix hr ht =>
    have hf : t.rst = s.rst := by rw [ht]; rfl
    rw [hf, hr] at hrst; cases hrst
  | reset ht => rw [ht]; rfl

end Sys2Proof.Machine
end

section
/-! SUPPORT. The invariants of the state that follow from the effect of a turn: the form of STATUS, and the results during a command. -/

open Sys2Proof

namespace Sys2Proof.Machine

/-! ## The form of STATUS -/

/-- The form of STATUS reads STATUS and the phase only. -/
theorem statusInv_of_eq {s t : State} (h : StatusInv s) (h1 : t.status = s.status) (h2 : t.seq.phase = s.seq.phase) :
    StatusInv t :=
  ⟨by rw [h1, h2]; exact h.1, by rw [h1]; exact h.2, by rw [h1]; exact h.3, by rw [h1]; exact h.4⟩

theorem CommandEnds.statusInv {s t : State} (h : CommandEnds s t) (hs : StatusInv s) : StatusInv t := by
  rcases h with ⟨code, r0, hc, rfl⟩ | ⟨r0, r1, r2, l, w, pix, pay, rfl⟩
  · exact ⟨by simp, by simp, by simp, by simpa using hc⟩
  · exact ⟨by simp, by simp, by simp, by simpa using hs.err_iff_code⟩

theorem accept_statusInv {s : State} (h : StatusInv s) (he : s.status.err = false) (v : Word) : StatusInv (accept v s) :=
  ⟨by simp, by simp, by simp [he], by simpa using h.err_iff_code⟩

/-- An acknowledgement clears ERR and ERRCODE together (60_exceptions.md R198). -/
theorem acknowledge_err_iff_code {st : Status} (h : st.err = true ↔ st.errcode ≠ .noError) (v : Word) :
    (st.acknowledge v).err = true ↔ (st.acknowledge v).errcode ≠ .noError := by
  unfold Status.acknowledge
  cases v.getLsbD 2 <;> simp [h]

theorem regWrite_statusInv {s : State} (h : StatusInv s) (r : Reg) (v : Word) : StatusInv (regWrite r v s) := by
  rcases regWrite_cases r v s with ⟨-, he, e⟩ | ⟨hq, e | e | e⟩
  · rw [e]; exact accept_statusInv h he v
  · exact statusInv_of_eq h e (by rw [hq])
  · exact ⟨by rw [e, hq]; exact h.1, by rw [e]; exact h.2, by rw [e]; exact h.3, by rw [e]; exact h.4⟩
  · refine ⟨by rw [e, hq]; exact h.1, fun hb => ?_, fun hb => ?_, by rw [e]; exact acknowledge_err_iff_code h.4 v⟩ <;>
      rw [e] at hb ⊢
    · simp [Status.acknowledge, h.busy_not_done hb]
    · simp [Status.acknowledge, h.busy_not_err hb]

/-- Every turn keeps the form of STATUS (10_state.md R30). -/
theorem TurnEffect.statusInv {s t : State} (h : TurnEffect s t) (hs : StatusInv s) : StatusInv t := by
  cases h with
  | kept h => exact statusInv_of_eq hs h.status_eq (by rw [h.seq_eq])
  | wrote r v rest _ _ ht =>
    have hs' : StatusInv { s with host := rest } := statusInv_of_eq hs rfl rfl
    rw [ht]; exact statusInv_of_eq (regWrite_statusInv hs' r v) rfl rfl
  | ended h => exact h.statusInv hs
  | opened j l we pix _ ht => rw [ht]; exact statusInv_of_eq hs rfl rfl
  | reset ht => rw [ht]; exact ⟨by simp, by simp, by simp, by simp⟩

/-- Settles O57: the step is one turn, and every turn keeps the form of STATUS. -/
theorem stepKeepsTheStatusInvariant : Obligations.StepKeepsTheStatusInvariant := by
  intro s t h e
  obtain ⟨ts, h'⟩ := step_effect e
  exact h'.statusInv (statusInv_of_eq h rfl rfl)

/-! ## Results during a command -/

/-- A turn after which a command runs has written no result register and no WEFF, and LEN only as a host write to 0x30 does
(10_state.md R33, 70_reset_and_hazards.md R232). -/
theorem TurnEffect.results_kept {s t : State} (h : TurnEffect s t) (hb : t.status.busy = true) :
    ResultsKept s t ∧ t.weff = s.weff ∧
      (t.len ≠ s.len → ∃ v rest, s.host = .access (.writeReg .word 0x30 v) :: rest ∧ t.host = rest ∧ t.len = v) := by
  cases h with
  | kept h => exact ⟨h.results_kept, h.lengths_kept.2, fun hl => absurd h.lengths_kept.1 hl⟩
  | wrote r v rest _ hh ht =>
    have f := regWrite_frame r v { s with host := rest }
    have hlen := regWrite_len r v { s with host := rest }
    rw [ht]
    refine ⟨f.results_kept, f.weff_eq, fun hl => ?_⟩
    by_cases hr : r = .len
    · rw [if_pos hr] at hlen
      subst hr
      exact ⟨v, rest, hh, f.host_eq, hlen⟩
    · rw [if_neg hr] at hlen; exact absurd hlen hl
  | ended h => rw [h.busy_clear] at hb; cases hb
  | opened j l we pix _ ht => rw [ht]; exact ⟨⟨rfl, rfl, rfl⟩, rfl, fun hl => absurd rfl hl⟩
  | reset ht => rw [ht] at hb; cases hb

/-- Settles O56: the turn that completes a command clears BUSY, and no other turn of the block writes a result. -/
theorem resultsAppearOnlyAtCompletion : Obligations.ResultsAppearOnlyAtCompletion := by
  intro s t _ e hb
  obtain ⟨ts, h⟩ := step_effect e
  exact h.results_kept hb

end Sys2Proof.Machine
end

section
/-! SUPPORT. The invariant of the whole machine: an open dispatch, its engines and its live set, the memories, and every step. -/

open Sys2Proof

namespace Sys2Proof.Machine

/-! ## What an open dispatch reads of the state -/

theorem jobRange_of_seq {s t : State} (h : t.seq = s.seq) (i : Nat) (j : Job) : t.jobRange i j = s.jobRange i j := by
  cases j <;> simp [State.jobRange, State.opA0, State.opA1, h]

theorem jobCount_of_seq {s t : State} (h : t.seq = s.seq) (j : Job) : t.jobCount j = s.jobCount j := by
  cases j <;> simp [State.jobCount, h]

theorem jobChecked_of_seq {s t : State} (h : t.seq = s.seq) (hp : t.params = s.params) (j : Job) :
    jobChecked t j ↔ jobChecked s j := by
  cases j <;> simp [jobChecked, State.opA0, State.opA1, State.opP, State.opWin, h, hp]

/-- A busy engine's invariant lasts while the sequencer stays and `nxt` grows. -/
theorem EngineInv.mono {s t : State} {j : Job} {g : Engine} (h : EngineInv s j g) (hq : t.seq = s.seq)
    (hn : s.disp.nxt ≤ t.disp.nxt) : EngineInv t j g :=
  { h with range_eq := by rw [jobRange_of_seq hq]; exact h.range_eq, idx_lt := lt_of_lt_of_le h.idx_lt hn }

/-- The range of a busy engine lies in PIX and in PAY (60_exceptions.md R193). -/
theorem EngineInv.range_within {s : State} {j : Job} {g : Engine} (h : EngineInv s j g) (hj : JobInv s j) :
    33 + 7 * (g.s + g.n) ≤ s.params.pixBytes ∧ g.s + g.n ≤ s.params.payBytes := by
  have := jobRange_bound hj.image_fits hj.checked (lt_of_lt_of_le h.idx_lt hj.nxt_le)
  rw [← h.range_eq] at this
  exact this

/-- Where an engine is busy a dispatch is open, and the engine meets its invariant. -/
theorem DispatchInv.job_of_busy {s : State} (h : DispatchInv s) {g : Engine} (hg : g ∈ s.engines) (hb : g.busy = true) :
    ∃ j, s.seq.job = some j ∧ JobInv s j ∧ EngineInv s j g := by
  cases hj : s.seq.job with
  | none => rw [(h.no_job hj).1 g hg] at hb; cases hb
  | some j => exact ⟨j, rfl, h.open_job j hj, (h.open_job j hj).engine_inv g hg hb⟩

/-- A dispatch is open in phase RUN only. -/
theorem DispatchInv.job_none {s : State} (h : DispatchInv s) (hp : s.seq.phase ≠ .run) : s.seq.job = none := by
  cases hj : s.seq.job with
  | none => rfl
  | some j => exact absurd (h.open_job j hj).phase_run hp

/-- Idle engines, an empty dispatcher and no job meet the dispatcher's invariant. -/
theorem dispatchInv_of_idle {s : State} (hc : s.engines.length = s.params.numEngines)
    (hi : ∀ g ∈ s.engines, g = Engine.idle) (hd : s.disp = Dispatcher.reset)
    (hj : s.seq.job = none) (hl : s.seq.len = 0 ∧ s.seq.weff = 0) : DispatchInv s :=
  ⟨hc, fun g hg _ => hi g hg, fun _ => ⟨hi, hd, hl⟩, fun j h => by rw [hj] at h; cases h⟩

/-- A command that ends with every engine idle leaves the dispatcher's invariant. -/
theorem CommandEnds.dispatchInv {s t : State} (h : CommandEnds s t) (hs : DispatchInv s)
    (hi : ∀ g ∈ s.engines, g = Engine.idle) : DispatchInv t := by
  have f := h.frame
  obtain ⟨hd, hl⟩ := h.dispatcher_empty
  exact dispatchInv_of_idle (by rw [f.engines_eq, f.params_eq]; exact hs.engine_count) (by rw [f.engines_eq]; exact hi) hd
    f.job_none hl

/-! ## The live set and the busy engines -/

/-- The range indices of the busy engines, in engine order: what `JobInv.live_eq` compares with the live set. -/
def busyIndices (es : List Engine) : List Nat := (es.filter fun g => g.busy).map fun g => g.idx

/-- The index of a busy engine, and nothing of an idle one. -/
def Engine.ownIndex (g : Engine) : List Nat := if g.busy then [g.idx] else []

theorem busyIndices_append_cons (l₁ l₂ : List Engine) (g : Engine) :
    (busyIndices (l₁ ++ g :: l₂)).Perm (g.ownIndex ++ busyIndices (l₁ ++ l₂)) := by
  have e : busyIndices (l₁ ++ g :: l₂) = busyIndices l₁ ++ g.ownIndex ++ busyIndices l₂ := by
    cases h : g.busy <;> simp [busyIndices, Engine.ownIndex, h]
  have e' : busyIndices (l₁ ++ l₂) = busyIndices l₁ ++ busyIndices l₂ := by simp [busyIndices]
  rw [e, e', ← List.append_assoc]
  exact List.perm_append_comm.append_right _

/-- Replacing engine `e` exchanges its index for that of the engine put there. -/
theorem busyIndices_set {es : List Engine} {e : Nat} {g : Engine} (h : es[e]? = some g) (g' : Engine) :
    (g.ownIndex ++ busyIndices (es.set e g')).Perm (g'.ownIndex ++ busyIndices es) := by
  obtain ⟨hlt, rfl⟩ := List.getElem?_eq_some_iff.1 h
  obtain ⟨l₁, l₂, e1, -, e2⟩ := List.exists_of_set (a' := g') hlt
  rw [e2]
  generalize es[e] = g at *
  subst e1
  exact ((busyIndices_append_cons l₁ l₂ g').append_left _).trans <|
    (List.perm_append_comm_assoc _ _ _).trans ((busyIndices_append_cons l₁ l₂ g).symm.append_left _)

/-- Engine `e` of an open dispatch becomes `g'`, and the dispatcher `d`: what is left to show of the two, the memories being
free. -/
theorem DispatchInv.set {s : State} {j : Job} {e : Nat} {g' : Engine} {d : Dispatcher} {pix pay : Memory} (h : DispatchInv s)
    (hj : s.seq.job = some j) (hidle : g'.busy = false → g' = Engine.idle)
    (hnew : g'.busy = true → EngineInv { s with disp := d } j g') (hn : s.disp.nxt ≤ d.nxt) (hc : d.nxt ≤ s.jobCount j)
    (hl : (busyIndices (s.engines.set e g')).Perm d.live) (hd : d.live.Nodup) :
    DispatchInv { s with pix := pix, pay := pay, engines := s.engines.set e g', disp := d } := by
  have J := h.open_job j hj
  have mem : ∀ g ∈ s.engines.set e g', g ∈ s.engines ∨ g = g' := fun g => List.mem_or_eq_of_mem_set
  refine ⟨by rw [List.length_set]; exact h.engine_count, fun g hg hb => ?_, fun hn => absurd (hj.symm.trans hn) (by simp),
    fun i hi => ?_⟩
  · rcases mem g hg with hg | rfl
    · exact h.idle_clear g hg hb
    · exact hidle hb
  · obtain rfl : j = i := Option.some.inj (hj.symm.trans hi)
    refine ⟨J.phase_run, J.image_fits, (jobChecked_of_seq rfl rfl j).2 J.checked, by rw [jobCount_of_seq rfl]; exact hc, hl,
      hd, fun g hg hb => ?_⟩
    rcases mem g hg with hg | rfl
    · exact (J.engine_inv g hg hb).mono rfl hn
    · exact (hnew hb).mono rfl (le_refl _)

/-! ## The turns of an open dispatch keep the dispatcher's invariant -/

theorem ownIndex_of_busy {g : Engine} (h : g.busy = true) : g.ownIndex = [g.idx] := if_pos h

theorem ownIndex_of_idle {g : Engine} (h : g.busy = false) : g.ownIndex = [] := by simp [Engine.ownIndex, h]

/-- Every live index has been handed out. -/
theorem JobInv.lt_nxt_of_live {s : State} {j : Job} (h : JobInv s j) {i : Nat} (hi : i ∈ s.disp.live) :
    i < s.disp.nxt := by
  obtain ⟨g, hg, rfl⟩ := List.mem_map.1 (h.live_eq.mem_iff.2 hi)
  obtain ⟨hg, hb⟩ := List.mem_filter.1 hg
  exact (h.engine_inv g hg hb).idx_lt

/-- The engine given the next range meets its invariant once the range is counted as handed out. -/
theorem engineFor_engineInv {s t : State} (j : Job) (hq : t.seq = s.seq) (hn : t.disp.nxt = s.disp.nxt + 1) :
    EngineInv t j (engineFor j s.disp.nxt s) where
  dir_eq := rfl
  range_eq := (jobRange_of_seq hq _ j).symm
  idx_lt := by rw [hn]; exact Nat.lt_succ_self _
  j_le := Nat.zero_le _
  k_le := Nat.zero_le _
  k_done := fun _ => rfl
  acc_clear := fun _ => rfl
  acc_unused := fun _ => rfl

theorem handOut_dispatchInv {s : State} (h : DispatchInv s) (e : Nat) : DispatchInv (handOut e s) := by
  rcases handOut_cases e s with eq | ⟨j, g, hj, hlt, hg, hb, eq⟩ <;> rw [eq]
  · exact h
  · have J := h.open_job j hj
    have hp := busyIndices_set hg (engineFor j s.disp.nxt s)
    rw [ownIndex_of_idle hb, ownIndex_of_busy rfl] at hp
    refine h.set hj (fun hb => by cases hb) (fun _ => engineFor_engineInv j rfl rfl) (Nat.le_succ _) hlt ?_ ?_
    · exact hp.trans ((J.live_eq.cons _).trans (List.perm_append_singleton _ _).symm)
    · have hnew : s.disp.nxt ∉ s.disp.live := fun hi => lt_irrefl _ (J.lt_nxt_of_live hi)
      exact List.nodup_append.2 ⟨J.live_nodup, List.nodup_singleton _, by
        intro a ha b hb; rw [List.mem_singleton.1 hb]; exact fun hab => hnew (hab ▸ ha)⟩

/-! ### One bit of a range task -/

/-- An engine after one bit, its accumulator at `acc`. -/
def Engine.afterBit (g : Engine) (acc : BitVec 7) : Engine := { g.advance with acc := acc }

/-- After bit 6 the engine stands at the next character, before it at the next bit (45_worker_orchestration.md R171). -/
theorem Engine.afterBit_eq (g : Engine) (acc : BitVec 7) :
    g.k = 6 ∧ g.afterBit acc = { g with j := g.j + 1, k := 0, acc := acc } ∨
      g.k ≠ 6 ∧ g.afterBit acc = { g with k := g.k + 1, acc := acc } := by
  unfold Engine.afterBit Engine.advance
  split
  · exact .inl ⟨‹_›, rfl⟩
  · exact .inr ⟨‹_›, rfl⟩

theorem Engine.advance_eq_afterBit (g : Engine) : g.advance = g.afterBit g.acc := by
  unfold Engine.afterBit Engine.advance; split <;> rfl

/-- One bit keeps an engine's invariant, where the accumulator is empty after a character and in an encode task. -/
theorem EngineInv.afterBit {s : State} {j : Job} {g : Engine} (h : EngineInv s j g) (hlt : g.j < g.n) {acc : BitVec 7}
    (h6 : g.k = 6 → acc = 0) (he : g.dir = .enc → acc = 0) : EngineInv s j (g.afterBit acc) := by
  have hk := h.k_le
  rcases g.afterBit_eq acc with ⟨hk6, e⟩ | ⟨hk6, e⟩ <;> rw [e]
  · exact { h with
      j_le := hlt, k_le := Nat.zero_le _, k_done := fun _ => rfl, acc_clear := fun _ => h6 hk6, acc_unused := he }
  · exact { h with
      k_le := by simp only; omega
      k_done := fun hd => by simp only at hd; omega
      acc_clear := fun hk0 => by simp only at hk0; omega
      acc_unused := he }

/-- Putting an engine's next bit state in its place keeps the dispatcher's invariant: it keeps its index, so the live set
stands. -/
theorem DispatchInv.afterBit {s : State} {e : Nat} {g : Engine} {pix pay : Memory} (h : DispatchInv s)
    (hg : s.engines[e]? = some g) (hb : g.busy = true) (hlt : g.j < g.n) {acc : BitVec 7} (h6 : g.k = 6 → acc = 0)
    (hd : g.dir = .enc → acc = 0) :
    DispatchInv { s with pix := pix, pay := pay, engines := s.engines.set e (g.afterBit acc) } := by
  obtain ⟨j, hj, J, E⟩ := h.job_of_busy (List.mem_of_getElem? hg) hb
  have hown : (g.afterBit acc).busy = true ∧ (g.afterBit acc).idx = g.idx := by
    rcases g.afterBit_eq acc with ⟨-, e⟩ | ⟨-, e⟩ <;> rw [e] <;> exact ⟨hb, rfl⟩
  have hperm := busyIndices_set hg (g.afterBit acc)
  rw [ownIndex_of_busy hb, ownIndex_of_busy hown.1, hown.2] at hperm
  exact h.set hj (fun hn => by rw [hown.1] at hn; cases hn) (fun _ => E.afterBit hlt h6 hd) (le_refl _) J.nxt_le
    (((List.perm_cons _).1 hperm).trans J.live_eq) J.live_nodup

theorem finishRange_dispatchInv {s : State} (h : DispatchInv s) {e : Nat} {g : Engine} (hg : s.engines[e]? = some g)
    (hb : g.busy = true) : DispatchInv (finishRange e g s) := by
  obtain ⟨j, hj, J, -⟩ := h.job_of_busy (List.mem_of_getElem? hg) hb
  have hperm := busyIndices_set hg Engine.idle
  rw [ownIndex_of_busy hb, ownIndex_of_idle rfl] at hperm
  refine h.set hj (fun _ => rfl) (fun hn => by cases hn) (le_refl _) J.nxt_le ?_ (J.live_nodup.erase _)
  have := (hperm.trans J.live_eq).erase g.idx
  rwa [List.singleton_append, List.erase_cons_head] at this

theorem encodeBit_dispatchInv {s : State} (h : DispatchInv s) {e : Nat} {g : Engine} (hg : s.engines[e]? = some g)
    (hb : g.busy = true) (hlt : g.j < g.n) (hd : g.dir = .enc) : DispatchInv (encodeBit e g s) := by
  obtain ⟨j, -, -, E⟩ := h.job_of_busy (List.mem_of_getElem? hg) hb
  have ha := E.acc_unused hd
  rw [encodeBit, g.advance_eq_afterBit]
  exact h.afterBit hg hb hlt (fun _ => ha) (fun _ => ha)

theorem decodeBit_dispatchInv {s : State} (h : DispatchInv s) {e : Nat} {g : Engine} (hg : s.engines[e]? = some g)
    (hb : g.busy = true) (hlt : g.j < g.n) (hd : g.dir = .dec) : DispatchInv (decodeBit e g s) := by
  have hne : g.dir ≠ .enc := by rw [hd]; decide
  unfold decodeBit
  split
  · exact h.afterBit (acc := 0) hg hb hlt (fun _ => rfl) (fun _ => rfl)
  · exact h.afterBit hg hb hlt (fun h6 => absurd h6 ‹_›) (fun h => absurd h hne)

theorem engineStep_dispatchInv {s : State} (h : DispatchInv s) (e : Nat) : DispatchInv (engineStep e s) := by
  rcases engineStep_cases e s with eq | ⟨g, hg, hb, ⟨hlt, hd, eq⟩ | ⟨hlt, hd, eq⟩ | ⟨-, eq⟩⟩ <;> rw [eq]
  · exact h
  · exact encodeBit_dispatchInv h hg hb hlt hd
  · exact decodeBit_dispatchInv h hg hb hlt hd
  · exact finishRange_dispatchInv h hg hb

/-- No live range, no busy engine. -/
theorem JobInv.not_busy {s : State} {j : Job} (h : JobInv s j) (hl : s.disp.live = []) :
    ∀ g ∈ s.engines, g.busy = false := by
  have hn := h.live_eq
  rw [hl] at hn
  have hf := List.filter_eq_nil_iff.1 (List.map_eq_nil_iff.1 hn.eq_nil)
  exact fun g hg => by simpa using hf g hg

theorem joinStep_dispatchInv {s : State} (h : DispatchInv s) : DispatchInv (joinStep s) := by
  rcases joinStep_cases s with eq | ⟨j, hj, -, hl, eq⟩ <;> rw [eq]
  · exact h
  · exact (joinJob_commandEnds j s).dispatchInv h fun g hg => h.idle_clear g hg ((h.open_job j hj).not_busy hl g hg)

/-! ## The sequencer's, the host's and the reset turns keep it -/

/-- An opened dispatch, with no range handed out. -/
theorem openJob_dispatchInv {s : State} (h : DispatchInv s) (hp : s.seq.phase = .run) (hj : s.seq.job = none) {j : Job}
    {l we : Nat} (hi : 11 ≤ s.opP ∧ 3 * s.opP ≤ s.params.pixBytes) (hc : jobChecked (openJob j l we s) j) :
    DispatchInv (openJob j l we s) := by
  have idle := (h.no_job hj).1
  refine ⟨h.engine_count, h.idle_clear, fun hn => (by cases hn), fun i e => ?_⟩
  obtain rfl : j = i := Option.some.inj e
  have hnil : s.engines.filter (fun g => g.busy) = [] := List.filter_eq_nil_iff.2 fun g hg => by simp [idle g hg]
  exact ⟨hp, hi, hc, Nat.zero_le _, by rw [openJob_engines, hnil]; exact .refl _, List.nodup_nil, fun g hg hb => by
    rw [idle g hg] at hb; cases hb⟩

theorem startCommand_dispatchInv {s t : State} (h : DispatchInv s) (ha : s.accepted = true) (e : startCommand s = .next t) :
    DispatchInv t := by
  obtain ⟨-, hp, hj⟩ := (accepted_iff s).1 ha
  rcases startCommand_next e with h' | ⟨j, l, we, pix, rfl, hi, hc⟩
  · exact h'.dispatchInv h (h.no_job hj).1
  · exact dispatchInv_of_eq (openJob_dispatchInv h hp hj hi hc) rfl rfl rfl rfl

theorem regWrite_dispatchInv {s : State} (h : DispatchInv s) (hs : StatusInv s) (r : Reg) (v : Word) :
    DispatchInv (regWrite r v s) := by
  rcases regWrite_cases r v s with ⟨hb, -, e⟩ | ⟨hq, -⟩
  · have hp : s.seq.phase ≠ .run := fun hp => by rw [hs.busy_iff_run.2 hp] at hb; cases hb
    obtain ⟨hi, hd, -⟩ := h.no_job (h.job_none hp)
    rw [e]
    exact dispatchInv_of_idle h.engine_count hi hd rfl ⟨rfl, rfl⟩
  · have f := regWrite_frame r v s
    exact dispatchInv_of_eq h f.params_eq hq f.disp_eq f.engines_eq

theorem hostTurn_dispatchInv {s t : State} (h : DispatchInv s) (hs : StatusInv s) (e : hostTurn s = .next t) :
    DispatchInv t := by
  obtain ⟨ops, rs, rfl | ⟨r, v, -, rfl⟩ | ⟨sp, off, v, -, -, rfl⟩⟩ := hostTurn_next e
  · exact dispatchInv_of_eq h rfl rfl rfl rfl
  · refine regWrite_dispatchInv ?_ ?_ r v
    · exact dispatchInv_of_eq h rfl rfl rfl rfl
    · exact statusInv_of_eq hs rfl rfl
  · cases sp <;> exact dispatchInv_of_eq h rfl rfl rfl rfl

/-- Every turn keeps the dispatcher's invariant (10_state.md R40, R41). -/
theorem runTurn_dispatchInv {a : Turn} {s t : State} (h : Inv s) (e : runTurn a s = .next t) : DispatchInv t := by
  have hd := h.dispatch_ok
  cases a
  case host => exact hostTurn_dispatchInv hd h.status_ok e
  case run =>
    rcases runTurn_run_next e with rfl | ⟨ha, e⟩
    · exact hd
    · exact (runCommand_commandEnds e).dispatchInv hd (hd.no_job ((accepted_iff s).1 ha).2.2).1
  case start =>
    rcases runTurn_start_next e with rfl | ⟨ha, e⟩
    · exact hd
    · exact startCommand_dispatchInv hd ha e
  case handOut k => cases e; exact handOut_dispatchInv hd k
  case engine k => cases e; exact engineStep_dispatchInv hd k
  case join => cases e; exact joinStep_dispatchInv hd
  case rstOn =>
    cases e
    exact dispatchInv_of_idle (by simp) (fun g hg => List.eq_of_mem_replicate hg) rfl rfl ⟨rfl, rfl⟩
  case rstOff => cases e; exact dispatchInv_of_eq hd rfl rfl rfl rfl

/-! ## Every turn keeps the memories -/

theorem memWrite_memInv {s : State} (h : MemInv s) {sp : Space} {off : Nat} (ho : off < s.spaceBytes sp) (v : Byte) :
    MemInv (memWrite sp off v s) := by
  cases sp
  · exact ⟨write_wf h.pix_wf _ _, h.pay_wf, write_within h.pix_within ho _, h.pay_within⟩
  · exact ⟨h.pix_wf, write_wf h.pay_wf _ _, h.pix_within, write_within h.pay_within ho _⟩

theorem hostTurn_memInv {s t : State} (h : MemInv s) (e : hostTurn s = .next t) : MemInv t := by
  obtain ⟨ops, rs, rfl | ⟨r, v, -, rfl⟩ | ⟨sp, off, v, -, ho, rfl⟩⟩ := hostTurn_next e
  · exact memInv_of_eq h rfl rfl rfl
  · obtain ⟨hp, -, -, ⟨hpix, hpay⟩, -⟩ := regWrite_frame r v { s with host := ops, seen := rs }
    exact memInv_of_eq h hp hpix hpay
  · refine memWrite_memInv ?_ ?_ v
    · exact memInv_of_eq h rfl rfl rfl
    · cases sp <;> exact ho

/-- A step of an engine writes inside the range of its index, so inside PIX or PAY (60_exceptions.md R193). -/
theorem engineStep_memInv {s : State} (h : MemInv s) (hd : DispatchInv s) (e : Nat) : MemInv (engineStep e s) := by
  rcases engineStep_cases e s with eq | ⟨g, hg, hb, hcase⟩
  · rw [eq]; exact h
  · obtain ⟨j, -, J, E⟩ := hd.job_of_busy (List.mem_of_getElem? hg) hb
    obtain ⟨hpix, hpay⟩ := E.range_within J
    have hk := E.k_le
    rcases hcase with ⟨hlt, -, eq⟩ | ⟨hlt, -, eq⟩ | ⟨-, eq⟩ <;> rw [eq]
    · have ho : g.pixOff < s.params.pixBytes := by simp only [Engine.pixOff, boff_eq, c2b_eq]; omega
      exact memInv_of_eq (memWrite_memInv (sp := .pix) h ho _) rfl rfl rfl
    · have ho : g.s + g.j < s.params.payBytes := by omega
      unfold decodeBit
      split
      · exact memInv_of_eq (memWrite_memInv (sp := .pay) h ho _) rfl rfl rfl
      · exact memInv_of_eq h rfl rfl rfl
    · exact memInv_of_eq h rfl rfl rfl

/-- The end of the running command, from wherever it stands. -/
theorem commandEnd_memInv {s : State} (h : MemInv s) (hd : DispatchInv s) : MemInv (commandEnd s) := by
  unfold commandEnd
  split
  · rename_i j hj
    exact runRanges_memInv h (hd.open_job j hj).image_fits (hd.open_job j hj).checked
  · split
    · exact runCommand_memInv h ‹_›
    · exact h
    · exact h

theorem commandEnd_params (s : State) : (commandEnd s).params = s.params := by
  unfold commandEnd
  split
  · rw [runRanges_eq]
  · split
    · exact (runCommand_commandEnds ‹_›).frame.params_eq
    · rfl
    · rfl

/-- A reset leaves a canonical mixture of the memories it found and those of the command's end (70_reset_and_hazards.md R221,
R222). -/
theorem assertReset_memInv {s : State} (h : MemInv s) (hd : DispatchInv s) : MemInv (assertReset s) := by
  have hend := commandEnd_memInv h hd
  have hp := commandEnd_params s
  by_cases hb : s.status.busy = true
  · have hpix : (assertReset s).pix = abandonedMemory s.freeCtr .pix s.pix (commandEnd s).pix := if_pos hb
    have hpay : (assertReset s).pay = abandonedMemory s.freeCtr .pay s.pay (commandEnd s).pay := if_pos hb
    exact ⟨by rw [hpix]; exact abandonedMemory_wf _ _ _ hend.pix_wf,
      by rw [hpay]; exact abandonedMemory_wf _ _ _ hend.pay_wf,
      by rw [hpix, assertReset_params, ← hp]; exact abandonedMemory_within hend.pix_within,
      by rw [hpay, assertReset_params, ← hp]; exact abandonedMemory_within hend.pay_within⟩
  · exact memInv_of_eq h rfl (if_neg hb) (if_neg hb)

/-- Every turn keeps the memories canonical and inside their sizes (20_memory.md R60, R67). -/
theorem runTurn_memInv {a : Turn} {s t : State} (h : Inv s) (e : runTurn a s = .next t) : MemInv t := by
  have hm := h.mem_ok
  cases a
  case host => exact hostTurn_memInv hm e
  case run =>
    rcases runTurn_run_next e with rfl | ⟨-, e⟩
    · exact hm
    · exact runCommand_memInv hm e
  case start =>
    rcases runTurn_start_next e with rfl | ⟨-, e⟩
    · exact hm
    · rcases startCommand_cases s with ⟨j, h, -⟩ | h <;> rw [h] at e
      · cases e; exact (opened_memInv hm j).1
      · exact runCommand_memInv hm e
  case handOut k =>
    cases e
    rcases handOut_cases k s with e | ⟨_, _, -, -, -, -, e⟩ <;> rw [e]
    · exact hm
    · exact memInv_of_eq hm rfl rfl rfl
  case engine k => cases e; exact engineStep_memInv hm h.dispatch_ok k
  case join =>
    cases e
    rcases joinStep_cases s with e | ⟨j, -, -, -, e⟩ <;> rw [e]
    · exact hm
    · cases j <;> exact memInv_of_eq hm rfl rfl rfl
  case rstOn => cases e; exact assertReset_memInv hm h.dispatch_ok
  case rstOff => cases e; exact memInv_of_eq hm rfl rfl rfl

/-! ## The invariant -/

theorem runTurn_inv {a : Turn} {s t : State} (h : Inv s) (e : runTurn a s = .next t) : Inv t where
  params_ok := by rw [(runTurn_effect e).params_eq]; exact h.params_ok
  status_ok := (runTurn_effect e).statusInv h.status_ok
  mem_ok := runTurn_memInv h e
  dispatch_ok := runTurn_dispatchInv h e
  reset_ok := (runTurn_effect e).resetInv h.reset_ok

/-- Settles O59: the step is one turn, and every turn keeps each part of the invariant. -/
theorem stepKeepsTheInvariant : Obligations.StepKeepsTheInvariant := by
  intro s t h e
  obtain ⟨a, ts, e'⟩ := step_turn s
  exact runTurn_inv (inv_sched h ts) (e' ▸ e)

/-- Right after reset nothing runs, every engine is idle and the dispatcher empty (10_state.md R44). -/
theorem resetOf_inv {p : Params} {pix pay : Memory} (hp : p.wellFormed = true) (hpix : Memory.wf pix) (hpay : Memory.wf pay)
    (hpix' : Memory.within p.pixBytes pix) (hpay' : Memory.within p.payBytes pay) : Inv (State.resetOf p pix pay) where
  params_ok := hp
  status_ok := ⟨by simp [State.resetOf], by simp [State.resetOf], by simp [State.resetOf], by simp [State.resetOf]⟩
  mem_ok := ⟨hpix, hpay, hpix', hpay'⟩
  dispatch_ok :=
    dispatchInv_of_idle (by simp [State.resetOf]) (fun g hg => List.eq_of_mem_replicate hg) rfl rfl ⟨rfl, rfl⟩
  reset_ok := ⟨fun h => by cases h⟩

/-- Settles O58: the invariant right after reset, for all open parameters and so for the model's own. -/
theorem resetMeetsTheInvariant : Obligations.ResetMeetsTheInvariant :=
  ⟨fun _ _ _ => resetOf_inv, resetOf_inv (by decide) (by decide) (by decide) (by decide) (by decide)⟩

end Sys2Proof.Machine
end

section
/-! SUPPORT. The registers as the host reads and writes them: the reset table, the constant slots, the words of CTRL and STATUS. -/

open Sys2Proof

namespace Sys2Proof.Machine

/-! ## The register map as the host reads and writes it -/

/-- Settles O6: every line of the table is a field of the reset state. -/
theorem resetStateHoldsTheTable : Obligations.ResetStateHoldsTheTable := by
  refine ⟨fun p pix pay => ?_, Config.vectorParams, rfl⟩
  have hidle : ∀ g ∈ (State.resetOf p pix pay).engines, g.busy = false := fun g hg => by rw [List.eq_of_mem_replicate hg]
  have hcount : (State.resetOf p pix pay).engines.length = p.numEngines := List.length_replicate
  have hctrl : Ctrl.reset.toWord = 0 := by decide
  have hstatus : Status.reset.toWord = 0 := by decide
  exact ⟨rfl, rfl, hctrl, hstatus, rfl, rfl, rfl, rfl, rfl, rfl, rfl, rfl, rfl, rfl, rfl, rfl, rfl, rfl, rfl, rfl, rfl, rfl, rfl, rfl,
    hcount, hidle, rfl, rfl, rfl⟩

/-- CFG as a number (10_state.md R28): NENG stands above the constant fields, which are disjoint from it. -/
theorem cfgWord_toNat {p : Params} (h : p.numEngines ≤ 256) :
    (cfgWord p).toNat = (p.numEngines - 1) * 2 ^ 24 + 0x200B37 := by
  have hlow : (0x200B37 : Nat) < 2 ^ 24 := by decide
  have hn : (BitVec.ofNat 32 (p.numEngines - 1) <<< 24).toNat = (p.numEngines - 1) <<< 24 := by
    simp only [BitVec.toNat_shiftLeft, BitVec.toNat_ofNat, Nat.shiftLeft_eq]; omega
  have hc : cfgWord p = BitVec.ofNat 32 (p.numEngines - 1) <<< 24 ||| 0x200B37#32 := by
    simp only [cfgWord, BitVec.or_assoc]; rfl
  rw [hc, BitVec.toNat_or, hn, ← Nat.shiftLeft_eq]
  exact (Nat.shiftLeft_add_eq_or_of_lt hlow _).symm

/-- Settles O12: ID is one word, and CFG is one number whose fields arithmetic reads off. -/
theorem constantSlotsReadAsSpecified : Obligations.ConstantSlotsReadAsSpecified := by
  intro s h
  simp only [Params.wellFormed, Bool.and_eq_true, decide_eq_true_eq] at h
  obtain ⟨⟨⟨h1, h2⟩, -⟩, -⟩ := h
  have hcfg : (regRead .cfg s).toNat = (s.params.numEngines - 1) * 2 ^ 24 + 0x200B37 := cfgWord_toNat h2
  have hid : (regRead .id s).toNat = 0x53544701 := rfl
  refine ⟨rfl, rfl, fun v => ⟨rfl, rfl⟩, hid, by norm_num [hid], by norm_num [hid], ?_, ?_, ?_, ?_, ?_, ?_, rfl, rfl⟩ <;>
    rw [hcfg] <;> omega

theorem ctrl_toWord_toNat (c : Ctrl) : c.toWord.toNat = c.ie.toNat + 2 * c.chmode.toNat := by
  obtain ⟨ie, chmode⟩ := c
  revert ie chmode; decide

/-- STATUS as a number (10_state.md R30): each flag at its bit, the code from bit 8. -/
theorem status_toWord_toNat (st : Status) :
    st.toWord.toNat =
      st.busy.toNat + 2 * st.done.toNat + 4 * st.err.toNat + 8 * st.ovr.toNat + 256 * st.errcode.code.toNat := by
  obtain ⟨busy, done, err, ovr, code⟩ := st
  simp only [Status.toWord]
  generalize code.code = c
  revert busy done err ovr c; decide

/-- Settles O13: the two words as sums, and the numbers of the codes (60_exceptions.md R190). -/
theorem controlAndStatusReadTheirFields : Obligations.ControlAndStatusReadTheirFields := by
  refine fun s => ⟨ctrl_toWord_toNat s.ctrl, (status_toWord_toNat s.status).trans ?_⟩
  cases s.status.errcode <;> rfl

/-- A step on a host write to a register slot. -/
theorem step_writeReg {s : State} {r : Reg} {v : Word} {rest : List HostOp} {ts : List Turn}
    (h : hostNext s (.writeReg .word r.offset v) rest ts) :
    step s = .next (answer 0 (regWrite r v { s with sched := ts, host := rest })) := by
  rw [step_of_hostNext h, hostAccess_writeReg (regAt_offset r)]

/-- A step on a host read of a register slot. -/
theorem step_readReg {s : State} {r : Reg} {rest : List HostOp} {ts : List Turn}
    (h : hostNext s (.readReg .word r.offset) rest ts) :
    step s = .next (hostDone s { data := regRead r s, busError := false } rest ts) := by
  rw [step_of_hostNext h, hostAccess_readReg (regAt_offset r)]
  cases r <;> rfl

/-- A write to a read-only or reserved slot changes nothing (10_state.md R24, R38). -/
theorem regWrite_readOnly {r : Reg} (h : r ∈ [Reg.id, .cfg, .res0, .res1, .res2, .weff, .reserved]) (v : Word) (s : State) :
    regWrite r v s = s := by
  simp only [List.mem_cons, List.not_mem_nil, or_false] at h
  rcases h with rfl | rfl | rfl | rfl | rfl | rfl | rfl <;> rfl

theorem ctrl_ofWord_eq (v : Word) :
    Ctrl.ofWord v = { ie := decide (v.toNat % 2 = 1), chmode := decide (v.toNat / 2 % 2 = 1) } := by
  rw [Ctrl.ofWord, getLsbD_eq_decide, getLsbD_eq_decide, pow_zero, pow_one, Nat.div_one]

/-- Settles O14: each offset reaches its slot, and the slot stores or ignores. -/
theorem registerWritesStoreOrAreIgnored : Obligations.RegisterWritesStoreOrAreIgnored := by
  intro s v off rest ts h
  refine ⟨?_, ?_, ?_, ?_, ?_, ?_, ?_, fun ho => ?_⟩
  · rintro rfl; rw [step_writeReg (r := .ctrl) h, ← ctrl_ofWord_eq]; rfl
  · rintro rfl; exact step_writeReg (r := .arg0) h
  · rintro rfl; exact step_writeReg (r := .arg1) h
  · rintro rfl; exact step_writeReg (r := .arg2) h
  · rintro rfl; exact step_writeReg (r := .pixcnt) h
  · rintro rfl; exact step_writeReg (r := .len) h
  · rintro rfl; exact step_writeReg (r := .wreq) h
  · obtain ⟨r, hr, rfl⟩ : ∃ r ∈ [Reg.id, .cfg, .res0, .res1, .res2, .weff, .reserved], r.offset = off :=
      List.mem_map.1 ho
    rw [step_writeReg h, regWrite_readOnly hr]; rfl

/-- A step on an admitted byte read while no command runs (20_memory.md R71). -/
theorem step_readMem {s : State} {sp : Space} {off : Nat} {rest : List HostOp} {ts : List Turn} (hb : s.status.busy = false)
    (ho : off < s.spaceBytes sp) (h : hostNext s (.readMem sp .byte off) rest ts) :
    step s = .next (hostDone s { data := BitVec.ofNat 32 (s.memAt sp off).toNat, busError := false } rest ts) := by
  have ha : memAdmitted { s with sched := ts, host := rest } sp .byte off = true := by
    cases sp <;> exact decide_eq_true ho
  rw [step_of_hostNext h, hostAccess, if_pos ha, memGuard, if_neg (by simp [hb]), BitVec.ofNat_toNat]
  cases sp <;> rfl

/-- Settles O15: each offset reaches its slot, and a read answers without an effect. -/
theorem readsHaveNoSideEffect : Obligations.ReadsHaveNoSideEffect := by
  refine ⟨fun s off rest ts h => ?_, fun s off rest ts hb => ⟨step_readMem (sp := .pix) hb, step_readMem (sp := .pay) hb⟩⟩
  have slot : ∀ r : Reg, off = r.offset → step s = .next (hostDone s { data := regRead r s, busError := false } rest ts) := by
    rintro r rfl; exact step_readReg h
  exact ⟨slot .id, slot .cfg, slot .ctrl, slot .status, slot .cmd, slot .arg0, slot .arg1, slot .arg2, slot .res0, slot .res1,
    slot .res2, slot .pixcnt, slot .len, slot .wreq, slot .weff, slot .reserved⟩

end Sys2Proof.Machine
end

section
/-! SUPPORT. What a command writes into the image, the byte write of the host, and the accesses the port refuses. -/

open Sys2Proof

namespace Sys2Proof.Machine

/-! ## What a command does to a byte of the image -/

/-- Where command `i` may write: below 3P, never byte 32 (42_header_codec.md R126), the header by WRHDR and ENCODE only. -/
def Writable (i : Instr) (s : State) (a : Nat) : Prop :=
  a ≠ 32 ∧ a < 3 * s.opP ∧ (a < 32 → i = .wrhdr ∨ i = .encode)

/-- PIX byte `a` is kept, or it is one the command may write and takes a lowest bit (20_memory.md R61, R63). -/
def PixByteEffect (i : Instr) (s t : State) (a : Nat) : Prop :=
  t.pixAt a = s.pixAt a ∨ Writable i s a ∧ ∃ b, t.pixAt a = embedBit (s.pixAt a) b

theorem pixByteEffect_of_pix_eq (i : Instr) {s t : State} (h : t.pix = s.pix) (a : Nat) : PixByteEffect i s t a :=
  .inl (by rw [State.pixAt, h, State.pixAt])

/-- A command that embeds a bit in a span of writable bytes and keeps every other byte. -/
theorem pixByteEffect_of_ite {i : Instr} {s t : State} {a : Nat} {m : Memory} {c : Prop} [Decidable c] {b : Bool} (ht : t.pix = m)
    (hm : Memory.read .pix m a = if c then embedBit (Memory.read .pix s.pix a) b else Memory.read .pix s.pix a)
    (hc : c → Writable i s a) : PixByteEffect i s t a := by
  subst ht
  by_cases h : c
  · exact .inr ⟨hc h, b, hm.trans (if_pos h)⟩
  · exact .inl (hm.trans (if_neg h))

/-- The commands that do not embed keep PIX. -/
theorem exec_pix_kept {i : Instr} {s t : State} (e : exec i s = .next t) :
    t.pix = s.pix ∨ i = .wrhdr ∨ i = .emchr ∨ i = .encrng ∨ i = .encode := by
  rcases exec_cases i s with ⟨code, h⟩ | ⟨-, h⟩ | ⟨r0, r1, r2, l, w, pix, pay, h, -, -, -, hpix⟩ <;> rw [h] at e <;> cases e
  · exact .inl rfl
  · exact .inl rfl
  · exact or_iff_not_imp_left.2 hpix

/-- WRHDR writes the 32 header bytes (42_header_codec.md R123). -/
theorem exec_wrhdr_pixByteEffect {s t : State} (e : exec .wrhdr s = .next t) (a : Nat) : PixByteEffect .wrhdr s t a := by
  rw [exec_wrhdr] at e
  rcases runChecked_cases e with ⟨code, -, e⟩ | ⟨hc, e⟩ <;> cases e
  · exact pixByteEffect_of_pix_eq _ rfl a
  · obtain ⟨hP, -⟩ := (wrhdrChecks_pass s).1 hc
    have hread := read_hdrWrite s.opA0 s.pix a
    generalize hdrWrite s.opA0 s.pix = m at hread ⊢
    exact pixByteEffect_of_ite (complete_pix _) hread fun ha => ⟨by omega, by omega, fun _ => .inl rfl⟩

/-- EMCHR writes the seven bytes of its character, inside the image (43_payload_codec.md R141). -/
theorem exec_emchr_pixByteEffect {s t : State} (e : exec .emchr s = .next t) (a : Nat) : PixByteEffect .emchr s t a := by
  rw [exec_emchr] at e
  rcases runChecked_cases e with ⟨code, -, e⟩ | ⟨hc, e⟩ <;> cases e
  · exact pixByteEffect_of_pix_eq _ rfl a
  · obtain ⟨-, hspan, -⟩ := (emchrChecks_pass s).1 hc
    exact pixByteEffect_of_ite (complete_pix _) (read_embedChar s.opA0 (normChar s.seq.snap.a1) s.pix a)
      fun ha => ⟨by omega, by omega, by omega⟩

/-- ENCRNG writes the bytes of its characters, inside the image (45_worker_orchestration.md R168). -/
theorem exec_encrng_pixByteEffect {s t : State} (e : exec .encrng s = .next t) (a : Nat) : PixByteEffect .encrng s t a := by
  rw [exec_encrng] at e
  cases e
  unfold openEncrng
  rcases openChecked_cases (imageChecks s ++ rangeChecks s ++ [charsCheck s s.opA0 s.opA1]) (openJob .encrng 0 0) s
    with ⟨c, -, e⟩ | ⟨hc, e⟩ <;> rw [e]
  · exact pixByteEffect_of_pix_eq _ rfl a
  · obtain ⟨⟨-, hspan, -⟩, -⟩ := (encrngChecks_pass s).1 hc
    rw [finish_encrng]
    exact pixByteEffect_of_ite (complete_pix _) (read_encRange s.pay s.opA0 s.opA1 s.pix a)
      fun ha => ⟨by omega, by omega, by omega⟩

/-- A payload within the capacity ends inside the image (43_payload_codec.md R137). -/
theorem payload_end_le {p l : Nat} (hp : 11 ≤ p) (hl : l ≤ maxCapacity p) : 33 + 7 * l ≤ 3 * p := by
  rw [maxCapacity, if_pos hp, Config.firstPixel] at hl
  omega

/-- PIX after the header is written and then the ranges of an ENCODE: the header bytes take the bits of the length, the payload
bytes those of their characters, every other byte is kept (45_worker_orchestration.md R173). -/
theorem read_encode_pix_hdrWrite {l we : Nat} (h : 1 ≤ we ∨ l = 0) (s : State) (n a : Nat) :
    Memory.read .pix (runRanges .encode we (openJob .encode l we { s with pix := hdrWrite n s.pix })).pix a =
      if a < 32 ∨ 33 ≤ a ∧ a < 33 + 7 * l then
        embedBit (Memory.read .pix s.pix a) (if a < 32 then n.testBit (31 - a) else payloadBit s.pay a)
      else Memory.read .pix s.pix a := by
  have hhdr := read_hdrWrite n s.pix a
  generalize hdrWrite n s.pix = m at hhdr ⊢
  rw [read_encode_pix h, hhdr]
  by_cases h32 : a < 32
  · rw [if_neg (by omega), if_pos h32, if_pos (.inl h32), if_pos h32]
  · simp only [h32, if_false, false_or]

/-- ENCODE writes the header and the payload bytes, inside the image (45_worker_orchestration.md R173). -/
theorem exec_encode_pixByteEffect {s t : State} (e : exec .encode s = .next t) (a : Nat) : PixByteEffect .encode s t a := by
  rw [exec_encode] at e
  cases e
  unfold openEncode
  rcases openChecked_cases (encodeChecks s)
    (fun s => openJob .encode s.opLin (effWorkers s.opWin s.opLin) { s with pix := hdrWrite s.opLin s.pix }) s
    with ⟨c, -, e⟩ | ⟨hc, e⟩ <;> rw [e]
  · exact pixByteEffect_of_pix_eq _ rfl a
  · obtain ⟨⟨hW, hP, -⟩, hcap, -⟩ := (encodeChecks_pass s).1 hc
    have hend := payload_end_le hP hcap
    rw [finish_encode]
    refine pixByteEffect_of_ite (complete_pix _) (read_encode_pix_hdrWrite (effWorkers_pos hW s.opLin) s s.opLin a) ?_
    rintro (ha | ha)
    · exact ⟨by omega, by omega, fun _ => .inr rfl⟩
    · exact ⟨by omega, by omega, by omega⟩

/-- Every command keeps a byte of PIX or embeds a bit in a byte it may write. -/
theorem exec_pixByteEffect {i : Instr} {s t : State} (e : exec i s = .next t) (a : Nat) : PixByteEffect i s t a := by
  rcases exec_pix_kept e with h | rfl | rfl | rfl | rfl
  · exact pixByteEffect_of_pix_eq i h a
  · exact exec_wrhdr_pixByteEffect e a
  · exact exec_emchr_pixByteEffect e a
  · exact exec_encrng_pixByteEffect e a
  · exact exec_encode_pixByteEffect e a

/-- Bits 7:1 of a component, as a number, are kept by embedding (43_payload_codec.md R130). -/
theorem embedBit_toNat_div_two (v : Byte) (b : Bool) : (embedBit v b).toNat / 2 = v.toNat / 2 := by
  have := b.toNat_le
  rw [embedBit_toNat, withLowBit]
  omega

/-- Settles O53: a byte is kept, or it takes a lowest bit where the command may write. -/
theorem onlyLowestBitsInsideTheImageChange : Obligations.OnlyLowestBitsInsideTheImageChange := by
  intro i s t e a
  rcases exec_pixByteEffect e a with h | ⟨⟨h32, hend, hhdr⟩, b, h⟩
  · exact ⟨by rw [h], fun _ => h, fun _ => h, fun _ hne => absurd h hne⟩
  · exact ⟨by rw [h, embedBit_toNat_div_two], fun ha => absurd ha h32, fun ha => absurd hend (not_lt.2 ha), fun ha _ => hhdr ha⟩

/-! ## A byte write of the host -/

/-- A step on an admitted byte write while no command runs (20_memory.md R71). -/
theorem step_writeMem {s : State} {sp : Space} {off : Nat} {v : Word} {rest : List HostOp} {ts : List Turn}
    (hb : s.status.busy = false) (ho : off < s.spaceBytes sp) (h : hostNext s (.writeMem sp .byte off v) rest ts) :
    step s = .next (hostDone (memWrite sp off (v.setWidth 8) s) { data := 0, busError := false } rest ts) := by
  have ha : memAdmitted { s with sched := ts, host := rest } sp .byte off = true := by
    cases sp <;> exact decide_eq_true ho
  rw [step_of_hostNext h, hostAccess, if_pos ha, memGuard, if_neg (by simp [hb])]
  cases sp <;> rfl

/-- A byte of a memory, as a number, after a host write of data bits 7:0 at `off` (20_memory.md R72; log 22). -/
theorem read_write_dataByte_toNat (sp : Space) (m : Memory) (off : Nat) (v : Word) (a : Nat) :
    (Memory.read sp (Memory.write m off (v.setWidth 8)) a).toNat =
      if a = off then v.toNat % 256 else (Memory.read sp m a).toNat := by
  rw [read_write, apply_ite BitVec.toNat, BitVec.toNat_setWidth]
  exact if_congr eq_comm rfl rfl

/-- Settles O16: the step writes one byte, and a read of the written memory finds it at its offset only. -/
theorem byteWriteChangesExactlyThatByte : Obligations.ByteWriteChangesExactlyThatByte := by
  intro s off v rest ts hb
  constructor
  · exact fun ho h => ⟨_, step_writeMem (sp := .pix) hb ho h, rfl, read_write_dataByte_toNat .pix s.pix off v⟩
  · exact fun ho h => ⟨_, step_writeMem (sp := .pay) hb ho h, rfl, read_write_dataByte_toNat .pay s.pay off v⟩

/-! ## Refused accesses -/

theorem regAdmitted_eq_none {w : Width} {off : Nat} (h : w ≠ .word ∨ off % 4 ≠ 0 ∨ 0x3C < off) : regAdmitted w off = none := by
  unfold regAdmitted
  rcases h with hw | ho
  · exact if_neg hw
  · rw [regAt_eq_none ho, ite_self]

theorem memAdmitted_eq_false {s : State} {sp : Space} {w : Width} {off : Nat} (h : w ≠ .byte ∨ s.spaceBytes sp ≤ off) :
    memAdmitted s sp w off = false := by
  rw [memAdmitted, Bool.and_eq_false_iff, beq_eq_false_iff_ne, decide_eq_false_iff_not, not_lt]
  exact h

/-- A step on an access the port refuses, whether or not a command runs (20_memory.md R66, R67; log 5). -/
theorem step_refused {s : State} {a : Access} {rest : List HostOp} {ts : List Turn} (h : hostNext s a rest ts)
    (hr : ∀ u : State, u.params = s.params → hostAccess a u = .next (refuseAccess u)) :
    step s = .next (hostDone s { data := 0, busError := true } rest ts) := by
  rw [step_of_hostNext h, hr { s with sched := ts, host := rest } rfl]
  rfl

/-- Settles O17: the port admits none of these accesses, and a refused access answers and does nothing else. -/
theorem refusedAccessRaisesBusError : Obligations.RefusedAccessRaisesBusError := by
  constructor
  · intro s w off v rest ts hrefused h
    have hn := regAdmitted_eq_none hrefused
    rcases h with h | h <;> exact step_refused h fun u _ => by rw [hostAccess, hn]
  · intro s sp w off v rest ts hrefused h
    have hn : ∀ u : State, u.params = s.params → memAdmitted u sp w off = false := fun u hu =>
      memAdmitted_eq_false (hrefused.imp_right fun ho => by cases sp <;> rw [State.spaceBytes, hu] <;> exact ho)
    rcases h with h | h <;> exact step_refused h fun u hu => by rw [hostAccess, hn u hu]; rfl

end Sys2Proof.Machine
end

section
/-! SUPPORT. The codec of the command words: the opcode map as a table, the fields of a word as numbers, and decode and encode
as inverses. -/

namespace Sys2Proof

/-! ## The opcode map as a table -/

/-- R93's table: each opcode with the command of its row. -/
def opcodeTable : List (Nat × Instr) :=
  [(0x01, .addr), (0x02, .c2b), (0x10, .wrhdr), (0x11, .rdhdr), (0x20, .embit), (0x21, .exbit), (0x22, .emchr),
   (0x23, .exchr), (0x24, .maxcap), (0x30, .part), (0x31, .limit), (0x40, .encrng), (0x41, .decrng), (0x50, .encode),
   (0x51, .decode)]

theorem lookup_opcodeTable_eq_none_iff (n : Nat) : opcodeTable.lookup n = none ↔ n ∉ opcodeTable.map Prod.fst := by
  simp only [List.lookup_eq_none_iff, bne_iff_ne, List.mem_map, not_exists, not_and]
  exact forall₂_congr fun _ _ => ne_comm

/-- The model's opcode map is the lookup in R93's table. -/
theorem opcodeMap_eq_lookup (o : BitVec 8) : opcodeMap o = opcodeTable.lookup o.toNat := by
  unfold opcodeMap
  generalize o.toNat = n
  split
  case h_16 =>
    rw [eq_comm, lookup_opcodeTable_eq_none_iff]
    simp only [opcodeTable, List.map_cons, List.map_nil, List.mem_cons, List.not_mem_nil, or_false, not_or]
    tauto
  all_goals rfl

/-- Each command is listed with one opcode only. -/
theorem eq_opcodeOf_of_opcodeMap {o : BitVec 8} {i : Instr} (h : opcodeMap o = some i) : o = opcodeOf i := by
  unfold opcodeMap at h
  split at h <;> cases h <;> exact BitVec.eq_of_toNat_eq ‹_›

theorem mem_legalOpcodes_iff (o : BitVec 8) : o ∈ legalOpcodes ↔ o.toNat ∈ opcodeTable.map Prod.fst := by
  have h : opcodeTable.map Prod.fst = legalOpcodes.map BitVec.toNat := rfl
  rw [h, List.mem_map_of_injective fun _ _ => BitVec.eq_of_toNat_eq]

/-! ## The fields of a command word (30_encoding.md R90) -/

theorem fieldsOf_rsvd_toNat (v : Word) : (fieldsOf v).rsvd.toNat = v.toNat / 256 := by
  have := v.isLt
  simp only [fieldsOf, BitVec.extractLsb'_toNat, Nat.shiftRight_eq_div_pow]
  omega

theorem fieldsOf_opc_toNat (v : Word) : (fieldsOf v).opc.toNat = v.toNat % 256 :=
  BitVec.extractLsb'_toNat 0 8 v

theorem fieldsOf_rsvd_eq_zero_iff (v : Word) : (fieldsOf v).rsvd = 0 ↔ v.toNat / 256 = 0 := by
  rw [← fieldsOf_rsvd_toNat]
  exact BitVec.toNat_inj.symm

/-- A word is its two fields. -/
theorem wordOf_fieldsOf (v : Word) : wordOf (fieldsOf v) = v :=
  (BitVec.extractLsb'_append_extractLsb'_eq_extractLsb' rfl).trans BitVec.extractLsb'_eq_self

/-- The fields are ill formed on either ground of R94. -/
theorem fieldsOf_illFormed_iff (v : Word) :
    (fieldsOf v).wellFormed = false ↔ v.toNat / 256 ≠ 0 ∨ v.toNat % 256 ∉ opcodeTable.map Prod.fst := by
  rw [← fieldsOf_opc_toNat, ← mem_legalOpcodes_iff, ne_eq, ← fieldsOf_rsvd_eq_zero_iff]
  simp [CmdFields.wellFormed, imp_iff_not_or]

/-! ## Decoding -/

/-- Decoding is the lookup of v[7:0] where v[31:8] = 0 (30_encoding.md R96). -/
theorem decode_eq_lookup (v : Word) :
    decode v = if v.toNat / 256 = 0 then opcodeTable.lookup (v.toNat % 256) else none := by
  rw [decode, opcodeMap_eq_lookup, fieldsOf_opc_toNat]
  exact if_congr (fieldsOf_rsvd_eq_zero_iff v) rfl rfl

/-- A word is illegal on either ground of R94. -/
theorem decode_eq_none_iff (v : Word) :
    decode v = none ↔ v.toNat / 256 ≠ 0 ∨ v.toNat % 256 ∉ opcodeTable.map Prod.fst := by
  rw [decode_eq_lookup]
  by_cases h : v.toNat / 256 = 0
  · simp only [h, if_true, lookup_opcodeTable_eq_none_iff, ne_eq, not_true_eq_false, false_or]
  · simp only [h, if_false, ne_eq, not_false_eq_true, true_or]

/-- Every command's word is well formed and decodes to it. -/
theorem codec (i : Instr) : Laws.Codec.Statement i := by
  cases i
  case addr => exact Laws.Codec.addr
  case c2b => exact Laws.Codec.c2b
  case wrhdr => exact Laws.Codec.wrhdr
  case rdhdr => exact Laws.Codec.rdhdr
  case embit => exact Laws.Codec.embit
  case exbit => exact Laws.Codec.exbit
  case emchr => exact Laws.Codec.emchr
  case exchr => exact Laws.Codec.exchr
  case maxcap => exact Laws.Codec.maxcap
  case part => exact Laws.Codec.part
  case limit => exact Laws.Codec.limit
  case encrng => exact Laws.Codec.encrng
  case decrng => exact Laws.Codec.decrng
  case encode => exact Laws.Codec.encode
  case decode => exact Laws.Codec.decode

theorem decode_encode (i : Instr) : decode (encode i) = some i := (codec i).2

/-- No word but the command's own decodes to it (30_encoding.md R95): its fields are RSVD = 0 and the command's opcode. -/
theorem eq_encode_of_decode {v : Word} {i : Instr} (h : decode v = some i) : v = encode i := by
  obtain ⟨hrsvd, hopc⟩ : (fieldsOf v).rsvd = 0 ∧ opcodeMap (fieldsOf v).opc = some i := by
    simpa [decode] using h
  rw [encode, ← hrsvd, ← eq_opcodeOf_of_opcodeMap hopc]
  exact (wordOf_fieldsOf v).symm

/-- Settles O3: encode is an inverse of decode on both sides, and the two grounds of R94 are where the fields are ill formed. -/
theorem everyCommandHasExactlyOneWord : Obligations.EveryCommandHasExactlyOneWord :=
  ⟨fun i _ => (codec i).symm, fun _ _ => eq_encode_of_decode,
    fun v => (decode_eq_none_iff v).trans (fieldsOf_illFormed_iff v).symm⟩

/-- Settles O1: the fifteen words are the encodings of the commands. -/
theorem listedWordsDecodeToTheirCommands : Obligations.ListedWordsDecodeToTheirCommands :=
  ⟨decode_encode .addr, decode_encode .c2b, decode_encode .wrhdr, decode_encode .rdhdr, decode_encode .embit,
    decode_encode .exbit, decode_encode .emchr, decode_encode .exchr, decode_encode .maxcap, decode_encode .part,
    decode_encode .limit, decode_encode .encrng, decode_encode .decrng, decode_encode .encode, decode_encode .decode⟩

/-- Settles O2: the model's opcode map is R93's table. -/
theorem decodingFollowsTheOpcodeMap : Obligations.DecodingFollowsTheOpcodeMap := decode_eq_lookup

end Sys2Proof
end

section
/-! SUPPORT. An accepted command word and its run: the sequencer's turn, the host's CMD write, and what a command writes. -/

open Sys2Proof

namespace Sys2Proof.Machine

/-! ## The sequencer's turn on an accepted command -/

theorem runTurn_run_of_accepted {s : State} (h : s.accepted = true) : runTurn .run s = runCommand s := if_pos h

/-- An accepted command runs where the schedule says nothing (log 15). -/
theorem defaultTurn_of_accepted {s : State} (h : s.accepted = true) : defaultTurn s = .run := by
  obtain ⟨-, hphase, hjob⟩ := (accepted_iff s).1 h
  rw [defaultTurn, hphase, hjob]

/-- A step with the sequencer's turn runs the accepted command. -/
theorem step_run_of_accepted {s : State} {ts : List Turn} (h : s.accepted = true) (hs : s.sched = .run :: ts) :
    step s = runCommand { s with sched := ts } := by
  rw [step_of_sched hs]
  exact runTurn_run_of_accepted h

/-- A step of an empty schedule runs the accepted command. -/
theorem step_default_of_accepted {s : State} (h : s.accepted = true) (hs : s.sched = []) : step s = runCommand s := by
  rw [step_of_empty hs, defaultTurn_of_accepted h, runTurn_run_of_accepted h]

theorem runCommand_of_decode {s : State} {i : Instr} (h : decode s.seq.cmd = some i) : runCommand s = exec i s := by
  rw [runCommand, h]

/-- An illegal word completes at once (30_encoding.md R94). -/
theorem runCommand_rejects_of_illegal {s : State} (h : decode s.seq.cmd = none) : Rejects .illegalCmd s (runCommand s) := by
  rw [runCommand, h]
  exact raiseError_rejects .illegalCmd s

/-- A table row of 32 bits is its own command word. -/
theorem tableWord_full (w : Nat) : tableWord 32 w = BitVec.ofNat 32 w :=
  BitVec.eq_of_toNat_eq (by simp [tableWord])

/-- Settles O4: in each case the command is accepted, so the sequencer's turn is `exec` of its instruction. -/
theorem stepRunsTheAcceptedCommand : Obligations.StepRunsTheAcceptedCommand := by
  refine ⟨fun s i ts hrst hphase hjob hi hs => ?_, fun s i hrst hphase hjob hi hs => ?_, fun s w i _ hi => ?_⟩
  · rw [step_run_of_accepted ((accepted_iff s).2 ⟨hrst, hphase, hjob⟩) hs]
    exact runCommand_of_decode hi
  · rw [step_default_of_accepted ((accepted_iff s).2 ⟨hrst, hphase, hjob⟩) hs, runCommand_of_decode hi]
  · have hcmd : (s.withFetchWord 32 w).seq.cmd = BitVec.ofNat 32 w := tableWord_full w
    refine ⟨hcmd, ?_⟩
    rw [step_run_of_accepted (s := s.withFetchWord 32 w) (ts := s.sched) rfl rfl]
    exact runCommand_of_decode (hcmd ▸ hi)

/-! ## The host's CMD write -/

theorem cmdWrite_accepted {v : Word} {s : State} (hb : s.status.busy = false) (he : s.status.err = false) :
    cmdWrite v s = accept v s := if_neg (by simp [hb, he])

theorem cmdWrite_refused {v : Word} {s : State} (h : s.status.busy = true ∨ s.status.err = true) :
    cmdWrite v s = { s with status := { s.status with ovr := true } } := if_pos (by simpa using h)

/-- The state after an accepted CMD write of `v` (30_encoding.md R97), the host's operation and its turn taken. -/
def acceptedState (s : State) (v : Word) (rest : List HostOp) (ts : List Turn) : State :=
  accept v (hostDone s { data := 0, busError := false } rest ts)

/-- A CMD write with BUSY = 0 and ERR = 0 is accepted (30_encoding.md R97). -/
theorem step_cmdWrite_accepted {s : State} {v : Word} {rest : List HostOp} {ts : List Turn}
    (h : hostNext s (.writeReg .word 0x10 v) rest ts) (hb : s.status.busy = false) (he : s.status.err = false) :
    step s = .next (acceptedState s v rest ts) := by
  rw [step_writeReg (r := .cmd) h, regWrite, cmdWrite_accepted (s := { s with sched := ts, host := rest }) hb he]
  rfl

/-- A CMD write with BUSY = 1 or ERR = 1 sets OVR (30_encoding.md R98). -/
theorem step_cmdWrite_refused {s : State} {v : Word} {rest : List HostOp} {ts : List Turn}
    (h : hostNext s (.writeReg .word 0x10 v) rest ts) (hr : s.status.busy = true ∨ s.status.err = true) :
    step s = .next { hostDone s { data := 0, busError := false } rest ts with status := { s.status with ovr := true } } := by
  rw [step_writeReg (r := .cmd) h, regWrite, cmdWrite_refused (s := { s with sched := ts, host := rest }) hr]
  rfl

/-- After an accepted CMD write and with nothing scheduled, the next step runs the command. -/
theorem step_acceptedState {s : State} {v : Word} {rest : List HostOp} (h : hostNext s (.writeReg .word 0x10 v) rest []) :
    step (acceptedState s v rest []) = runCommand (acceptedState s v rest []) := by
  obtain ⟨-, hrst, -⟩ := h
  exact step_default_of_accepted ((accepted_iff _).2 ⟨hrst, rfl, rfl⟩) rfl

/-- Settles O5: the word decodes to nothing, so the step after its acceptance completes it with ILLEGAL_CMD. -/
theorem illegalWordEndsInIllegalCmd : Obligations.IllegalWordEndsInIllegalCmd := by
  intro s v rest h hb he hillegal
  have hdec : decode v = none := (decode_eq_none_iff v).2 hillegal
  refine ⟨_, step_cmdWrite_accepted h hb he, rfl, rfl, rfl, rfl, ⟨rfl, rfl, rfl⟩, ⟨rfl, rfl⟩, ⟨rfl, rfl⟩, ?_⟩
  rw [step_acceptedState h]
  exact runCommand_rejects_of_illegal hdec

/-- Settles O9: a CMD write is accepted or refused, and the next step runs what was accepted. -/
theorem acceptanceLatchesTheSnapshot : Obligations.AcceptanceLatchesTheSnapshot := by
  refine ⟨fun s v rest ts h hb he => ?_, fun s v rest ts => step_cmdWrite_refused⟩
  refine ⟨acceptedState s v rest ts, step_cmdWrite_accepted h hb he, rfl, ?_, ?_⟩
  · rintro rfl hv
    rw [step_acceptedState h]
    exact runCommand_rejects_of_illegal hv
  · rintro rfl i hi
    rw [step_acceptedState h]
    exact runCommand_of_decode hi

/-! ## What a command writes -/

/-- Settles O52: the three ends of a command, each with the registers and memories its row names. -/
theorem commandsWriteOnlyWhatTheirRowsName : Obligations.CommandsWriteOnlyWhatTheirRowsName := by
  intro i s t e
  refine ⟨(exec_commandEnds e).frame, ?_⟩
  rcases exec_cases i s with ⟨code, h⟩ | ⟨-, h⟩ | ⟨r0, r1, r2, l, w, pix, pay, h, hlen, hweff, hpay, hpix⟩ <;>
    rw [h] at e <;> cases e
  · exact ⟨absurd rfl, absurd rfl, absurd rfl, absurd rfl⟩
  · exact ⟨absurd rfl, absurd rfl, absurd rfl, absurd rfl⟩
  · exact ⟨hlen, hweff, hpay, hpix⟩

end Sys2Proof.Machine
end

section
/-! SUPPORT. The host's waits, and the expansion of the pseudo-instructions of a host program. -/

open Sys2Proof

namespace Sys2Proof.Machine

/-! ## The host's waits -/

/-- A step with the host's turn performs its next operation. -/
theorem step_of_hostOp {s : State} {op : HostOp} {rest : List HostOp} {ts : List Turn} (hs : s.sched = .host :: ts)
    (hr : s.rst = false) (hh : s.host = op :: rest) : step s = hostPerform op rest { s with sched := ts } := by
  rw [step_of_sched hs]
  simp [runTurn, hostTurn, hr, hh]

theorem irq_iff (s : State) : s.irq = true ↔ s.ctrl.ie = true ∧ s.status.done = true := Bool.and_eq_true_iff

/-- Settles O19: the host's operation stays first in its queue until BUSY is 0, or until irq is 1. -/
theorem waitRepeatsUntilIdle : Obligations.WaitRepeatsUntilIdle := by
  intro s rest ts hs hr
  refine ⟨fun hh => ⟨fun hb => ?_, fun hb => ?_⟩, fun hh => ?_⟩
  · rw [step_of_hostOp hs hr hh, hostPerform, if_pos hb]; rfl
  · rw [step_of_hostOp hs hr hh, hostPerform, if_neg (by simp [hb])]; rfl
  · rw [step_of_hostOp hs hr hh, hostPerform, if_congr (irq_iff { s with sched := ts }) rfl rfl]

/-! ## Host programs (30_encoding.md R104) -/

theorem hostProgram_singleton (p : Stmt) : hostProgram [p] = p.expand := List.flatMap_singleton Stmt.expand p

/-- Equal bytes to consecutive offsets: one write for each offset, in ascending order. -/
theorem loadOps_replicate (sp : Space) (off n : Nat) (v : Byte) :
    loadOps sp off (List.replicate n v) = (List.range n).map fun k => writeByteOp sp (off + k) v := by
  induction n generalizing off with
  | zero => rfl
  | succ n ih =>
    rw [List.replicate_succ, loadOps, ih, List.range_succ_eq_map, List.map_cons, List.map_map]
    simp only [Function.comp_def, Nat.add_zero, Nat.add_right_comm, Nat.add_assoc]

/-- Settles O20: each statement is its expansion, FILL's one byte write for each offset. -/
theorem pseudoInstructionsExpandAsListed : Obligations.PseudoInstructionsExpandAsListed := by
  refine ⟨fun i x y z => ⟨?_, ?_, ?_⟩, ?_, fun sp off n v => ?_⟩
  · exact hostProgram_singleton _
  · exact hostProgram_singleton _
  · exact hostProgram_singleton _
  · exact hostProgram_singleton _
  · simp only [hostProgram_singleton, BitVec.ofNat_toNat]
    exact loadOps_replicate sp off n v

end Sys2Proof.Machine
end

section
/-! SUPPORT. The address map as a bijection (41_bit_addressing.md R110 to R112), and the commands ADDR and C2B. -/

open Sys2Proof

namespace Sys2Proof.Machine

/-! ## The address map -/

theorem address_eq (b : Nat) : address b = (11 + b / 3, b % 3) := rfl

/-- A pair with pixel ≥ 11 and channel < 3 is the address of its bit index 3 (pixel - 11) + channel, and of no other (R112). -/
theorem address_eq_iff (b p c : Nat) : address b = (p, c) ↔ 11 ≤ p ∧ c < 3 ∧ 3 * (p - 11) + c = b := by
  rw [address_eq, Prod.mk.injEq]
  omega

/-- The range of `address`, and its inverse (R112). -/
theorem address_inverse (b : Nat) :
    11 ≤ (address b).1 ∧ (address b).2 < 3 ∧ 3 * ((address b).1 - 11) + (address b).2 = b :=
  (address_eq_iff b _ _).1 rfl

/-- The order is channel-major: the next bit index is the next channel, or channel 0 of the next pixel (R112). -/
theorem address_succ (b : Nat) :
    address (b + 1) = if (address b).2 = 2 then ((address b).1 + 1, 0) else ((address b).1, (address b).2 + 1) := by
  obtain ⟨hp, hc, hb⟩ := address_inverse b
  split
  case isTrue h => exact (address_eq_iff _ _ _).2 ⟨by omega, by omega, by omega⟩
  case isFalse h => exact (address_eq_iff _ _ _).2 ⟨hp, by omega, by omega⟩

/-- Settles O23: the inverse of `address` is 3 (pixel - 11) + channel. -/
theorem addressIsABijection : Obligations.AddressIsABijection := by
  refine ⟨address_inverse, fun p c hp hc => ?_, address_succ, rfl⟩
  refine ⟨3 * (p - 11) + c, (address_eq_iff _ p c).2 ⟨hp, hc, rfl⟩, fun b hb => ?_⟩
  obtain ⟨-, -, hinv⟩ := (address_eq_iff b p c).1 hb
  exact hinv.symm

/-! ## The commands ADDR and C2B -/

/-- A word holds a number below 2^32 exactly. -/
theorem word_ofNat_toNat {n : Nat} (h : n < 2 ^ 32) : (BitVec.ofNat 32 n).toNat = n := by
  rw [BitVec.toNat_ofNat, Nat.mod_eq_of_lt h]

/-- Settles O21: a0 is below 2^32, so its pixel and its channel each fit their result register (R115). -/
theorem addrGivesPixelAndChannel : Obligations.AddrGivesPixelAndChannel := by
  intro s
  have ha : s.opA0 < 2 ^ 32 := s.seq.snap.a0.isLt
  have hp : 11 + s.opA0 / 3 < 2 ^ 32 := by omega
  have hc : s.opA0 % 3 < 2 ^ 32 := by omega
  exact ⟨_, exec_addr s, complete_succeeds s _ _ s.res2 s.len s.weff s.pix s.pay,
    word_ofNat_toNat hp, word_ofNat_toNat hc, rfl, ⟨rfl, rfl⟩, ⟨rfl, rfl⟩⟩

/-- Settles O22: a0 is below 2^32, so the high part of 7 a0 is at most 6, and RES1 holds it exactly (R116). -/
theorem c2bGivesTheExactProduct : Obligations.C2bGivesTheExactProduct := by
  intro s
  have ha : s.opA0 < 2 ^ 32 := s.seq.snap.a0.isLt
  have hhigh : 7 * s.opA0 / 2 ^ 32 ≤ 6 := by omega
  have hres1 : (BitVec.ofNat 32 (7 * s.opA0 / 2 ^ 32)).toNat = 7 * s.opA0 / 2 ^ 32 := word_ofNat_toNat (by omega)
  exact ⟨_, exec_c2b s, complete_succeeds s _ _ s.res2 s.len s.weff s.pix s.pay,
    BitVec.toNat_ofNat _ 32, hres1, hres1.trans_le hhigh, rfl, ⟨rfl, rfl⟩, ⟨rfl, rfl⟩⟩

end Sys2Proof.Machine
end

section
/-! SUPPORT. The commands WRHDR and RDHDR, and header fidelity (42_header_codec.md R120 to R125). -/

open Sys2Proof

namespace Sys2Proof.Machine

/-! ## The header of a written memory -/

/-- Header position `i` of a written memory holds bit 31 - i of the number written (R120). -/
theorem extractBit_read_hdrWrite (n : Nat) (m : Memory) {i : Nat} (hi : i < 32) :
    extractBit (Memory.read .pix (hdrWrite n m) i) = n.testBit (31 - i) := by
  rw [read_hdrWrite, if_pos hi, extractBit_embedBit]

/-- Header fidelity of the two header functions (R125). -/
theorem hdrRead_hdrWrite {n : Nat} (hn : n < 2 ^ 32) (m : Memory) : hdrRead (hdrWrite n m) = n := by
  calc hdrRead (hdrWrite n m)
      = bitsValue (fun i => n.testBit (32 - 1 - i)) 32 := bitsValue_congr fun _ hi => extractBit_read_hdrWrite n m hi
    _ = n / 2 ^ (32 - 32) % 2 ^ 32 := bitsValue_testBit n 32 32 le_rfl
    _ = n := by rw [Nat.sub_self, pow_zero, Nat.div_one, Nat.mod_eq_of_lt hn]

/-- A byte of a written memory, as numbers (R122). -/
theorem read_hdrWrite_toNat (n : Nat) (m : Memory) (a : Nat) :
    (Memory.read .pix (hdrWrite n m) a).toNat =
      if a < 32 then withLowBit (Memory.read .pix m a).toNat (n / 2 ^ (31 - a) % 2) else (Memory.read .pix m a).toNat := by
  rw [read_hdrWrite, apply_ite BitVec.toNat, embedBit_toNat, Nat.toNat_testBit]

/-! ## The commands where the image fits -/

theorem exec_wrhdr_of_imageFits {s : State} (h : imageFits s) :
    exec .wrhdr s = .next (complete { s with pix := hdrWrite s.opA0 s.pix }) := by
  rw [exec_wrhdr, runChecked_pass ((wrhdrChecks_pass s).2 h)]

theorem exec_rdhdr_of_imageFits {s : State} (h : imageFits s) :
    exec .rdhdr s = .next (complete { s with res0 := BitVec.ofNat 32 (hdrRead s.pix) }) := by
  rw [exec_rdhdr, runChecked_pass ((imageChecks_pass s).2 h)]

/-! ## The statements -/

/-- Settles O24: the image check comes first, HDR_OVERFLOW cannot fail, and the header write gives every byte (R123). -/
theorem wrhdrWritesTheHeader : Obligations.WrhdrWritesTheHeader := by
  intro s
  refine ⟨fun hsmall => ?_, fun hP hbounds => ?_, fun hfits => ?_⟩
  · rw [exec_wrhdr]
    exact runChecked_rejects (firstError_append_fail (imageChecks_small hsmall) _) _ s
  · rw [exec_wrhdr]
    exact runChecked_rejects (firstError_append_fail (imageChecks_bounds hP hbounds) _) _ s
  · have hread := read_hdrWrite_toNat s.opA0 s.pix
    have hexec := exec_wrhdr_of_imageFits hfits
    generalize hdrWrite s.opA0 s.pix = m at hread hexec
    exact ⟨_, hexec, complete_succeeds s s.res0 s.res1 s.res2 s.len s.weff m s.pay, ⟨rfl, rfl, rfl⟩, ⟨rfl, rfl⟩, rfl, hread⟩

/-- Settles O26: RDHDR reads the header of the memory WRHDR left, and a0 is below 2^32 (R125). -/
theorem headerReadsBackWhatWasWritten : Obligations.HeaderReadsBackWhatWasWritten := by
  intro s u hs hu t ht hpix
  have hheader : hdrRead u.pix = s.opA0 := by
    rw [exec_wrhdr_of_imageFits hs] at ht
    cases ht
    rw [hpix, complete_pix, hdrRead_hdrWrite s.seq.snap.a0.isLt]
  refine ⟨_, exec_rdhdr_of_imageFits hu, ?_⟩
  rw [complete_res0, hheader, State.opA0, BitVec.ofNat_toNat, BitVec.setWidth_eq]

/-- Settles O25: the image check comes first, and the header read is the sum of R121, below 2^32 (R124). -/
theorem rdhdrReadsTheHeader : Obligations.RdhdrReadsTheHeader := by
  intro s
  refine ⟨fun hsmall => ?_, fun hP hbounds => ?_, fun hfits => ?_⟩
  · rw [exec_rdhdr]
    exact runChecked_rejects (imageChecks_small hsmall) _ s
  · rw [exec_rdhdr]
    exact runChecked_rejects (imageChecks_bounds hP hbounds) _ s
  · have hexec := exec_rdhdr_of_imageFits hfits
    have hlt := headerOf_lt s
    rw [hdrRead_eq_headerOf] at hexec
    generalize headerOf s = n at hexec hlt ⊢
    exact ⟨_, hexec, complete_succeeds s _ s.res1 s.res2 s.len s.weff s.pix s.pay, word_ofNat_toNat hlt, rfl, rfl,
      ⟨rfl, rfl⟩, ⟨rfl, rfl⟩⟩

end Sys2Proof.Machine
end

section
/-! SUPPORT. The commands EMBIT, EXBIT, EMCHR, EXCHR and MAXCAP, and character fidelity (43_payload_codec.md R130 to R143). -/

open Sys2Proof

namespace Sys2Proof.Machine

/-! ## Operands and bits as numbers -/

/-- The component operand is a0 mod 256: a0[31:8] is ignored (R139). -/
theorem opComponent_toNat (s : State) : s.opComponent.toNat = s.opA0 % 256 := BitVec.toNat_setWidth 8 _

theorem opBit_toNat (s : State) : s.opBit.toNat = s.opA1 % 2 := by
  rw [State.opBit, BitVec.getLsbD, Nat.toNat_testBit, pow_zero, Nat.div_one]

theorem normChar_toNat (ch : Word) : (normChar ch).toNat = ch.toNat % 128 := BitVec.toNat_setWidth 7 ch

theorem cbit_toNat (ch : BitVec 7) (k : Nat) : (cbit ch k).toNat = ch.toNat / 2 ^ (6 - k) % 2 := by
  rw [cbit, BitVec.getLsbD, Nat.toNat_testBit]

/-- Equal lowest bits are equal extracted bits (R131). -/
theorem extractBit_eq_of_mod_two {v w : Byte} (h : v.toNat % 2 = w.toNat % 2) : extractBit v = extractBit w := by
  have hnat : (extractBit v).toNat = (extractBit w).toNat := by rw [extractBit_toNat, extractBit_toNat, h]
  exact Function.LeftInverse.injective Bool.ofNat_toNat hnat

/-! ## The character of a written memory -/

/-- A byte after a character is embedded, as numbers (R133, R134). -/
theorem read_embedChar_toNat (b : Nat) (ch : BitVec 7) (m : Memory) (a : Nat) :
    (Memory.read .pix (embedChar b ch m) a).toNat =
      if 33 + b ≤ a ∧ a < 33 + b + 7 then withLowBit (Memory.read .pix m a).toNat (ch.toNat / 2 ^ (6 - (a - (33 + b))) % 2)
      else (Memory.read .pix m a).toNat := by
  rw [read_embedChar, apply_ite BitVec.toNat, embedBit_toNat, cbit_toNat]

/-- Byte k of an embedded character's span holds bit k of its sequence (R133). -/
theorem extractBit_read_embedChar (b : Nat) (ch : BitVec 7) (m : Memory) {k : Nat} (hk : k < 7) :
    extractBit (Memory.read .pix (embedChar b ch m) (33 + b + k)) = cbit ch k := by
  rw [read_embedChar, if_pos (by omega), extractBit_embedBit, Nat.add_sub_cancel_left]

/-- Character fidelity of the two character functions (R136). -/
theorem extractChar_embedChar (b : Nat) (ch : BitVec 7) (m : Memory) : extractChar b (embedChar b ch m) = ch.toNat := by
  calc extractChar b (embedChar b ch m)
      = bitsValue (cbit ch) 7 := bitsValue_congr fun k hk => by rw [boff_eq, extractBit_read_embedChar b ch m hk]
    _ = ch.toNat := bitsValue_cbit ch

/-! ## The checks of a character's span -/

/-- PIX_BOUNDS where the image passes the end of PIX or the character's span passes the end of the image; no later check is
evaluated (R141, R142). -/
theorem charSpanChecks_bounds {s : State} (hP : 11 ≤ s.opP)
    (hbounds : s.params.pixBytes < 3 * s.opP ∨ 3 * s.opP < 33 + s.opA0 + 7) (checks : List Check) :
    firstError (imageChecks s ++ charSpanCheck s :: checks) = some .pixBounds := by
  rcases Nat.lt_or_ge s.params.pixBytes (3 * s.opP) with hpix | hpix
  · exact firstError_append_fail (imageChecks_bounds hP hpix) _
  · have hspan : 3 * s.opP < 33 + s.opA0 + 7 := hbounds.resolve_left (Nat.not_lt.2 hpix)
    rw [firstError_append_pass ((imageChecks_pass s).2 ⟨hP, hpix⟩)]
    exact firstError_cons_fail (decide_eq_false (Nat.not_le.2 hspan)) _

/-- CHAR_RANGE is the last of EMCHR's checks (R132, R141). -/
theorem emchrChecks_charRange {s : State} (hfits : imageFits s) (hspan : 33 + s.opA0 + 7 ≤ 3 * s.opP) (hch : 128 ≤ s.opA1)
    (hcm : s.opCm = false) :
    firstError (imageChecks s ++ [charSpanCheck s, (charAdmitted s.opCm s.opA1, .charRange)]) = some .charRange := by
  have hadmitted : charAdmitted s.opCm s.opA1 = false := by simp [charAdmitted, hcm, hch]
  rw [firstError_append_pass ((imageChecks_pass s).2 hfits), firstError_cons_pass (decide_eq_true hspan),
    firstError_cons_fail hadmitted]

/-! ## The commands where their checks pass -/

theorem exec_emchr_of_admitted {s : State} (hfits : imageFits s) (hspan : 33 + s.opA0 + 7 ≤ 3 * s.opP)
    (hch : s.opA1 < 128 ∨ s.opCm = true) :
    exec .emchr s = .next (complete { s with pix := embedChar s.opA0 (normChar s.seq.snap.a1) s.pix }) := by
  rw [exec_emchr, runChecked_pass ((emchrChecks_pass s).2 ⟨hfits, hspan, hch⟩)]

theorem exec_exchr_of_imageFits {s : State} (hfits : imageFits s) (hspan : 33 + s.opA0 + 7 ≤ 3 * s.opP) :
    exec .exchr s = .next (complete { s with res0 := BitVec.ofNat 32 (extractChar s.opA0 s.pix) }) := by
  rw [exec_exchr, runChecked_pass ((exchrChecks_pass s).2 ⟨hfits, hspan⟩)]

/-- A character fits RES0. -/
theorem extractChar_word_toNat (b : Nat) (m : Memory) : (BitVec.ofNat 32 (extractChar b m)).toNat = extractChar b m :=
  word_ofNat_toNat ((extractChar_lt b m).trans (by decide))

/-! ## The statements -/

/-- Settles O29: the checks are decided in their order, and the embedding gives every byte (R141). -/
theorem emchrEmbedsACharacter : Obligations.EmchrEmbedsACharacter := by
  intro s
  refine ⟨fun hsmall => ?_, fun hP hbounds => ?_, fun hfits hspan hch hcm => ?_, fun hfits hspan hch => ?_⟩
  · rw [exec_emchr]
    exact runChecked_rejects (firstError_append_fail (imageChecks_small hsmall) _) _ s
  · rw [exec_emchr]
    exact runChecked_rejects (charSpanChecks_bounds hP hbounds _) _ s
  · rw [exec_emchr]
    exact runChecked_rejects (emchrChecks_charRange hfits hspan hch hcm) _ s
  · have hread := read_embedChar_toNat s.opA0 (normChar s.seq.snap.a1) s.pix
    have hexec := exec_emchr_of_admitted hfits hspan hch
    rw [normChar_toNat] at hread
    generalize embedChar s.opA0 (normChar s.seq.snap.a1) s.pix = m at hread hexec
    exact ⟨_, hexec, complete_succeeds s s.res0 s.res1 s.res2 s.len s.weff m s.pay, ⟨rfl, rfl, rfl⟩, ⟨rfl, rfl⟩, rfl, hread⟩

/-- Settles O30: the checks are decided in their order, and the extraction is the sum of R135, below 128 (R142). -/
theorem exchrExtractsACharacter : Obligations.ExchrExtractsACharacter := by
  intro s
  refine ⟨fun hsmall => ?_, fun hP hbounds => ?_, fun hfits hspan => ?_⟩
  · rw [exec_exchr]
    exact runChecked_rejects (firstError_append_fail (imageChecks_small hsmall) _) _ s
  · rw [exec_exchr]
    exact runChecked_rejects (charSpanChecks_bounds hP hbounds _) _ s
  · have hres0 := extractChar_word_toNat s.opA0 s.pix
    have hle : extractChar s.opA0 s.pix ≤ 127 := Nat.le_of_lt_succ (extractChar_lt _ _)
    exact ⟨_, exec_exchr_of_imageFits hfits hspan, complete_succeeds s _ s.res1 s.res2 s.len s.weff s.pix s.pay,
      hres0.trans (extractChar_eq_characterOf s s.opA0), hres0.trans_le hle, rfl, rfl, ⟨rfl, rfl⟩, ⟨rfl, rfl⟩⟩

/-- Settles O31: EXCHR reads the seven lowest bits EMCHR left, which are those of a1 mod 128 (R136). -/
theorem characterReadsBackWhatWasEmbedded : Obligations.CharacterReadsBackWhatWasEmbedded := by
  intro s u t hs hu hspans hspanu hch ha0 ht hbits
  have hchar : extractChar u.opA0 u.pix = s.opA1 % 128 := by
    calc extractChar u.opA0 u.pix
        = extractChar s.opA0 u.pix := by rw [State.opA0, ha0]
      _ = extractChar s.opA0 t.pix := extractChar_congr fun k hk => extractBit_eq_of_mod_two (hbits k hk)
      _ = extractChar s.opA0 (embedChar s.opA0 (normChar s.seq.snap.a1) s.pix) := by
        rw [exec_emchr_of_admitted hs hspans hch] at ht
        cases ht
        rw [complete_pix]
      _ = s.opA1 % 128 := by rw [extractChar_embedChar, normChar_toNat]
  have hspan : 33 + u.opA0 + 7 ≤ 3 * u.opP := by rw [State.opA0, ha0]; exact hspanu
  refine ⟨_, exec_exchr_of_imageFits hu hspan, ?_⟩
  rw [complete_res0, extractChar_word_toNat, hchar]

/-- Settles O27: the check is a1 ≤ 1, and then a1 is its own lowest bit (R139). -/
theorem embitEmbedsABitOrRejects : Obligations.EmbitEmbedsABitOrRejects := by
  intro s
  rw [exec_embit]
  refine ⟨fun ha1 => ?_, fun ha1 => ?_⟩
  · have hbit : s.opBit.toNat = s.opA1 := by rw [opBit_toNat, Nat.mod_eq_of_lt (Nat.lt_succ_of_le ha1)]
    have hres0 : ((embedBit s.opComponent s.opBit).setWidth 32).toNat = withLowBit (s.opA0 % 256) s.opA1 := by
      rw [BitVec.toNat_setWidth_of_le (by decide), embedBit_toNat, opComponent_toNat, hbit]
    exact ⟨_, runChecked_pass (firstError_cons_pass (decide_eq_true ha1) _) _ s,
      complete_succeeds s _ s.res1 s.res2 s.len s.weff s.pix s.pay, hres0, rfl, rfl, ⟨rfl, rfl⟩, ⟨rfl, rfl⟩⟩
  · exact runChecked_rejects (firstError_cons_fail (decide_eq_false (Nat.not_le.2 ha1)) _) _ s

/-- Settles O28: the lowest bit of a0[7:0] is that of a0 (R140). -/
theorem exbitGivesTheLowestBit : Obligations.ExbitGivesTheLowestBit := by
  intro s
  have hres0 : ((BitVec.ofBool (extractBit s.opComponent)).setWidth 32).toNat = s.opA0 % 2 := by
    rw [BitVec.toNat_setWidth_of_le (by decide), BitVec.toNat_ofBool, extractBit_toNat, opComponent_toNat,
      Nat.mod_mod_of_dvd _ (by decide)]
  exact ⟨_, exec_exbit s, complete_succeeds s _ s.res1 s.res2 s.len s.weff s.pix s.pay,
    hres0, rfl, rfl, ⟨rfl, rfl⟩, ⟨rfl, rfl⟩⟩

/-- Settles O32: P is below 2^32, so its capacity fits RES0 (R143). -/
theorem maxcapGivesTheCapacity : Obligations.MaxcapGivesTheCapacity := by
  intro s
  have hP : s.opP < 2 ^ 32 := s.seq.snap.p.isLt
  have hfits : maxCapacity s.opP < 2 ^ 32 := by
    unfold maxCapacity
    split <;> omega
  exact ⟨_, exec_maxcap s, complete_succeeds s _ s.res1 s.res2 s.len s.weff s.pix s.pay,
    (word_ofNat_toNat hfits).trans (maxCapacity_eq_capacityOf s.opP), rfl, rfl, ⟨rfl, rfl⟩, ⟨rfl, rfl⟩⟩

end Sys2Proof.Machine
end

section
/-! SUPPORT. The ranges of a partition (44_work_partitioner.md R150 to R155), and the commands PART and LIMIT. -/

open Sys2Proof

namespace Sys2Proof.Machine

/-! ## The ranges tile the payload -/

theorem rangeStart_le {l we i : Nat} (hw : 1 ≤ we) (hi : i ≤ we) : rangeStart l we i ≤ l :=
  (rangeStart_mono l we hi).trans_eq (rangeStart_self hw l)

theorem rangeCount_le {l we i : Nat} (hi : i < we) : rangeCount l we i ≤ l :=
  (Nat.sub_le _ _).trans (rangeStart_le (Nat.one_le_of_lt hi) hi)

/-- A character of one range lies below the start of every later range, so two ranges share no character (R153). -/
theorem range_index_le {l we i j k : Nat} (hk : k < rangeStart l we i + rangeCount l we i) (hj : rangeStart l we j ≤ k) : j ≤ i := by
  rw [rangeStart_add_count] at hk
  by_contra hij
  have hnext : rangeStart l we (i + 1) ≤ rangeStart l we j := rangeStart_mono l we (by omega)
  omega

/-- Settles O35: the ranges cover exactly the characters below start(We) = L, and no two share one. -/
theorem rangesTileThePayload : Obligations.RangesTileThePayload := by
  intro l we hw
  refine ⟨rangeStart_zero l we, rangeStart_self hw l, fun _ _ => rangeStart_mono l we, fun k hk => ?_, fun i k hi hlow hhigh => ?_⟩
  · obtain ⟨i, hi, hlow, hhigh⟩ := (range_cover_all (.inl hw) k).2 hk
    refine ⟨i, ⟨hi, hlow, hhigh⟩, ?_⟩
    rintro j ⟨-, hlow', hhigh'⟩
    exact le_antisymm (range_index_le hhigh hlow') (range_index_le hhigh' hlow)
  · exact (range_cover_all (.inl hw) k).1 ⟨i, hi, hlow, hhigh⟩

/-! ## The sizes of the ranges -/

theorem rangeStart_succ (l we i : Nat) : rangeStart l we (i + 1) = ((2 * l * i + we) + 2 * l) / (2 * we) := by
  rw [rangeStart, Nat.mul_succ, Nat.add_right_comm]

/-- Adding L/We to a number raises its floor by at least floor(L/We) (R154). -/
theorem div_le_rangeCount (l we i : Nat) : l / we ≤ rangeCount l we i := by
  refine Nat.le_sub_of_add_le ?_
  calc l / we + rangeStart l we i
      = (2 * l * i + we) / (2 * we) + 2 * l / (2 * we) := by
        rw [Nat.mul_div_mul_left l we (by decide), Nat.add_comm, rangeStart]
    _ ≤ ((2 * l * i + we) + 2 * l) / (2 * we) := Nat.div_add_div_le_add_div
    _ = rangeStart l we (i + 1) := (rangeStart_succ l we i).symm

/-- A range holds at most `q` characters, where `q` characters for each range suffice for the payload. -/
theorem rangeCount_le_of_le_mul {l we q : Nat} (hw : 1 ≤ we) (hq : l ≤ we * q) (i : Nat) : rangeCount l we i ≤ q := by
  refine Nat.sub_le_of_le_add ?_
  calc rangeStart l we (i + 1)
      = ((2 * l * i + we) + 2 * l) / (2 * we) := rangeStart_succ l we i
    _ ≤ ((2 * l * i + we) + 2 * we * q) / (2 * we) := Nat.div_le_div_right (by rw [Nat.mul_assoc 2 we q]; omega)
    _ = q + rangeStart l we i := by rw [Nat.add_mul_div_left _ _ (by omega), Nat.add_comm, rangeStart]

theorem le_mul_roundedUp (l : Nat) {we : Nat} (hw : 1 ≤ we) : l ≤ we * ((l + we - 1) / we) := by
  rw [← Nat.ceilDiv_eq_add_pred_div, ← smul_eq_mul]
  exact le_smul_ceilDiv hw

/-- Settles O36: count(i) lies between L/We rounded down and up, and L/We rounded down is at least 1. -/
theorem rangesAreNonEmptyAndEven : Obligations.RangesAreNonEmptyAndEven := by
  intro l we i hw hl _
  have hlow : l / we ≤ rangeCount l we i := div_le_rangeCount l we i
  exact ⟨(Nat.div_pos hl hw).trans_le hlow, hlow, rangeCount_le_of_le_mul hw (le_mul_roundedUp l hw) i⟩

/-! ## The effective worker count -/

theorem effWorkers_le (w : Int) (l : Nat) : effWorkers w l ≤ l := Nat.min_le_right _ _

theorem effWorkers_of_le {w : Int} {l : Nat} (h : (l : Int) ≤ w) : effWorkers w l = l :=
  Nat.min_eq_right (by omega)

/-- With as many ranges as characters, the rounding of `start` adds one half to i and takes it away again (R155). -/
theorem rangeStart_of_workers_eq_length {l : Nat} (hl : 1 ≤ l) (i : Nat) : rangeStart l l i = i := by
  rw [rangeStart, Nat.mul_add_div (by omega), Nat.div_eq_of_lt (by omega), Nat.add_zero]

/-- Settles O37: We is L, start(i) = i, and so count(i) = (i + 1) - i. -/
theorem excessWorkersAreClamped : Obligations.ExcessWorkersAreClamped := by
  intro w l i hl hw _
  have hstart : ∀ n, rangeStart l l n = n := rangeStart_of_workers_eq_length hl
  rw [effWorkers_of_le hw, rangeCount, hstart, hstart]
  exact ⟨rfl, rfl, Nat.add_sub_cancel_left i 1⟩

/-! ## The commands PART and LIMIT -/

theorem exec_part_wcount {s : State} (hw : s.opA1Signed ≤ 0) : Rejects .wcount s (exec .part s) := by
  rw [exec_part, workerCheck]
  exact runChecked_rejects (firstError_cons_fail (decide_eq_false (by omega)) _) _ s

/-- PART's check of the range index, once its worker count is positive (R157). -/
theorem exec_part_rangeIndex {s : State} (hw : 1 ≤ s.opA1Signed) (hi : effWorkers s.opA1Signed s.opA0 ≤ s.opA2) :
    Rejects .rangeIndex s (exec .part s) := by
  have hindex : decide (s.opA2 < effWorkers s.opA1Signed s.opA0) = false := decide_eq_false (Nat.not_lt.2 hi)
  rw [exec_part, workerCheck]
  refine runChecked_rejects ?_ _ s
  rw [firstError_cons_pass (decide_eq_true hw), firstError_cons_fail hindex]

theorem exec_part_of_index_lt {s : State} (hw : 1 ≤ s.opA1Signed) (hi : s.opA2 < effWorkers s.opA1Signed s.opA0) :
    exec .part s = .next (complete { s with
      res0 := BitVec.ofNat 32 (rangeStart s.opA0 (effWorkers s.opA1Signed s.opA0) s.opA2)
      res1 := BitVec.ofNat 32 (rangeCount s.opA0 (effWorkers s.opA1Signed s.opA0) s.opA2)
      res2 := BitVec.ofNat 32 (effWorkers s.opA1Signed s.opA0) }) := by
  rw [exec_part, workerCheck, runChecked_pass]
  rw [firstError_cons_pass (decide_eq_true hw), firstError_cons_pass (decide_eq_true hi), firstError_nil]

/-- Settles O33: the checks in their order, and every number of the partition is at most L = a0, so it fits its register (R157). -/
theorem partGivesRangeOfThePartition : Obligations.PartGivesRangeOfThePartition := by
  intro s
  refine ⟨exec_part_wcount, exec_part_rangeIndex, fun hw hi => ?_⟩
  have hword : ∀ n ≤ s.opA0, (BitVec.ofNat 32 n).toNat = n := fun n hn =>
    word_ofNat_toNat (hn.trans_lt s.seq.snap.a0.isLt)
  exact ⟨_, exec_part_of_index_lt hw hi, complete_succeeds s _ _ _ s.len s.weff s.pix s.pay,
    hword _ (rangeStart_le (Nat.one_le_of_lt hi) hi.le), hword _ (rangeCount_le hi), hword _ (effWorkers_le _ _),
    ⟨rfl, rfl⟩, ⟨rfl, rfl⟩⟩

theorem getLimits_eq (k : Nat) : getLimits k = (11 + 7 * k / 3, 7 * k % 3) := by
  rw [getLimits, c2b_eq, address_eq]

/-- A low word and a high word hold a number below 2^64 exactly. -/
theorem word_pair_toNat {n : Nat} (h : n < 2 ^ 64) :
    (BitVec.ofNat 32 n).toNat + 2 ^ 32 * (BitVec.ofNat 32 (n / 2 ^ 32)).toNat = n := by
  rw [word_ofNat_toNat (show n / 2 ^ 32 < 2 ^ 32 by omega), BitVec.toNat_ofNat]
  exact Nat.mod_add_div n (2 ^ 32)

/-- Settles O34: a0 is below 2^32, so the pixel is below 3 · 2^32, RES0 and RES1 hold it, and RES1 is at most 2 (R158). -/
theorem limitGivesTheStartingBitAddress : Obligations.LimitGivesTheStartingBitAddress := by
  intro s
  have ha : s.opA0 < 2 ^ 32 := s.seq.snap.a0.isLt
  have hpixel : 11 + 7 * s.opA0 / 3 < 3 * 2 ^ 32 := by omega
  have hhigh : (11 + 7 * s.opA0 / 3) / 2 ^ 32 ≤ 2 := by omega
  have hexec := exec_limit s
  rw [getLimits_eq] at hexec
  exact ⟨_, hexec, complete_succeeds s _ _ _ s.len s.weff s.pix s.pay,
    word_pair_toNat (by omega), (word_ofNat_toNat (by omega)).trans_le hhigh, word_ofNat_toNat (by omega),
    ⟨rfl, rfl⟩, ⟨rfl, rfl⟩⟩

end Sys2Proof.Machine
end

section
/-! SUPPORT. The commands ENCRNG and DECRNG (45_worker_orchestration.md R165 to R169). -/

open Sys2Proof

namespace Sys2Proof.Machine

/-! ## The checks of a character range -/

/-- PIX_BOUNDS where the image passes the end of PIX or the range passes the end of the image (R168, R169). -/
theorem rangeChecks_pixBounds {s : State} (hP : 11 ≤ s.opP)
    (hbounds : s.params.pixBytes < 3 * s.opP ∨ 3 * s.opP < 33 + 7 * (s.opA0 + s.opA1)) :
    firstError (imageChecks s ++ rangeChecks s) = some .pixBounds := by
  rcases Nat.lt_or_ge s.params.pixBytes (3 * s.opP) with hpix | hpix
  · exact firstError_append_fail (imageChecks_bounds hP hpix) _
  · have hspan : 3 * s.opP < 33 + 7 * (s.opA0 + s.opA1) := hbounds.resolve_left (Nat.not_lt.2 hpix)
    rw [firstError_append_pass ((imageChecks_pass s).2 ⟨hP, hpix⟩)]
    exact firstError_cons_fail (decide_eq_false (Nat.not_le.2 hspan)) _

/-- PAY_BOUNDS comes after the image and the range in it (R168, R169). -/
theorem rangeChecks_payBounds {s : State} (hfits : imageFits s) (hspan : 33 + 7 * (s.opA0 + s.opA1) ≤ 3 * s.opP)
    (hpay : s.params.payBytes < s.opA0 + s.opA1) : firstError (imageChecks s ++ rangeChecks s) = some .payBounds := by
  rw [firstError_append_pass ((imageChecks_pass s).2 hfits), rangeChecks, firstError_cons_pass (decide_eq_true hspan)]
  exact firstError_cons_fail (decide_eq_false (Nat.not_le.2 hpay)) _

/-- CHMODE rejects a character of the span (43_payload_codec.md R132). -/
theorem charsCheck_fail {s : State} {start n : Nat} (h : ¬ charsFit s start n) : (charsCheck s start n).1 = false := by
  rw [Bool.eq_false_iff]
  exact mt (charsCheck_pass s start n).1 h

/-! ## The memories after a range, as numbers -/

theorem read_encRange_toNat (s : State) (b n a : Nat) :
    (Memory.read .pix (encRange s.pay b n s.pix) a).toNat =
      if 33 + 7 * b ≤ a ∧ a < 33 + 7 * (b + n) then withLowBit (s.pixAt a).toNat (payloadBitOf s a) else (s.pixAt a).toNat := by
  rw [read_encRange, apply_ite BitVec.toNat, embedBit_toNat, payloadBit_toNat]
  rfl

/-- A character fits a byte, and bit 7 of the byte is 0 (R166). -/
theorem extractChar_byte_toNat (b : Nat) (s : State) : (BitVec.ofNat 8 (extractChar b s.pix)).toNat = characterOf s b := by
  rw [BitVec.toNat_ofNat, Nat.mod_eq_of_lt ((extractChar_lt b s.pix).trans (by decide)), extractChar_eq_characterOf]

theorem read_decRange_toNat (s : State) (b n a : Nat) :
    (Memory.read .pay (decRange s.pix b n s.pay) a).toNat =
      if b ≤ a ∧ a < b + n then characterOf s (7 * a) else (s.payAt a).toNat := by
  rw [read_decRange, apply_ite BitVec.toNat, extractChar_byte_toNat]
  rfl

/-! ## The commands -/

theorem exec_encrng_rejects {s : State} {code : ErrCode}
    (h : firstError (imageChecks s ++ rangeChecks s ++ [charsCheck s s.opA0 s.opA1]) = some code) :
    Rejects code s (exec .encrng s) := by
  rw [exec_encrng, openEncrng]
  exact openChecked_rejects h _ s

theorem exec_decrng_rejects {s : State} {code : ErrCode} (h : firstError (imageChecks s ++ rangeChecks s) = some code) :
    Rejects code s (exec .decrng s) := by
  rw [exec_decrng, openDecrng]
  exact openChecked_rejects h _ s

theorem exec_encrng_of_checks {s : State}
    (h : firstError (imageChecks s ++ rangeChecks s ++ [charsCheck s s.opA0 s.opA1]) = none) :
    exec .encrng s = .next (complete { s with pix := encRange s.pay s.opA0 s.opA1 s.pix }) := by
  rw [exec_encrng, openEncrng, openChecked_pass h, finish_encrng]

theorem exec_decrng_of_checks {s : State} (h : firstError (imageChecks s ++ rangeChecks s) = none) :
    exec .decrng s = .next (complete { s with pay := decRange s.pix s.opA0 s.opA1 s.pay }) := by
  rw [exec_decrng, openDecrng, openChecked_pass h, finish_decrng]

/-- Settles O38: the checks are decided in their order, and the range task gives every byte (R168). -/
theorem encrngEncodesARange : Obligations.EncrngEncodesARange := by
  intro s p b n
  refine ⟨fun hsmall => ?_, fun hP hbounds => ?_, fun hfits hspan hpay => ?_, fun hfits hspan hpay hchars => ?_,
    fun hfits hspan hpay hchars => ?_⟩
  · exact exec_encrng_rejects (firstError_append_fail (firstError_append_fail (imageChecks_small hsmall) _) _)
  · exact exec_encrng_rejects (firstError_append_fail (rangeChecks_pixBounds hP hbounds) _)
  · exact exec_encrng_rejects (firstError_append_fail (rangeChecks_payBounds hfits hspan hpay) _)
  · refine exec_encrng_rejects ?_
    rw [firstError_append_pass ((decrngChecks_pass s).2 ⟨hfits, hspan, hpay⟩)]
    exact firstError_cons_fail (charsCheck_fail hchars) _
  · exact ⟨_, exec_encrng_of_checks ((encrngChecks_pass s).2 ⟨⟨hfits, hspan, hpay⟩, hchars⟩),
      complete_succeeds s s.res0 s.res1 s.res2 s.len s.weff _ s.pay, ⟨rfl, rfl, rfl⟩, ⟨rfl, rfl⟩, rfl,
      read_encRange_toNat s b n⟩

/-- Settles O39: the checks are decided in their order, and the range task gives every byte (R169). -/
theorem decrngDecodesARange : Obligations.DecrngDecodesARange := by
  intro s p b n
  refine ⟨fun hsmall => ?_, fun hP hbounds => ?_, fun hfits hspan hpay => ?_, fun hfits hspan hpay => ?_⟩
  · exact exec_decrng_rejects (firstError_append_fail (imageChecks_small hsmall) _)
  · exact exec_decrng_rejects (rangeChecks_pixBounds hP hbounds)
  · exact exec_decrng_rejects (rangeChecks_payBounds hfits hspan hpay)
  · exact ⟨_, exec_decrng_of_checks ((decrngChecks_pass s).2 ⟨hfits, hspan, hpay⟩),
      complete_succeeds s s.res0 s.res1 s.res2 s.len s.weff s.pix _, ⟨rfl, rfl, rfl⟩, ⟨rfl, rfl⟩, rfl,
      read_decRange_toNat s b n⟩

end Sys2Proof.Machine
end

section
/-! SUPPORT. The orchestrated commands ENCODE and DECODE (45_worker_orchestration.md R173 to R177, R180). -/

open Sys2Proof

namespace Sys2Proof.Machine

/-! ## The checks of ENCODE and DECODE -/

/-- WCOUNT is the first check of both commands. -/
theorem decodeChecks_wcount {s : State} (hW : s.opWin ≤ 0) : firstError (decodeChecks s) = some .wcount :=
  firstError_cons_fail (decide_eq_false (by omega)) _

theorem decodeChecks_of_worker {s : State} (hW : 1 ≤ s.opWin) : firstError (decodeChecks s) = firstError (imageChecks s) :=
  firstError_cons_pass (decide_eq_true hW) _

/-- ENCODE begins with the checks of DECODE (R173, R174). -/
theorem encodeChecks_eq (s : State) :
    encodeChecks s = decodeChecks s ++
      [(decide (s.opLin ≤ maxCapacity s.opP), .capacity), (decide (s.opLin ≤ s.params.payBytes), .payBounds),
        (decide (s.opLin < 2 ^ Config.hdrBits), .hdrOverflow), charsCheck s 0 s.opLin] := rfl

theorem encodeChecks_capacity {s : State} (hW : 1 ≤ s.opWin) (hfits : imageFits s) (hcap : capacityOf s.opP < s.opLin) :
    firstError (encodeChecks s) = some .capacity := by
  rw [encodeChecks_eq, firstError_append_pass ((decodeChecks_pass s).2 ⟨hW, hfits⟩)]
  exact firstError_cons_fail (decide_eq_false (Nat.not_le.2 hcap)) _

theorem encodeChecks_payBounds {s : State} (hW : 1 ≤ s.opWin) (hfits : imageFits s) (hcap : s.opLin ≤ capacityOf s.opP)
    (hpay : s.params.payBytes < s.opLin) : firstError (encodeChecks s) = some .payBounds := by
  rw [encodeChecks_eq, firstError_append_pass ((decodeChecks_pass s).2 ⟨hW, hfits⟩), firstError_cons_pass (decide_eq_true hcap)]
  exact firstError_cons_fail (decide_eq_false (Nat.not_le.2 hpay)) _

/-- LEN is below 2^32, so HDR_OVERFLOW never comes before CHAR_RANGE (R173). -/
theorem encodeChecks_charRange {s : State} (hW : 1 ≤ s.opWin) (hfits : imageFits s) (hcap : s.opLin ≤ capacityOf s.opP)
    (hpay : s.opLin ≤ s.params.payBytes) (hchars : ¬ charsFit s 0 s.opLin) : firstError (encodeChecks s) = some .charRange := by
  have hhdr : s.opLin < 2 ^ Config.hdrBits := s.seq.snap.lin.isLt
  rw [encodeChecks_eq, firstError_append_pass ((decodeChecks_pass s).2 ⟨hW, hfits⟩), firstError_cons_pass (decide_eq_true hcap),
    firstError_cons_pass (decide_eq_true hpay), firstError_cons_pass (decide_eq_true hhdr)]
  exact firstError_cons_fail (charsCheck_fail hchars) _

theorem encodeChecks_of_admitted {s : State} (hW : 1 ≤ s.opWin) (hfits : imageFits s) (hcap : s.opLin ≤ capacityOf s.opP)
    (hpay : s.opLin ≤ s.params.payBytes) (hchars : charsFit s 0 s.opLin) : firstError (encodeChecks s) = none := by
  simp only [charsFit, Nat.zero_add] at hchars
  exact (encodeChecks_pass s).2 ⟨⟨hW, hfits⟩, hcap, hpay, hchars⟩

/-- Both checks of the decoded length raise HDR_LENGTH (R174). -/
theorem lengthChecks_fail {s : State} {l : Nat} (h : capacityOf s.opP < l ∨ s.params.payBytes < l) :
    firstError (lengthChecks s l) = some .hdrLength := by
  rcases Nat.lt_or_ge (maxCapacity s.opP) l with hcap | hcap
  · exact firstError_cons_fail (decide_eq_false (Nat.not_le.2 hcap)) _
  · have hpay : s.params.payBytes < l := h.resolve_left (Nat.not_lt.2 hcap)
    rw [lengthChecks, firstError_cons_pass (decide_eq_true hcap)]
    exact firstError_cons_fail (decide_eq_false (Nat.not_le.2 hpay)) _

/-! ## The memories the two commands leave -/

/-- PIX as an ENCODE of `s` that runs `we` ranges leaves it (R173). -/
def encodedPix (s : State) (we : Nat) : Memory :=
  (runRanges .encode we (openJob .encode s.opLin we { s with pix := hdrWrite s.opLin s.pix })).pix

/-- PAY as a DECODE of `s` that runs `we` ranges over `l` characters leaves it (R174). -/
def decodedPay (s : State) (l we : Nat) : Memory := (runRanges .decode we (openJob .decode l we s)).pay

/-- The header bytes take the bits of the length, the payload bytes those of their characters, however many ranges there are
(R177). -/
theorem read_encodedPix {s : State} {we : Nat} (h : 1 ≤ we ∨ s.opLin = 0) (a : Nat) :
    Memory.read .pix (encodedPix s we) a =
      if a < 32 ∨ 33 ≤ a ∧ a < 33 + 7 * s.opLin then
        embedBit (s.pixAt a) (if a < 32 then s.opLin.testBit (31 - a) else payloadBit s.pay a)
      else s.pixAt a :=
  read_encode_pix_hdrWrite h s s.opLin a

theorem read_encodedPix_toNat {s : State} {we : Nat} (h : 1 ≤ we ∨ s.opLin = 0) (a : Nat) :
    (Memory.read .pix (encodedPix s we) a).toNat =
      if a < 32 then withLowBit (s.pixAt a).toNat (s.opLin / 2 ^ (31 - a) % 2)
      else if 33 ≤ a ∧ a < 33 + 7 * s.opLin then withLowBit (s.pixAt a).toNat (payloadBitOf s a) else (s.pixAt a).toNat := by
  rw [read_encodedPix h, apply_ite BitVec.toNat, embedBit_toNat, ← payloadBit_toNat, ← Nat.toNat_testBit]
  by_cases h32 : a < 32
  · simp only [h32, true_or, if_true]
  · simp only [h32, false_or, if_false]

theorem read_decodedPay {s : State} {l we : Nat} (h : 1 ≤ we ∨ l = 0) (a : Nat) :
    Memory.read .pay (decodedPay s l we) a = if a < l then BitVec.ofNat 8 (extractChar (7 * a) s.pix) else s.payAt a :=
  read_decode_pay h s a

theorem read_decodedPay_toNat {s : State} {l we : Nat} (h : 1 ≤ we ∨ l = 0) (a : Nat) :
    (Memory.read .pay (decodedPay s l we) a).toNat = if a < l then characterOf s (7 * a) else (s.payAt a).toNat := by
  rw [read_decodedPay h, apply_ite BitVec.toNat, extractChar_byte_toNat]

/-! ## The commands -/

theorem exec_encode_rejects {s : State} {code : ErrCode} (h : firstError (encodeChecks s) = some code) :
    Rejects code s (exec .encode s) := by
  rw [exec_encode, openEncode]
  exact openChecked_rejects h _ s

theorem exec_decode_rejects {s : State} {code : ErrCode} (h : firstError (decodeChecks s) = some code) :
    Rejects code s (exec .decode s) := by
  rw [exec_decode, openDecode]
  exact openChecked_rejects h _ s

theorem exec_encode_of_checks {s : State} (h : firstError (encodeChecks s) = none) :
    exec .encode s = .next (complete { s with
      weff := BitVec.ofNat 32 (effWorkers s.opWin s.opLin)
      pix := encodedPix s (effWorkers s.opWin s.opLin) }) := by
  rw [exec_encode, openEncode, openChecked_pass h, finish_encode, encodedPix]

/-- DECODE of a header `l` that passes the length checks. -/
theorem exec_decode_of_checks {s : State} {l : Nat} (hW : 1 ≤ s.opWin) (hfits : imageFits s) (hl : headerOf s = l)
    (hcap : l ≤ capacityOf s.opP) (hpay : l ≤ s.params.payBytes) :
    exec .decode s = .next (complete { s with
      res0 := BitVec.ofNat 32 l
      len := BitVec.ofNat 32 l
      weff := BitVec.ofNat 32 (effWorkers s.opWin l)
      pay := decodedPay s l (effWorkers s.opWin l) }) :=
  exec_decode_good_length ((decodeChecks_pass s).2 ⟨hW, hfits⟩) hl ((lengthChecks_pass s l).2 ⟨hcap, hpay⟩)

/-- The effective worker count is at most L, so it fits WEFF. -/
theorem effWorkers_word_toNat {l : Nat} (h : l < 2 ^ 32) (w : Int) : (BitVec.ofNat 32 (effWorkers w l)).toNat = min w.toNat l :=
  word_ofNat_toNat ((effWorkers_le w l).trans_lt h)

/-- Settles O40: the checks are decided in their order, and the header write and the ranges give every byte (R173). -/
theorem encodeHidesThePayload : Obligations.EncodeHidesThePayload := by
  intro s p l w
  refine ⟨fun hW => ?_, fun hW hsmall => ?_, fun hW hP hbounds => ?_, fun hW hfits hcap => ?_, fun hW hfits hcap hpay => ?_,
    fun hW hfits hcap hpay hchars => ?_, fun hW hfits hcap hpay hchars => ?_⟩
  · exact exec_encode_rejects (firstError_append_fail (decodeChecks_wcount hW) _)
  · exact exec_encode_rejects (firstError_append_fail ((decodeChecks_of_worker hW).trans (imageChecks_small hsmall)) _)
  · exact exec_encode_rejects (firstError_append_fail ((decodeChecks_of_worker hW).trans (imageChecks_bounds hP hbounds)) _)
  · exact exec_encode_rejects (encodeChecks_capacity hW hfits hcap)
  · exact exec_encode_rejects (encodeChecks_payBounds hW hfits hcap hpay)
  · exact exec_encode_rejects (encodeChecks_charRange hW hfits hcap hpay hchars)
  · exact ⟨_, exec_encode_of_checks (encodeChecks_of_admitted hW hfits hcap hpay hchars),
      complete_succeeds s s.res0 s.res1 s.res2 s.len _ _ s.pay, ⟨rfl, rfl, rfl⟩, rfl,
      effWorkers_word_toNat s.seq.snap.lin.isLt w, rfl, read_encodedPix_toNat (effWorkers_pos hW l)⟩

/-- Settles O41: the checks are decided in their order, on HDR_LENGTH only RES0 is written, and the ranges give every byte
(R174). -/
theorem decodeRecoversThePayload : Obligations.DecodeRecoversThePayload := by
  intro s p w l
  have hl : headerOf s = l := rfl
  have hlt : l < 2 ^ 32 := headerOf_lt s
  clear_value l
  refine ⟨fun hW => ?_, fun hW hsmall => ?_, fun hW hP hbounds => ?_, fun hW hfits hlong => ?_, fun hW hfits hcap hpay => ?_⟩
  · exact exec_decode_rejects (decodeChecks_wcount hW)
  · exact exec_decode_rejects ((decodeChecks_of_worker hW).trans (imageChecks_small hsmall))
  · exact exec_decode_rejects ((decodeChecks_of_worker hW).trans (imageChecks_bounds hP hbounds))
  · exact ⟨_, exec_decode_bad_length ((decodeChecks_pass s).2 ⟨hW, hfits⟩) hl (lengthChecks_fail hlong),
      raiseError_fails_res0 .hdrLength s _, word_ofNat_toNat hlt, rfl, rfl, ⟨rfl, rfl⟩, ⟨rfl, rfl⟩⟩
  · exact ⟨_, exec_decode_of_checks hW hfits hl hcap hpay, complete_succeeds s _ s.res1 s.res2 _ _ s.pix _,
      word_ofNat_toNat hlt, rfl, rfl, word_ofNat_toNat hlt, effWorkers_word_toNat hlt w, rfl,
      read_decodedPay_toNat (effWorkers_pos hW l)⟩

/-- Settles O47: the capacity is what the check admits, and one more is what it rejects (R180). -/
theorem capacityBoundaryIsExact : Obligations.CapacityBoundaryIsExact := by
  intro s hfits hW hpay hchars
  refine ⟨fun hl => ?_, fun hl => ?_⟩
  · exact ⟨_, exec_encode_of_checks (encodeChecks_of_admitted hW hfits hl.le hpay hchars),
      complete_succeeds s s.res0 s.res1 s.res2 s.len _ _ s.pay⟩
  · exact exec_encode_rejects (encodeChecks_capacity hW hfits ((Nat.lt_succ_self _).trans_eq hl.symm))

/-! ## The round trip -/

theorem extractBit_read_encodedPix_header {s : State} {we : Nat} (h : 1 ≤ we ∨ s.opLin = 0) {i : Nat} (hi : i < 32) :
    extractBit (Memory.read .pix (encodedPix s we) i) = s.opLin.testBit (31 - i) := by
  rw [read_encodedPix h, if_pos (.inl hi), if_pos hi, extractBit_embedBit]

theorem hdrRead_encodedPix {s : State} {we : Nat} (h : 1 ≤ we ∨ s.opLin = 0) : hdrRead (encodedPix s we) = s.opLin := by
  calc hdrRead (encodedPix s we)
      = hdrRead (hdrWrite s.opLin s.pix) := hdrRead_congr fun i hi => by
        rw [extractBit_read_encodedPix_header h hi, extractBit_read_hdrWrite _ _ hi]
    _ = s.opLin := hdrRead_hdrWrite s.seq.snap.lin.isLt s.pix

/-- Byte k of character c holds bit k of the payload's byte c mod 128 (43_payload_codec.md R133). -/
theorem extractBit_read_encodedPix_payload {s : State} {we : Nat} (h : 1 ≤ we ∨ s.opLin = 0) {c k : Nat} (hc : c < s.opLin)
    (hk : k < 7) : extractBit (Memory.read .pix (encodedPix s we) (33 + 7 * c + k)) = cbit (normByte (s.payAt c)) k := by
  have hq : (33 + 7 * c + k - 33) / 7 = c := by omega
  have hr : (33 + 7 * c + k - 33) % 7 = k := by omega
  rw [read_encodedPix h, if_pos (.inr (by omega)), if_neg (by omega), extractBit_embedBit, payloadBit, hq, hr, State.payAt]

theorem extractChar_encodedPix {s : State} {we : Nat} (h : 1 ≤ we ∨ s.opLin = 0) {c : Nat} (hc : c < s.opLin) :
    extractChar (7 * c) (encodedPix s we) = (s.payAt c).toNat % 128 := by
  calc extractChar (7 * c) (encodedPix s we)
      = bitsValue (cbit (normByte (s.payAt c))) 7 := bitsValue_congr fun k hk => by
        rw [boff_eq, extractBit_read_encodedPix_payload h hc hk]
    _ = (normByte (s.payAt c)).toNat := bitsValue_cbit _
    _ = (s.payAt c).toNat % 128 := BitVec.toNat_setWidth 7 _

/-- Settles O42: a memory with the lowest bits ENCODE left holds its header and its characters, and DECODE gives those back
(R176). -/
theorem decodeAfterEncodeGivesThePayload : Obligations.DecodeAfterEncodeGivesThePayload := by
  intro s t u hW hfits hcap hpay hchars ht hWu hp hparams hbits
  have hpos := effWorkers_pos hW s.opLin
  have hpix : t.pix = encodedPix s (effWorkers s.opWin s.opLin) := by
    rw [exec_encode_of_checks (encodeChecks_of_admitted hW hfits hcap hpay hchars)] at ht
    cases ht
    rfl
  have hbit : ∀ a, (a < 32 ∨ 33 ≤ a ∧ a < 33 + 7 * s.opLin) →
      extractBit (Memory.read .pix u.pix a) = extractBit (Memory.read .pix (encodedPix s (effWorkers s.opWin s.opLin)) a) := by
    intro a ha
    rw [← hpix]
    exact extractBit_eq_of_mod_two (hbits a ha)
  have hheader : headerOf u = s.opLin := by
    rw [← hdrRead_eq_headerOf, ← hdrRead_encodedPix hpos]
    exact hdrRead_congr fun i hi => hbit i (.inl hi)
  have hchar : ∀ k < s.opLin, characterOf u (7 * k) = (s.payAt k).toNat % 128 := fun k hk => by
    rw [← extractChar_eq_characterOf, ← extractChar_encodedPix hpos hk]
    exact extractChar_congr fun i hi => hbit _ (.inr (by omega))
  have hfitsu : imageFits u := by rw [imageFits, hp, hparams]; exact hfits
  refine ⟨_, exec_decode_of_checks hWu hfitsu hheader (by rw [State.opP, hp]; exact hcap) (by rw [hparams]; exact hpay),
    complete_succeeds u _ u.res1 u.res2 _ _ u.pix _, ?_, fun k hk => ?_⟩
  · rw [complete_len, State.opLin, BitVec.ofNat_toNat, BitVec.setWidth_eq]
  · exact ((read_decodedPay_toNat (effWorkers_pos hWu _) k).trans (if_pos hk)).trans (hchar k hk)

/-! ## The partition is unobservable -/

/-- The state with another requested worker count in the snapshot. -/
def withWorkers (s : State) (w : Word) : State := { s with seq := { s.seq with snap := { s.seq.snap with win := w } } }

/-- With two positive worker counts the checks of ENCODE decide alike. -/
theorem encodeChecks_withWorkers {s : State} {w : Word} (hW : 1 ≤ s.opWin) (hw : 1 ≤ w.toInt) :
    firstError (encodeChecks (withWorkers s w)) = firstError (encodeChecks s) :=
  (firstError_cons_pass (decide_eq_true hw) _).trans (firstError_cons_pass (decide_eq_true hW) _).symm

theorem decodeChecks_withWorkers {s : State} {w : Word} (hW : 1 ≤ s.opWin) (hw : 1 ≤ w.toInt) :
    firstError (decodeChecks (withWorkers s w)) = firstError (decodeChecks s) :=
  (decodeChecks_of_worker (s := withWorkers s w) hw).trans (decodeChecks_of_worker hW).symm

/-- What the host can read after two runs agrees, but for WEFF (R177). -/
def AgreeButWeff (t t' : State) : Prop :=
  (∀ a, t'.pixAt a = t.pixAt a) ∧ (∀ a, t'.payAt a = t.payAt a) ∧ t'.status = t.status ∧ ResultsKept t t' ∧ t'.len = t.len

theorem raiseError_agree (code : ErrCode) (s : State) (w : Word) :
    AgreeButWeff (raiseError code s) (raiseError code (withWorkers s w)) :=
  ⟨fun _ => rfl, fun _ => rfl, rfl, ⟨rfl, rfl, rfl⟩, rfl⟩

/-- Two completions with the same RES0 and LEN and with memories that read alike agree. The memories are variables here: a
unifier would run the ranges of a job to compare them. -/
theorem complete_agree (s : State) (w r0 l we we' : Word) {pix pix' pay pay' : Memory}
    (hpix : ∀ a, Memory.read .pix pix' a = Memory.read .pix pix a) (hpay : ∀ a, Memory.read .pay pay' a = Memory.read .pay pay a) :
    AgreeButWeff (complete { s with res0 := r0, len := l, weff := we, pix := pix, pay := pay })
      (complete { withWorkers s w with res0 := r0, len := l, weff := we', pix := pix', pay := pay' }) :=
  ⟨hpix, hpay, rfl, ⟨rfl, rfl, rfl⟩, rfl⟩

theorem read_encodedPix_withWorkers {s : State} {w : Word} {we we' : Nat} (h : 1 ≤ we ∨ s.opLin = 0)
    (h' : 1 ≤ we' ∨ s.opLin = 0) (a : Nat) :
    Memory.read .pix (encodedPix (withWorkers s w) we') a = Memory.read .pix (encodedPix s we) a :=
  (read_encodedPix (s := withWorkers s w) h' a).trans (read_encodedPix (s := s) h a).symm

theorem read_decodedPay_withWorkers {s : State} {w : Word} {l we we' : Nat} (h : 1 ≤ we ∨ l = 0) (h' : 1 ≤ we' ∨ l = 0)
    (a : Nat) : Memory.read .pay (decodedPay (withWorkers s w) l we') a = Memory.read .pay (decodedPay s l we) a :=
  (read_decodedPay (s := withWorkers s w) h' a).trans (read_decodedPay (s := s) h a).symm

theorem exec_encode_withWorkers {s : State} {w : Word} (hW : 1 ≤ s.opWin) (hw : 1 ≤ w.toInt) :
    ∃ t t', exec .encode s = .next t ∧ exec .encode (withWorkers s w) = .next t' ∧ AgreeButWeff t t' := by
  have hsame := encodeChecks_withWorkers hW hw
  cases hc : firstError (encodeChecks s) with
  | some code =>
    rw [exec_encode, exec_encode, openEncode, openEncode, openChecked_fail hc, openChecked_fail (hsame.trans hc)]
    exact ⟨_, _, rfl, rfl, raiseError_agree code s w⟩
  | none =>
    exact ⟨_, _, exec_encode_of_checks hc, exec_encode_of_checks (hsame.trans hc),
      complete_agree s w s.res0 s.len _ _
        (read_encodedPix_withWorkers (effWorkers_pos hW s.opLin) (effWorkers_pos hw s.opLin)) fun _ => rfl⟩

theorem headerOf_withWorkers (s : State) (w : Word) : headerOf (withWorkers s w) = headerOf s := by
  rw [← hdrRead_eq_headerOf, ← hdrRead_eq_headerOf, withWorkers]

theorem exec_decode_withWorkers {s : State} {w : Word} (hW : 1 ≤ s.opWin) (hw : 1 ≤ w.toInt) :
    ∃ t t', exec .decode s = .next t ∧ exec .decode (withWorkers s w) = .next t' ∧ AgreeButWeff t t' := by
  have hsame := decodeChecks_withWorkers hW hw
  cases hc : firstError (decodeChecks s) with
  | some code =>
    rw [exec_decode, exec_decode, openDecode, openDecode, openChecked_fail hc, openChecked_fail (hsame.trans hc)]
    exact ⟨_, _, rfl, rfl, raiseError_agree code s w⟩
  | none =>
    obtain ⟨l, hl⟩ : ∃ l, headerOf s = l := ⟨_, rfl⟩
    have hl' : headerOf (withWorkers s w) = l := (headerOf_withWorkers s w).trans hl
    cases hlen : firstError (lengthChecks s l) with
    | some code =>
      exact ⟨_, _, exec_decode_bad_length hc hl hlen, exec_decode_bad_length (hsame.trans hc) hl' hlen,
        raiseError_agree code { s with res0 := BitVec.ofNat 32 l } w⟩
    | none =>
      exact ⟨_, _, exec_decode_good_length hc hl hlen, exec_decode_good_length (hsame.trans hc) hl' hlen,
        complete_agree s w _ _ _ _ (fun _ => rfl)
          (read_decodedPay_withWorkers (effWorkers_pos hW l) (effWorkers_pos hw l))⟩

/-- Settles O43: the checks decide alike, and what the ranges leave does not depend on how many there are (R177). -/
theorem resultsDoNotDependOnTheWorkerCount : Obligations.ResultsDoNotDependOnTheWorkerCount := by
  have agree {i : Instr} {s t : State} {w : Word}
      (h : ∃ u u', exec i s = .next u ∧ exec i (withWorkers s w) = .next u' ∧ AgreeButWeff u u') (e : exec i s = .next t) :
      ∃ t', exec i (withWorkers s w) = .next t' ∧ AgreeButWeff t t' := by
    obtain ⟨u, u', hu, hu', hag⟩ := h
    rw [hu] at e
    cases e
    exact ⟨u', hu', hag⟩
  rintro i s t w (rfl | rfl) hW hw e
  · exact agree (exec_encode_withWorkers hW hw) e
  · exact agree (exec_decode_withWorkers hW hw) e

end Sys2Proof.Machine
end

section
/-! SUPPORT. What no command reads or writes: the number of engines, the engines and the schedule (45_worker_orchestration.md
R181). -/

open Sys2Proof

namespace Sys2Proof.Machine

/-- The state with another number of engines, other engines and another schedule. -/
def withEngines (n : Nat) (es : List Engine) (ts : List Turn) (s : State) : State :=
  { s with params := { s.params with numEngines := n }, engines := es, sched := ts }

section
variable (n : Nat) (es : List Engine) (ts : List Turn)

/-- The written memory is a variable here: a unifier would run a header write to compare two of them. -/
theorem setPix_withEngines (m : Memory) (s : State) :
    { withEngines n es ts s with pix := m } = withEngines n es ts { s with pix := m } := rfl

theorem openJob_setPix_withEngines (j : Job) (l we : Nat) (m : Memory) (s : State) :
    openJob j l we { withEngines n es ts s with pix := m } = withEngines n es ts (openJob j l we { s with pix := m }) := rfl

theorem runChecked_withEngines {checks : List Check} {body : State → State} {s t : State}
    (hb : body (withEngines n es ts s) = withEngines n es ts (body s)) (e : runChecked checks body s = .next t) :
    runChecked checks body (withEngines n es ts s) = .next (withEngines n es ts t) := by
  rcases runChecked_cases e with ⟨code, hc, e⟩ | ⟨hc, e⟩ <;> cases e
  · rw [runChecked_fail hc]; rfl
  · rw [runChecked_pass hc, hb]; rfl

theorem openChecked_withEngines {checks : List Check} {body : State → State} {s : State}
    (hb : body (withEngines n es ts s) = withEngines n es ts (body s)) :
    openChecked checks body (withEngines n es ts s) = withEngines n es ts (openChecked checks body s) := by
  cases hc : firstError checks with
  | some code => rw [openChecked_fail hc, openChecked_fail hc]; rfl
  | none => rw [openChecked_pass hc, openChecked_pass hc, hb]

theorem openDecodeLength_withEngines (l : Nat) (s : State) :
    openDecodeLength l (withEngines n es ts s) = withEngines n es ts (openDecodeLength l s) := by
  have hsame : lengthChecks (withEngines n es ts s) l = lengthChecks s l := rfl
  rw [openDecodeLength, openDecodeLength, hsame]
  cases firstError (lengthChecks s l) <;> rfl

theorem encodeChecks_withEngines (s : State) : encodeChecks (withEngines n es ts s) = encodeChecks s := rfl

theorem opened_withEngines (s : State) (j : Job) : opened (withEngines n es ts s) j = withEngines n es ts (opened s j) := by
  cases j
  case encrng => exact openChecked_withEngines n es ts rfl
  case decrng => exact openChecked_withEngines n es ts rfl
  case encode =>
    rw [opened, openEncode, opened, openEncode, encodeChecks_withEngines]
    exact openChecked_withEngines n es ts (openJob_setPix_withEngines n es ts .encode _ _ (hdrWrite s.opLin s.pix) s)
  case decode => exact openChecked_withEngines n es ts (openDecodeLength_withEngines n es ts _ s)

theorem runRange_withEngines (d : Dir) (r : Nat × Nat) (s : State) :
    runRange d r (withEngines n es ts s) = withEngines n es ts (runRange d r s) := by cases d <;> rfl

theorem runRanges_withEngines (j : Job) (m : Nat) (s : State) :
    runRanges j m (withEngines n es ts s) = withEngines n es ts (runRanges j m s) := by
  induction m with
  | zero => rfl
  | succ m ih =>
    have hrange := jobRange_of_seq (s := s) (t := withEngines n es ts s) rfl m j
    rw [runRanges, ih, hrange, runRange_withEngines, runRanges]

theorem joinJob_withEngines (j : Job) (s : State) : joinJob j (withEngines n es ts s) = withEngines n es ts (joinJob j s) := by
  cases j <;> rfl

theorem finishJob_withEngines (s : State) : finishJob (withEngines n es ts s) = withEngines n es ts (finishJob s) := by
  have hjob : (withEngines n es ts s).seq.job = s.seq.job := rfl
  rw [finishJob, finishJob, hjob]
  cases s.seq.job with
  | none => rfl
  | some j => exact (congrArg (joinJob j) (runRanges_withEngines n es ts j _ s)).trans (joinJob_withEngines n es ts j _)

/-- A command ends alike whatever the engines and the schedule are. -/
theorem exec_withEngines {i : Instr} {s t : State} (e : exec i s = .next t) :
    exec i (withEngines n es ts s) = .next (withEngines n es ts t) := by
  have jobs (j : Job) (h : ∀ u, exec i u = .next (finishJob (opened u j))) :
      exec i (withEngines n es ts s) = .next (withEngines n es ts t) := by
    rw [h] at e ⊢
    cases e
    rw [opened_withEngines, finishJob_withEngines]
  cases i
  case encrng => exact jobs .encrng exec_encrng
  case decrng => exact jobs .decrng exec_decrng
  case encode => exact jobs .encode exec_encode
  case decode => exact jobs .decode exec_decode
  case addr => rw [exec_addr] at e ⊢; cases e; rfl
  case c2b => rw [exec_c2b] at e ⊢; cases e; rfl
  case exbit => rw [exec_exbit] at e ⊢; cases e; rfl
  case maxcap => rw [exec_maxcap] at e ⊢; cases e; rfl
  case limit => rw [exec_limit] at e ⊢; cases e; rfl
  case wrhdr =>
    rw [exec_wrhdr] at e ⊢
    exact runChecked_withEngines n es ts (setPix_withEngines n es ts (hdrWrite s.opA0 s.pix) s) e
  case rdhdr => rw [exec_rdhdr] at e ⊢; exact runChecked_withEngines n es ts rfl e
  case embit => rw [exec_embit] at e ⊢; exact runChecked_withEngines n es ts rfl e
  case emchr => rw [exec_emchr] at e ⊢; exact runChecked_withEngines n es ts rfl e
  case exchr => rw [exec_exchr] at e ⊢; exact runChecked_withEngines n es ts rfl e
  case part => rw [exec_part] at e ⊢; exact runChecked_withEngines n es ts rfl e

end

/-- Settles O48: no command reads the engines, and no register but CFG shows their number. -/
theorem engineCountIsUnobservable : Obligations.EngineCountIsUnobservable := by
  refine ⟨fun i s t n es e => ?_, fun r s n es hr => ?_⟩
  · have h := exec_withEngines n es s.sched e
    refine h.trans ?_
    rw [withEngines, ← (exec_commandEnds e).frame.sched_eq]
  · cases r
    case cfg => exact absurd rfl hr
    all_goals rfl

end Sys2Proof.Machine
end

section
/-! SUPPORT. The opening of a dispatch and the hand-out of its ranges (45_worker_orchestration.md R170). -/

open Sys2Proof

namespace Sys2Proof.Machine

/-- A hand-out to an idle engine while a range is left (R170). -/
theorem handOut_of_idle {s : State} {e : Nat} {j : Job} {g : Engine} (hj : s.seq.job = some j)
    (hlt : s.disp.nxt < s.jobCount j) (hg : s.engines[e]? = some g) (hb : g.busy = false) :
    handOut e s = { s with
      engines := s.engines.set e (engineFor j s.disp.nxt s)
      disp := { nxt := s.disp.nxt + 1, live := s.disp.live ++ [s.disp.nxt] } } := by
  have hidle : s.engineIdle e = true := by rw [State.engineIdle, hg]; simp [hb]
  simp only [handOut, hj]
  exact if_pos ⟨hlt, hidle⟩

/-- A hand-out with no range left, or to an engine that is busy or absent, changes nothing (log 19). -/
theorem handOut_of_impossible {s : State} {e : Nat} {j : Job} {g : Engine} (hj : s.seq.job = some j)
    (h : s.jobCount j ≤ s.disp.nxt ∨ s.engines[e]? = none ∨ s.engines[e]? = some g ∧ g.busy = true) : handOut e s = s := by
  rcases handOut_cases e s with eq | ⟨j', g', hj', hlt, hg', hb', -⟩
  · exact eq
  · obtain rfl : j = j' := Option.some.inj (hj.symm.trans hj')
    rcases h with h | h | ⟨h, hb⟩
    · exact absurd hlt (Nat.not_lt.2 h)
    · rw [h] at hg'; cases hg'
    · rw [h] at hg'; cases hg'; rw [hb] at hb'; cases hb'

/-- A step on a hand-out's turn. -/
theorem step_handOut {s : State} {e : Nat} {ts : List Turn} (hs : s.sched = .handOut e :: ts) :
    step s = .next (handOut e { s with sched := ts }) := step_of_sched hs

/-- A step on the sequencer's turn up to the dispatch of an accepted command. -/
theorem step_start {s : State} {ts : List Turn} (hs : s.sched = .start :: ts) (ha : s.accepted = true) :
    step s = startCommand { s with sched := ts } := by
  rw [step_of_sched hs]
  exact if_pos ha

theorem startCommand_encode {s : State} (h : decode s.seq.cmd = some .encode) : startCommand s = .next (openEncode s) := by
  simp only [startCommand, h]

theorem startCommand_decode {s : State} (h : decode s.seq.cmd = some .decode) : startCommand s = .next (openDecode s) := by
  simp only [startCommand, h]

theorem openEncode_of_checks {s : State} (h : firstError (encodeChecks s) = none) :
    openEncode s = openJob .encode s.opLin (effWorkers s.opWin s.opLin) { s with pix := hdrWrite s.opLin s.pix } :=
  openChecked_pass h _ s

theorem openDecode_of_header {s : State} {l : Nat} (hc : firstError (decodeChecks s) = none) (hl : headerOf s = l)
    (he : firstError (lengthChecks s l) = none) : openDecode s = openJob .decode l (effWorkers s.opWin l) s := by
  rw [openDecode, openChecked_pass hc, hdrRead_eq_headerOf, hl, openDecodeLength, he]

theorem headerOf_sched (s : State) (ts : List Turn) : headerOf { s with sched := ts } = headerOf s := by
  rw [← hdrRead_eq_headerOf, ← hdrRead_eq_headerOf]

/-- Settles O46: a hand-out is `engineFor` of the next range or nothing, and L and We are those of the opening. -/
theorem handOutGivesTheNextRange : Obligations.HandOutGivesTheNextRange := by
  unfold Obligations.HandOutGivesTheNextRange
  intro start count
  constructor
  · intro s e ts j g hs hj l we i
    have hcount : count s j = State.jobCount { s with sched := ts } j := by cases j <;> rfl
    rw [step_handOut hs, hcount]
    refine ⟨fun hlt hg hb => ?_, fun h => congrArg _ (handOut_of_impossible hj h)⟩
    obtain ⟨he, -⟩ := List.getElem?_eq_some_iff.1 hg
    refine ⟨_, congrArg _ (handOut_of_idle hj hlt hg hb), rfl, rfl, List.length_set, fun e' he' => List.getElem?_set_ne he'.symm,
      ⟨_, List.getElem?_set_self he, rfl, rfl, rfl, rfl, rfl, ?_⟩, ⟨rfl, rfl⟩, ⟨rfl, rfl, rfl⟩, ⟨rfl, rfl⟩, rfl, rfl⟩
    cases j <;> exact ⟨rfl, rfl, rfl⟩
  · intro s ts hs hrst hphase hjob hW hfits cap
    have ha : s.accepted = true := (accepted_iff s).2 ⟨hrst, hphase, hjob⟩
    rw [step_start hs ha]
    refine ⟨fun hcmd hcap hpay hchars => ?_, fun hcmd hcap hpay => ?_⟩
    · have hchecks : firstError (encodeChecks { s with sched := ts }) = none :=
        encodeChecks_of_admitted hW hfits hcap hpay hchars
      have hopen := openEncode_of_checks hchecks
      rw [startCommand_encode (s := { s with sched := ts }) hcmd, hopen]
      exact ⟨_, rfl, rfl, rfl, rfl, rfl, rfl⟩
    · obtain ⟨l, hl⟩ : ∃ l, headerOf s = l := ⟨_, rfl⟩
      rw [hl] at hcap hpay ⊢
      have hopen := openDecode_of_header (s := { s with sched := ts }) ((decodeChecks_pass _).2 ⟨hW, hfits⟩)
        ((headerOf_sched s ts).trans hl) ((lengthChecks_pass _ l).2 ⟨hcap, hpay⟩)
      rw [startCommand_decode (s := { s with sched := ts }) hcmd, hopen]
      exact ⟨_, rfl, rfl, rfl, rfl, rfl, rfl⟩

end Sys2Proof.Machine
end

section
/-! SUPPORT. The writes of range tasks: each puts at an offset a value that depends on the offset alone, so no order of them is
observable (45_worker_orchestration.md R167, R178). -/

open Sys2Proof

namespace Sys2Proof.Machine

/-! ## One write of a range task -/

/-- The memory a range task writes. -/
def State.target (s : State) : Dir → Memory
  | .enc => s.pix
  | .dec => s.pay

/-- What a range task puts at an offset: the byte with its payload bit in PIX (R165), the character in PAY (R166). -/
def State.taskByte (s : State) (a : Nat) : Dir → Byte
  | .enc => embedBit (s.pixAt a) (payloadBit s.pay a)
  | .dec => BitVec.ofNat 8 (extractChar (7 * a) s.pix)

/-- The state with a range task's byte put at an offset. -/
def State.writeTask (s : State) (a : Nat) : Dir → State
  | .enc => { s with pix := Memory.write s.pix a (s.taskByte a .enc) }
  | .dec => { s with pay := Memory.write s.pay a (s.taskByte a .dec) }

/-- The byte at an offset is listed and is what a range task puts there. -/
def Settled (d : Dir) (s : State) (a : Nat) : Prop := Memory.lookup (s.target d) a = some (s.taskByte a d)

/-- A range task of either direction changes one memory. -/
theorem writeTask_eq (s : State) (a : Nat) (d : Dir) :
    s.writeTask a d = { s with pix := (s.writeTask a d).pix, pay := (s.writeTask a d).pay } := by cases d <;> rfl

theorem lookup_writeTask (s : State) (a : Nat) (d : Dir) (b : Nat) :
    Memory.lookup ((s.writeTask a d).target d) b = if a = b then some (s.taskByte a d) else Memory.lookup (s.target d) b := by
  cases d <;> exact lookup_write _ _ _ _

/-- A range task's byte is the same after another of its writes: embedding twice is embedding once, and a decode task leaves
PIX alone. -/
theorem taskByte_writeTask (s : State) (a : Nat) (d : Dir) (b : Nat) : (s.writeTask a d).taskByte b d = s.taskByte b d := by
  cases d with
  | dec => rfl
  | enc =>
    have hread : (s.writeTask a .enc).pixAt b = if a = b then s.taskByte a .enc else s.pixAt b := read_write _ _ _ _ _
    rw [State.taskByte, hread]
    split
    · subst b; exact embedBit_embedBit _ _ _
    · rfl

theorem settled_writeTask_iff (s : State) (a : Nat) (d : Dir) (b : Nat) :
    Settled d (s.writeTask a d) b ↔ a = b ∨ Settled d s b := by
  rw [Settled, lookup_writeTask, taskByte_writeTask, Settled]
  by_cases h : a = b
  · subst h; simp
  · simp [h]

/-! ## The ranges of a job run from here to their end -/

/-- The offsets a range task of (start, count) writes (R167). -/
def InSpan : Dir → Nat × Nat → Nat → Prop
  | .enc, r, a => 33 + 7 * r.1 ≤ a ∧ a < 33 + 7 * (r.1 + r.2)
  | .dec, r, a => r.1 ≤ a ∧ a < r.1 + r.2

theorem settled_runRanges {j : Job} {n : Nat} {s : State} {a : Nat} (h : ∃ i < n, InSpan j.dir (s.jobRange i j) a) :
    Memory.lookup ((runRanges j n s).target j.dir) a = some (s.taskByte a j.dir) := by
  cases hd : j.dir <;> rw [hd] at h
  · exact (lookup_runRanges_pix hd n s a).trans (if_pos h)
  · exact (lookup_runRanges_pay hd n s a).trans (if_pos h)

theorem lookup_runRanges_outside {j : Job} {n : Nat} {s : State} {a : Nat} (h : ¬ ∃ i < n, InSpan j.dir (s.jobRange i j) a) :
    Memory.lookup ((runRanges j n s).target j.dir) a = Memory.lookup (s.target j.dir) a := by
  cases hd : j.dir <;> rw [hd] at h
  · exact (lookup_runRanges_pix hd n s a).trans (if_neg h)
  · exact (lookup_runRanges_pay hd n s a).trans (if_neg h)

/-- Two states of which the ranges of a job leave the same memories. -/
def SameEnd (j : Job) (n : Nat) (s t : State) : Prop :=
  (runRanges j n t).pix = (runRanges j n s).pix ∧ (runRanges j n t).pay = (runRanges j n s).pay

theorem SameEnd.trans {j : Job} {n : Nat} {s t u : State} (h : SameEnd j n s t) (h' : SameEnd j n t u) : SameEnd j n s u :=
  ⟨h'.1.trans h.1, h'.2.trans h.2⟩

/-- The ranges of a job read the sequencer and the memories only. -/
theorem sameEnd_of_eq {s t : State} (hq : t.seq = s.seq) (hpix : t.pix = s.pix) (hpay : t.pay = s.pay) (j : Job) (n : Nat) :
    SameEnd j n s t := by
  induction n with
  | zero => exact ⟨hpix, hpay⟩
  | succ n ih =>
    obtain ⟨ihpix, ihpay⟩ := ih
    rw [SameEnd, runRanges, runRanges, jobRange_of_seq hq]
    cases j.dir
    · exact ⟨by rw [runRange, runRange, ihpix, ihpay], ihpay⟩
    · exact ⟨ihpix, by rw [runRange, runRange, ihpix, ihpay]⟩

theorem sameEnd_set (j : Job) (n : Nat) (s : State) (es : List Engine) (d : Dispatcher) (ts : List Turn) :
    SameEnd j n s { s with engines := es, disp := d, sched := ts } :=
  sameEnd_of_eq (by rfl) (by rfl) (by rfl) j n

/-! ## When two memories are the same data -/

/-- Both memories are in canonical form. -/
def Canonical (s : State) : Prop := Memory.wf s.pix ∧ Memory.wf s.pay

theorem canonical_writeTask {s : State} (h : Canonical s) (a : Nat) (d : Dir) : Canonical (s.writeTask a d) := by
  obtain ⟨hpix, hpay⟩ := h
  cases d
  · exact ⟨write_wf hpix _ _, hpay⟩
  · exact ⟨hpix, write_wf hpay _ _⟩

theorem canonical_runRanges {s : State} (h : Canonical s) (j : Job) (n : Nat) : Canonical (runRanges j n s) := by
  obtain ⟨hpix, hpay⟩ := h
  cases hd : j.dir
  · exact ⟨runRanges_pix_wf hd n hpix, by rw [runRanges_pay_of_enc hd]; exact hpay⟩
  · exact ⟨by rw [runRanges_pix_of_dec hd]; exact hpix, runRanges_pay_wf hd n hpay⟩

/-- The ranges of a job leave the other memory alone. -/
theorem target_runRanges_other (s : State) {j : Job} (n : Nat) {d : Dir} (h : d ≠ j.dir) :
    (runRanges j n s).target d = s.target d := by
  cases hd : j.dir <;> cases d
  · exact absurd hd.symm h
  · exact runRanges_pay_of_enc hd n s
  · exact runRanges_pix_of_dec hd n s
  · exact absurd hd.symm h

theorem target_writeTask_other (s : State) (a : Nat) {d d' : Dir} (h : d' ≠ d) : (s.writeTask a d).target d' = s.target d' := by
  cases d <;> cases d'
  · exact absurd rfl h
  · rfl
  · rfl
  · exact absurd rfl h

/-- Canonical memories that look alike in one direction, and are the same in the other, are the same. -/
theorem memories_eq {d : Dir} {s t : State} (hs : Canonical s) (ht : Canonical t) (hother : ∀ d' ≠ d, t.target d' = s.target d')
    (h : ∀ a, Memory.lookup (t.target d) a = Memory.lookup (s.target d) a) : t.pix = s.pix ∧ t.pay = s.pay := by
  cases d
  · exact ⟨memory_ext ht.1 hs.1 h, hother .dec (by decide)⟩
  · exact ⟨hother .enc (by decide), memory_ext ht.2 hs.2 h⟩

/-- No write of a range task changes what the ranges leave (R178). -/
theorem sameEnd_writeTask {s : State} (hs : Canonical s) {j : Job} {n a : Nat} (ha : ∃ i < n, InSpan j.dir (s.jobRange i j) a) :
    SameEnd j n s (s.writeTask a j.dir) := by
  have hrange (i : Nat) : (s.writeTask a j.dir).jobRange i j = s.jobRange i j :=
    jobRange_of_seq (by rw [writeTask_eq]) i j
  refine memories_eq (d := j.dir) (canonical_runRanges hs j n) (canonical_runRanges (canonical_writeTask hs a _) j n)
    (fun d' hd' => ?_) fun b => ?_
  · rw [target_runRanges_other _ n hd', target_runRanges_other _ n hd', target_writeTask_other _ _ hd']
  · by_cases hb : ∃ i < n, InSpan j.dir (s.jobRange i j) b
    · have hb' : ∃ i < n, InSpan j.dir ((s.writeTask a j.dir).jobRange i j) b := by simpa only [hrange] using hb
      rw [settled_runRanges hb, settled_runRanges hb', taskByte_writeTask]
    · have hb' : ¬ ∃ i < n, InSpan j.dir ((s.writeTask a j.dir).jobRange i j) b := by simpa only [hrange] using hb
      have hab : a ≠ b := fun h => hb (h ▸ ha)
      rw [lookup_runRanges_outside hb, lookup_runRanges_outside hb', lookup_writeTask, if_neg hab]

/-- Where every byte of the ranges is settled, running them changes nothing. -/
theorem runRanges_of_settled {s : State} (hs : Canonical s) {j : Job} {n : Nat}
    (h : ∀ i < n, ∀ a, InSpan j.dir (s.jobRange i j) a → Settled j.dir s a) : runRanges j n s = s := by
  obtain ⟨hpix, hpay⟩ := memories_eq (d := j.dir) hs (canonical_runRanges hs j n)
    (fun d' hd' => target_runRanges_other s n hd') fun a => by
      by_cases ha : ∃ i < n, InSpan j.dir (s.jobRange i j) a
      · obtain ⟨i, hi, hspan⟩ := ha
        exact (settled_runRanges ⟨i, hi, hspan⟩).trans (h i hi a hspan).symm
      · exact lookup_runRanges_outside ha
  rw [runRanges_eq, hpix, hpay]

end Sys2Proof.Machine
end

section
/-! SUPPORT. What the engines of an open dispatch have done so far, and that every turn of the dispatch keeps it
(45_worker_orchestration.md R170, R171). -/

open Sys2Proof

namespace Sys2Proof.Machine

/-! ## One bit of an engine as one write of its range task -/

theorem Engine.pixOff_eq (g : Engine) : g.pixOff = 33 + 7 * (g.s + g.j) + g.k := by
  rw [Engine.pixOff, boff_eq, c2b_eq]

/-- An encode task's bit is the one its PIX byte takes from the payload (41_bit_addressing.md R114). -/
theorem payloadBit_pixOff {g : Engine} (hk : g.k ≤ 6) (pay : Memory) :
    payloadBit pay g.pixOff = cbit (normByte (Memory.read .pay pay (g.s + g.j))) g.k := by
  have hq : (33 + 7 * (g.s + g.j) + g.k - 33) / 7 = g.s + g.j := by omega
  have hr : (33 + 7 * (g.s + g.j) + g.k - 33) % 7 = g.k := by omega
  rw [payloadBit, g.pixOff_eq, hq, hr]

theorem encodeBit_eq {g : Engine} (hk : g.k ≤ 6) (e : Nat) (s : State) :
    encodeBit e g s = { s.writeTask g.pixOff .enc with engines := s.engines.set e g.advance } := by
  have hbyte : s.taskByte g.pixOff .enc = embedBit (s.pixAt g.pixOff) (cbit (normByte (s.payAt (g.s + g.j))) g.k) := by
    rw [State.taskByte, payloadBit_pixOff hk, State.payAt]
  rw [encodeBit, State.writeTask, hbyte]

/-- The accumulator of a decode task holds the first `g.k` bits of its character (43_payload_codec.md R135). -/
def Engine.AccHolds (g : Engine) (s : State) : Prop :=
  ∀ k < 7, cbit g.acc k = (decide (k < g.k) && extractBit (s.pixAt (33 + 7 * (g.s + g.j) + k)))

/-- Bit k of the sequence of a character with weight 2^(6-k) added to it. -/
theorem cbit_accumulate {g : Engine} (hg : g.k ≤ 6) (b : Bool) {k : Nat} (hk : k < 7) :
    cbit (g.accumulate b) k = (cbit g.acc k || decide (k = g.k) && b) := by
  rw [cbit, cbit, Engine.accumulate, BitVec.getLsbD_or, BitVec.getLsbD_shiftLeft, BitVec.getLsbD_setWidth, BitVec.getLsbD_ofBool]
  rcases lt_trichotomy k g.k with h | h | h
  · have h1 : ¬ 6 - k - (6 - g.k) = 0 := by omega
    have h2 : ¬ k = g.k := by omega
    simp [h1, h2]
  · have h1 : 6 - g.k < 7 := by omega
    simp [h, h1]
  · have h1 : 6 - k < 6 - g.k := by omega
    have h2 : ¬ k = g.k := by omega
    simp [h1, h2]

/-- Reading one more bit keeps the accumulator's form. -/
theorem cbit_accumulate_of_accHolds {g : Engine} {s : State} (h : g.AccHolds s) (hg : g.k ≤ 6) {k : Nat} (hk : k < 7) :
    cbit (g.accumulate (extractBit (s.pixAt g.pixOff))) k =
      (decide (k < g.k + 1) && extractBit (s.pixAt (33 + 7 * (g.s + g.j) + k))) := by
  rw [cbit_accumulate hg _ hk, h k hk, g.pixOff_eq]
  rcases lt_trichotomy k g.k with hlt | heq | hgt
  · simp [hlt, hlt.ne, hlt.trans (Nat.lt_succ_self _)]
  · simp [heq]
  · simp [hgt.ne', hgt.not_gt, Nat.not_lt.2 (Nat.succ_le_of_lt hgt)]

/-- With its seventh bit the accumulator is the character (R135). -/
theorem accumulate_last {g : Engine} {s : State} (h : g.AccHolds s) (hg : g.k = 6) :
    (g.accumulate (extractBit (s.pixAt g.pixOff))).setWidth 8 = s.taskByte (g.s + g.j) .dec := by
  have hchar : (g.accumulate (extractBit (s.pixAt g.pixOff))).toNat = extractChar (7 * (g.s + g.j)) s.pix := by
    rw [← bitsValue_cbit]
    refine bitsValue_congr fun k hk => ?_
    rw [cbit_accumulate_of_accHolds h hg.le hk, boff_eq, decide_eq_true (by omega), Bool.true_and, State.pixAt]
  rw [State.taskByte, ← hchar, BitVec.ofNat_toNat]

theorem decodeBit_eq {g : Engine} {s : State} (h : g.AccHolds s) (e : Nat) :
    g.k = 6 ∧ decodeBit e g s = { s.writeTask (g.s + g.j) .dec with engines := s.engines.set e (g.afterBit 0) } ∨
      g.k ≠ 6 ∧ decodeBit e g s =
        { s with engines := s.engines.set e (g.afterBit (g.accumulate (extractBit (s.pixAt g.pixOff)))) } := by
  by_cases hk : g.k = 6
  · refine .inl ⟨hk, ?_⟩
    rw [decodeBit, if_pos hk, accumulate_last h hk]
    rfl
  · refine .inr ⟨hk, ?_⟩
    rw [decodeBit, if_neg hk]
    rfl

/-! ## What an engine has done of its range -/

/-- The offsets a busy engine has written so far. -/
def Engine.Wrote (g : Engine) (a : Nat) : Dir → Prop
  | .enc => 33 + 7 * g.s ≤ a ∧ a < 33 + 7 * (g.s + g.j) + g.k
  | .dec => g.s ≤ a ∧ a < g.s + g.j

/-- What a busy engine has written is settled, and a decode task has read the bits up to its cursor. -/
structure EngineProgress (d : Dir) (s : State) (g : Engine) : Prop where
  settled : ∀ a, g.Wrote a d → Settled d s a
  acc_holds : d = .dec → g.AccHolds s

theorem EngineProgress.writeTask {d : Dir} {s : State} {g : Engine} (h : EngineProgress d s g) (a : Nat) :
    EngineProgress d (s.writeTask a d) g where
  settled b hb := (settled_writeTask_iff s a d b).2 (.inr (h.settled b hb))
  acc_holds hd := by subst hd; exact h.acc_holds rfl

/-- An encode task's step writes the byte at its cursor, and the cursor moves past it. -/
theorem EngineProgress.encodeBit {s : State} {g : Engine} (h : EngineProgress .enc s g) :
    EngineProgress .enc (s.writeTask g.pixOff .enc) g.advance where
  settled a ha := by
    refine (settled_writeTask_iff s g.pixOff .enc a).2 ?_
    by_cases hlast : g.pixOff = a
    · exact .inl hlast
    · refine .inr (h.settled a ?_)
      rw [g.pixOff_eq] at hlast
      rw [g.advance_eq_afterBit] at ha
      rcases g.afterBit_eq g.acc with ⟨hk, e⟩ | ⟨-, e⟩ <;> rw [e] at ha <;> simp only [Engine.Wrote] at ha ⊢ <;> omega
  acc_holds hd := by cases hd

/-- The seventh bit of a decode task writes its character's byte, and the next character begins with an empty accumulator. -/
theorem EngineProgress.decodeLastBit {s : State} {g : Engine} (h : EngineProgress .dec s g) (hk : g.k = 6) :
    EngineProgress .dec (s.writeTask (g.s + g.j) .dec) (g.afterBit 0) where
  settled a ha := by
    refine (settled_writeTask_iff s (g.s + g.j) .dec a).2 ?_
    by_cases hlast : g.s + g.j = a
    · exact .inl hlast
    · refine .inr (h.settled a ?_)
      rcases g.afterBit_eq 0 with ⟨-, e⟩ | ⟨hk', -⟩
      · rw [e] at ha
        simp only [Engine.Wrote] at ha ⊢
        omega
      · exact absurd hk hk'
  acc_holds _ := by
    rcases g.afterBit_eq 0 with ⟨-, e⟩ | ⟨hk', -⟩
    · rw [e]
      intro k _
      simp [cbit]
    · exact absurd hk hk'

/-- Every other bit of a decode task only goes into the accumulator. -/
theorem EngineProgress.decodeBit {s : State} {g : Engine} (h : EngineProgress .dec s g) (hle : g.k ≤ 6) (hk : g.k ≠ 6) :
    EngineProgress .dec s (g.afterBit (g.accumulate (extractBit (s.pixAt g.pixOff)))) := by
  rcases g.afterBit_eq (g.accumulate (extractBit (s.pixAt g.pixOff))) with ⟨hk', -⟩ | ⟨-, e⟩
  · exact absurd hk' hk
  · rw [e]
    exact ⟨h.settled, fun _ _ hi => cbit_accumulate_of_accHolds (h.acc_holds rfl) hle hi⟩

/-! ## What an open dispatch has done of its job -/

/-- The finished ranges are settled, and every busy engine has made its progress. -/
structure Progress (s : State) (j : Job) : Prop where
  finished : ∀ i < s.disp.nxt, i ∉ s.disp.live → ∀ a, InSpan j.dir (s.jobRange i j) a → Settled j.dir s a
  engines : ∀ g ∈ s.engines, g.busy = true → EngineProgress j.dir s g

/-- A dispatch just opened has nothing to show. -/
theorem progress_openJob {s : State} {j : Job} {l we : Nat} (hidle : ∀ g ∈ s.engines, g = Engine.idle) :
    Progress (openJob j l we s) j where
  finished i hi := absurd hi (Nat.not_lt_zero i)
  engines g hg hb := by rw [hidle g hg] at hb; cases hb

/-- A write of any engine settles a byte and unsettles none. -/
theorem Progress.writeTask {s : State} {j : Job} (h : Progress s j) (a : Nat) : Progress (s.writeTask a j.dir) j where
  finished i hi hl b hb := by
    have hq : (s.writeTask a j.dir).seq = s.seq := by rw [writeTask_eq]
    have hd : (s.writeTask a j.dir).disp = s.disp := by rw [writeTask_eq]
    rw [hd] at hi hl
    rw [jobRange_of_seq hq] at hb
    exact (settled_writeTask_iff s a j.dir b).2 (.inr (h.finished i hi hl b hb))
  engines g hg hb := by
    have he : (s.writeTask a j.dir).engines = s.engines := by rw [writeTask_eq]
    rw [he] at hg
    exact (h.engines g hg hb).writeTask a

/-- Engine `e` becomes `g'`, and the dispatcher `d`: what is left to show of the two. -/
theorem Progress.set {s : State} {j : Job} (h : Progress s j) (e : Nat) {g' : Engine} {d : Dispatcher}
    (hg : g'.busy = true → EngineProgress j.dir s g')
    (hd : ∀ i < d.nxt, i ∉ d.live → (i < s.disp.nxt ∧ i ∉ s.disp.live) ∨
      ∀ a, InSpan j.dir (s.jobRange i j) a → Settled j.dir s a) :
    Progress { s with engines := s.engines.set e g', disp := d } j := by
  have settled {a : Nat} (ha : Settled j.dir s a) : Settled j.dir { s with engines := s.engines.set e g', disp := d } a := by
    revert ha; cases j.dir <;> exact id
  refine ⟨fun i hi hl a ha => settled ?_, fun g hmem hb => ?_⟩
  · have ha : InSpan j.dir (s.jobRange i j) a := jobRange_of_seq (s := s) rfl i j ▸ ha
    rcases hd i hi hl with ⟨hi, hl⟩ | hspan
    · exact h.finished i hi hl a ha
    · exact hspan a ha
  · have hprog : EngineProgress j.dir s g := by
      rcases List.mem_or_eq_of_mem_set hmem with hmem | rfl
      · exact h.engines g hmem hb
      · exact hg hb
    exact ⟨fun a ha => settled (hprog.settled a ha), hprog.acc_holds⟩

theorem handOut_progress {s : State} {j : Job} (h : Progress s j) (hj : s.seq.job = some j) (e : Nat) : Progress (handOut e s) j := by
  rcases handOut_cases e s with eq | ⟨j', g, hj', -, -, -, eq⟩ <;> rw [eq]
  · exact h
  · obtain rfl : j = j' := Option.some.inj (hj.symm.trans hj')
    refine h.set e (fun _ => ⟨fun a ha => ?_, fun _ k _ => by simp [engineFor, cbit]⟩) fun i hi hl => .inl ?_
    · cases hd : j.dir <;> rw [hd] at ha <;> simp only [Engine.Wrote, engineFor] at ha <;> omega
    · simp only [List.mem_append, List.mem_singleton, not_or] at hl
      exact ⟨(Nat.lt_succ_iff_lt_or_eq.1 hi).resolve_right hl.2, hl.1⟩

/-- A finished range has been written whole. -/
theorem EngineInv.wrote_of_inSpan {s : State} {j : Job} {g : Engine} (h : EngineInv s j g) (hn : g.n ≤ g.j) {a : Nat}
    (ha : InSpan j.dir (s.jobRange g.idx j) a) : g.Wrote a j.dir := by
  have hj : g.j = g.n := le_antisymm h.j_le hn
  rw [← h.range_eq] at ha
  cases hd : j.dir <;> rw [hd] at ha <;> simp only [InSpan, Engine.Wrote] at ha ⊢
  · rw [h.k_done hj, hj]; omega
  · rw [hj]; exact ha

theorem finishRange_progress {s : State} {j : Job} (h : Progress s j) (J : JobInv s j) {e : Nat} {g : Engine}
    (hg : g ∈ s.engines) (hb : g.busy = true) (hn : g.n ≤ g.j) : Progress (finishRange e g s) j := by
  refine h.set e (fun hidle => by cases hidle) fun i hi hl => ?_
  rw [J.live_nodup.mem_erase_iff] at hl
  by_cases hidx : i = g.idx
  · subst hidx
    exact .inr fun a ha => (h.engines g hg hb).settled a ((J.engine_inv g hg hb).wrote_of_inSpan hn ha)
  · exact .inl ⟨hi, fun hlive => hl ⟨hidx, hlive⟩⟩

end Sys2Proof.Machine
end

section
/-! SUPPORT. Every interleaving of the engines ends in the state of the one-transition meaning (45_worker_orchestration.md R178,
R179). -/

open Sys2Proof

namespace Sys2Proof.Machine

/-! ## The end of an open dispatch -/

/-- The state an open dispatch ends in, from wherever it stands: the ranges run from here, every engine idle, no turn left. -/
def jobEnd (j : Job) (s : State) : State :=
  joinJob j { s with
    pix := (runRanges j (s.jobCount j) s).pix
    pay := (runRanges j (s.jobCount j) s).pay
    engines := List.replicate s.params.numEngines Engine.idle
    sched := [] }

/-- The end does not depend on the dispatcher, the engines or the schedule, nor on how much of the ranges is done. -/
theorem jobEnd_eq {s t : State} {j : Job}
    (ht : ∃ pix pay es d ts, t = { s with pix := pix, pay := pay, engines := es, disp := d, sched := ts })
    (h : SameEnd j (s.jobCount j) s t) : jobEnd j t = jobEnd j s := by
  obtain ⟨pix, pay, es, d, ts, ht⟩ := ht
  obtain ⟨hpix, hpay⟩ := h
  have hcount : t.jobCount j = s.jobCount j := jobCount_of_seq (by rw [ht]) j
  rw [jobEnd, jobEnd, hcount, hpix, hpay, ht]
  generalize (runRanges j _ s).pix = pix', (runRanges j _ s).pay = pay'
  cases j <;> rfl

theorem canonical_of_inv {s : State} (h : Inv s) : Canonical s := ⟨h.mem_ok.pix_wf, h.mem_ok.pay_wf⟩

theorem engines_of_idle {s : State} (h : DispatchInv s) (hi : ∀ g ∈ s.engines, g = Engine.idle) :
    s.engines = List.replicate s.params.numEngines Engine.idle := List.eq_replicate_iff.2 ⟨h.engine_count, hi⟩

/-- Once every range is done the join ends the dispatch in its end (R172). -/
theorem joinJob_eq_jobEnd {s : State} {j : Job} (h : Inv s) (hp : Progress s j) (J : JobInv s j)
    (hnxt : s.jobCount j ≤ s.disp.nxt) (hlive : s.disp.live = []) : { joinJob j s with sched := [] } = jobEnd j s := by
  have hdone : runRanges j (s.jobCount j) s = s :=
    runRanges_of_settled (canonical_of_inv h) fun i hi => hp.finished i (lt_of_lt_of_le hi hnxt) (by simp [hlive])
  have hengines := engines_of_idle h.dispatch_ok fun g hg => h.dispatch_ok.idle_clear g hg (J.not_busy hlive g hg)
  rw [jobEnd, hdone, ← hengines]
  cases j <;> rfl

/-! ## One step of an engine -/

/-- What a step of an engine keeps of an open dispatch: its progress, and the memories its ranges leave. -/
structure EngineStepKeeps (j : Job) (s t : State) : Prop where
  progress : Progress t j
  same_end : SameEnd j (s.jobCount j) s t

/-- A byte of an engine's range lies in a range of the job. -/
theorem EngineInv.inSpan_job {s : State} {j : Job} {g : Engine} (h : EngineInv s j g) (J : JobInv s j) {a : Nat}
    (ha : InSpan j.dir (g.s, g.n) a) : ∃ i < s.jobCount j, InSpan j.dir (s.jobRange i j) a :=
  ⟨g.idx, lt_of_lt_of_le h.idx_lt J.nxt_le, h.range_eq ▸ ha⟩

/-- Engine `e` writes a byte of its range and goes on as `g'`. -/
theorem writeTask_keeps {s : State} {j : Job} (hs : Canonical s) (h : Progress s j) {a : Nat}
    (ha : ∃ i < s.jobCount j, InSpan j.dir (s.jobRange i j) a) (e : Nat) {g' : Engine}
    (hg : EngineProgress j.dir (s.writeTask a j.dir) g') :
    EngineStepKeeps j s { s.writeTask a j.dir with engines := s.engines.set e g' } := by
  have hengines : s.engines = (s.writeTask a j.dir).engines := by rw [writeTask_eq]
  rw [hengines]
  exact ⟨(h.writeTask a).set e (d := (s.writeTask a j.dir).disp) (fun _ => hg) fun _ hi hl => .inl ⟨hi, hl⟩,
    (sameEnd_writeTask hs ha).trans (sameEnd_set j _ _ _ _ _)⟩

theorem encodeBit_keeps {s : State} {j : Job} {e : Nat} {g : Engine} (hs : Canonical s) (h : Progress s j) (J : JobInv s j)
    (hg : g ∈ s.engines) (hb : g.busy = true) (hlt : g.j < g.n) (hd : g.dir = .enc) : EngineStepKeeps j s (encodeBit e g s) := by
  have E := J.engine_inv g hg hb
  have hk := E.k_le
  have hj : j.dir = .enc := E.dir_eq.symm.trans hd
  have hspan : InSpan j.dir (g.s, g.n) g.pixOff := by
    rw [hj, g.pixOff_eq]
    simp only [InSpan]
    omega
  have hprog : EngineProgress j.dir (s.writeTask g.pixOff j.dir) g.advance := by
    have := h.engines g hg hb
    rw [hj] at this ⊢
    exact this.encodeBit
  rw [encodeBit_eq hk, ← hj]
  exact writeTask_keeps hs h (E.inSpan_job J hspan) e hprog

theorem decodeBit_keeps {s : State} {j : Job} {e : Nat} {g : Engine} (hs : Canonical s) (h : Progress s j) (J : JobInv s j)
    (hg : g ∈ s.engines) (hb : g.busy = true) (hlt : g.j < g.n) (hd : g.dir = .dec) : EngineStepKeeps j s (decodeBit e g s) := by
  have E := J.engine_inv g hg hb
  have hj : j.dir = .dec := E.dir_eq.symm.trans hd
  have hprog := h.engines g hg hb
  rw [hj] at hprog
  rcases decodeBit_eq (hprog.acc_holds rfl) e with ⟨hk, eq⟩ | ⟨hk, eq⟩ <;> rw [eq]
  · have hspan : InSpan j.dir (g.s, g.n) (g.s + g.j) := by
      rw [hj]
      simp only [InSpan]
      omega
    rw [← hj]
    exact writeTask_keeps hs h (E.inSpan_job J hspan) e (by rw [hj]; exact hprog.decodeLastBit hk)
  · exact ⟨h.set e (d := s.disp) (fun _ => by rw [hj]; exact hprog.decodeBit E.k_le hk) fun _ hi hl => .inl ⟨hi, hl⟩,
      sameEnd_set j _ _ _ _ _⟩

theorem engineStep_keeps_dispatch {s : State} {j : Job} (hs : Canonical s) (h : Progress s j) (J : JobInv s j) (e : Nat) :
    EngineStepKeeps j s (engineStep e s) := by
  rcases engineStep_cases e s with eq | ⟨g, hg, hb, ⟨hlt, hd, eq⟩ | ⟨hlt, hd, eq⟩ | ⟨hn, eq⟩⟩ <;> rw [eq]
  · exact ⟨h, rfl, rfl⟩
  · exact encodeBit_keeps hs h J (List.mem_of_getElem? hg) hb hlt hd
  · exact decodeBit_keeps hs h J (List.mem_of_getElem? hg) hb hlt hd
  · exact ⟨finishRange_progress h J (List.mem_of_getElem? hg) hb hn, sameEnd_set j _ _ _ _ _⟩

/-! ## A run of the dispatch -/

/-- A command that has ended in `u`, or whose open dispatch ends in `u` from where it stands. -/
def Reaches (u s : State) : Prop :=
  (s.seq.job = none ∧ { s with sched := [] } = u) ∨ ∃ j, s.seq.job = some j ∧ Progress s j ∧ jobEnd j s = u

theorem Reaches.sched {u s : State} (h : Reaches u s) (ts : List Turn) : Reaches u { s with sched := ts } := by
  rcases h with ⟨hj, hu⟩ | ⟨j, hj, hp, hu⟩
  · exact .inl ⟨hj, hu⟩
  · refine .inr ⟨j, hj, ?_, (jobEnd_eq ⟨_, _, _, _, _, rfl⟩ (sameEnd_set j _ _ _ _ _)).trans hu⟩
    cases j <;> exact ⟨hp.finished, fun g hg hb => ⟨(hp.engines g hg hb).settled, (hp.engines g hg hb).acc_holds⟩⟩

theorem handOut_keeps (e : Nat) (s : State) : ∃ es d, handOut e s = { s with engines := es, disp := d } := by
  rcases handOut_cases e s with eq | ⟨_, _, -, -, -, -, eq⟩ <;> rw [eq]
  · exact ⟨s.engines, s.disp, rfl⟩
  · exact ⟨_, _, rfl⟩

theorem handOut_reaches {u s : State} {j : Job} (hj : s.seq.job = some j) (hp : Progress s j) (hu : jobEnd j s = u) (e : Nat) :
    Reaches u (handOut e s) := by
  have hprog := handOut_progress hp hj e
  obtain ⟨es, d, eq⟩ := handOut_keeps e s
  rw [eq] at hprog ⊢
  exact .inr ⟨j, hj, hprog, (jobEnd_eq ⟨_, _, _, _, _, rfl⟩ (sameEnd_set j _ _ _ _ _)).trans hu⟩

theorem engineStep_reaches {u s : State} {j : Job} (h : Inv s) (hj : s.seq.job = some j) (hp : Progress s j)
    (hu : jobEnd j s = u) (e : Nat) : Reaches u (engineStep e s) := by
  obtain ⟨hprog, hend⟩ := engineStep_keeps_dispatch (canonical_of_inv h) hp (h.dispatch_ok.open_job j hj) e
  obtain ⟨pix, pay, es, live, eq⟩ := engineStep_keeps e s
  rw [eq] at hprog hend ⊢
  exact .inr ⟨j, hj, hprog, (jobEnd_eq ⟨_, _, _, _, _, rfl⟩ hend).trans hu⟩

theorem joinStep_reaches {u s : State} {j : Job} (h : Inv s) (hj : s.seq.job = some j) (hp : Progress s j)
    (hu : jobEnd j s = u) : Reaches u (joinStep s) := by
  rcases joinStep_cases s with eq | ⟨j', hj', hnxt, hlive, eq⟩ <;> rw [eq]
  · exact .inr ⟨j, hj, hp, hu⟩
  · obtain rfl : j = j' := Option.some.inj (hj.symm.trans hj')
    exact .inl ⟨(joinJob_commandEnds j s).frame.job_none,
      (joinJob_eq_jobEnd h hp (h.dispatch_ok.open_job j hj) hnxt hlive).trans hu⟩

/-- Once the command has ended no turn of a dispatch is possible (log 19). -/
theorem runTurn_dispatch_of_no_job {s : State} (h : DispatchInv s) (hj : s.seq.job = none) {x : Turn}
    (hx : dispatchTurn x = true) : runTurn x s = .next s := by
  cases x
  case handOut e =>
    rcases handOut_cases e s with eq | ⟨j, _, hj', -⟩
    · exact congrArg _ eq
    · rw [hj] at hj'; cases hj'
  case engine e =>
    rcases engineStep_cases e s with eq | ⟨g, hg, hb, -⟩
    · exact congrArg _ eq
    · rw [(h.no_job hj).1 g (List.mem_of_getElem? hg)] at hb; cases hb
  case join =>
    rcases joinStep_cases s with eq | ⟨j, hj', -⟩
    · exact congrArg _ eq
    · rw [hj] at hj'; cases hj'
  all_goals cases hx

/-- No turn of a dispatch changes where it ends (R178). -/
theorem Reaches.runTurn {u s t : State} (hr : Reaches u s) (h : Inv s) {x : Turn} (hx : dispatchTurn x = true)
    (e : runTurn x s = .next t) : Reaches u t := by
  rcases hr with hr | ⟨j, hj, hp, hu⟩
  · rw [runTurn_dispatch_of_no_job h.dispatch_ok hr.1 hx] at e
    cases e
    exact .inl hr
  · cases x
    case handOut k => cases e; exact handOut_reaches hj hp hu k
    case engine k => cases e; exact engineStep_reaches h hj hp hu k
    case join => cases e; exact joinStep_reaches h hj hp hu
    all_goals cases hx

/-- A turn of a dispatch has a next state, and leaves the schedule alone. -/
theorem runTurn_dispatch_next {x : Turn} (hx : dispatchTurn x = true) (s : State) :
    ∃ t, runTurn x s = .next t ∧ t.sched = s.sched := by
  cases x
  case handOut e =>
    obtain ⟨es, d, eq⟩ := handOut_keeps e s
    exact ⟨_, rfl, by rw [eq]⟩
  case engine e =>
    obtain ⟨pix, pay, es, live, eq⟩ := engineStep_keeps e s
    exact ⟨_, rfl, by rw [eq]⟩
  case join =>
    refine ⟨_, rfl, ?_⟩
    rcases joinStep_cases s with eq | ⟨j, -, -, -, eq⟩ <;> rw [eq]
    exact (joinJob_commandEnds j s).frame.sched_eq
  all_goals cases hx

theorem core_run_succ {s s' : State} (h : step s = .next s') (k : Nat) :
    Sys2Proof.core.run (k + 1) s = Sys2Proof.core.run k s' := by
  have hcore : Sys2Proof.core.step s = .next s' := h
  simp only [Host.Core.run, hcore]

/-- A run of dispatch turns to the end of its schedule. -/
theorem Reaches.run {u : State} {ts : List Turn} (hts : ∀ x ∈ ts, dispatchTurn x = true) {s t : State} (h : Inv s)
    (hr : Reaches u s) (hs : s.sched = ts) (e : Sys2Proof.core.run ts.length s = .next t) :
    Inv t ∧ Reaches u t ∧ t.sched = [] := by
  induction ts generalizing s with
  | nil => cases e; exact ⟨h, hr, hs⟩
  | cons x ts ih =>
    obtain ⟨hx, hts⟩ := List.forall_mem_cons.1 hts
    obtain ⟨s', hs', hsched⟩ := runTurn_dispatch_next hx { s with sched := ts }
    rw [List.length_cons, core_run_succ ((step_of_sched hs).trans hs')] at e
    have h' := inv_sched h ts
    exact ih hts (runTurn_inv h' hs') ((hr.sched ts).runTurn h' hx hs') hsched e

/-! ## The start of the dispatch -/

/-- The one-transition meaning of a command is its opening run to the end (R179). -/
theorem runCommand_of_startCommand {s t : State} (e : startCommand s = .next t) : runCommand s = .next (finishJob t) := by
  rcases startCommand_cases s with ⟨j, h, h'⟩ | h <;> rw [h] at e
  · cases e; exact h'
  · have hjob : t.seq.job = none := (runCommand_commandEnds e).frame.job_none
    have hfinish : finishJob t = t := by rw [finishJob, hjob]
    rw [e, hfinish]

/-- A legal command has an opening, which leaves the schedule alone. -/
theorem startCommand_exists {s : State} {i : Instr} (hi : decode s.seq.cmd = some i) :
    ∃ t, startCommand s = .next t ∧ t.sched = s.sched := by
  have hnext : ∃ t, startCommand s = .next t := by
    rcases startCommand_cases s with ⟨j, h, -⟩ | h
    · exact ⟨_, h⟩
    · rw [h, runCommand_of_decode hi]
      rcases exec_cases i s with ⟨_, h⟩ | ⟨-, h⟩ | ⟨_, _, _, _, _, _, _, h, -⟩ <;> exact ⟨_, h⟩
  obtain ⟨t, e⟩ := hnext
  refine ⟨t, e, ?_⟩
  rcases startCommand_next e with hend | ⟨j, l, we, pix, ht, -⟩
  · exact hend.frame.sched_eq
  · rw [ht]; rfl

/-- The opening of an accepted command reaches the end of its one-transition meaning. -/
theorem startCommand_reaches {s t : State} (h : Inv s) (hj : s.seq.job = none) (e : startCommand s = .next t) :
    Reaches { finishJob t with sched := [] } t := by
  have hidle := (h.dispatch_ok.no_job hj).1
  rcases startCommand_next e with hend | ⟨j, l, we, pix, ht, -⟩
  · have hjob : t.seq.job = none := hend.frame.job_none
    have hfinish : finishJob t = t := by rw [finishJob, hjob]
    exact .inl ⟨hjob, by rw [hfinish]⟩
  · have hengines : t.engines = List.replicate t.params.numEngines Engine.idle := by
      rw [ht]; exact engines_of_idle (s := s) h.dispatch_ok hidle
    have hjob : t.seq.job = some j := by rw [ht]; rfl
    have hprog : Progress t j := by rw [ht]; exact progress_openJob hidle
    refine .inr ⟨j, hjob, hprog, ?_⟩
    have hfinish : finishJob t = joinJob j (runRanges j (t.jobCount j) t) := by rw [finishJob, hjob]
    rw [hfinish, runRanges_eq, jobEnd, ← hengines]
    generalize (runRanges j _ t).pix = pix', (runRanges j _ t).pay = pay'
    cases j <;> rfl

/-- The schedule is no operand of a command. -/
theorem exec_sched {i : Instr} {s t : State} (e : exec i s = .next t) (ts : List Turn) :
    exec i { s with sched := ts } = .next { t with sched := ts } := by
  have h := exec_withEngines s.params.numEngines s.engines ts e
  have f := (exec_commandEnds e).frame
  refine h.trans ?_
  rw [withEngines, ← f.params_eq, ← f.engines_eq]

/-- Settles O44: no turn changes what the ranges, run from here, leave; so the dispatch that the start opened ends where `exec`
does. -/
theorem everyInterleavingEndsInTheSameState : Obligations.EveryInterleavingEndsInTheSameState := by
  intro s t i ts h hrst hphase hjob hi hs hts e hidle
  have h' := inv_sched h ts
  have ha : s.accepted = true := (accepted_iff s).2 ⟨hrst, hphase, hjob⟩
  obtain ⟨s', hs', hsched⟩ := startCommand_exists hi (s := { s with sched := ts })
  have hexec : exec i { s with sched := ts } = .next (finishJob s') := by
    rw [← runCommand_of_decode (s := { s with sched := ts }) hi]
    exact runCommand_of_startCommand hs'
  have hinv : Inv s' := runTurn_inv (a := .start) h' ((if_pos ha).trans hs')
  rw [core_run_succ ((step_start hs ha).trans hs')] at e
  obtain ⟨hinvt, hreach, hschedt⟩ := (startCommand_reaches h' hjob hs').run hts hinv hsched e
  refine (exec_sched hexec []).trans (congrArg _ ?_)
  rcases hreach with ⟨-, hu⟩ | ⟨j, hj, -⟩
  · rw [← hu, ← hschedt]
  · rw [(hinvt.dispatch_ok.open_job j hj).phase_run] at hidle
    cases hidle

end Sys2Proof.Machine
end

section
/-! SUPPORT. The host's acknowledgement of a command's end, and the interrupt output. -/

open Sys2Proof

namespace Sys2Proof.Machine

/-! ## Acknowledgement -/

/-- A step on a host write of `v` to STATUS (60_exceptions.md R198). -/
theorem step_statusWrite {s : State} {v : Word} {rest : List HostOp} {ts : List Turn}
    (h : hostNext s (.writeReg .word 0x0C v) rest ts) :
    step s = .next (acknowledge v (hostDone s { data := 0, busError := false } rest ts)) :=
  step_writeReg (r := .status) h

/-- Settles O10: the step is `acknowledge`, and once it has cleared ERR nothing refuses a CMD write. -/
theorem acknowledgementClearsWhatIsWrittenAsOne : Obligations.AcknowledgementClearsWhatIsWrittenAsOne := by
  intro s v rest ts h
  refine ⟨_, step_statusWrite h, rfl, ?_⟩
  rw [acknowledge_status, acknowledge_eq]
  refine ⟨rfl, rfl, rfl, rfl, rfl, fun w rest' hv hb h' => ⟨_, step_cmdWrite_accepted h' hb ?_, rfl, rfl⟩⟩
  rw [acknowledge_status, acknowledge_eq]
  exact if_pos hv

/-! ## The interrupt -/

theorem irq_of_done {s : State} (h : s.status.done = true) : s.irq = s.ctrl.ie := by
  rw [State.irq, h, Bool.and_true]

theorem irq_of_not_done {s : State} (h : s.status.done = false) : s.irq = false := by
  rw [State.irq, h, Bool.and_false]

theorem CommandEnds.done_set {s t : State} (h : CommandEnds s t) : t.status.done = true := by
  rcases h with ⟨code, r0, -, rfl⟩ | ⟨r0, r1, r2, l, w, pix, pay, rfl⟩ <;> rfl

/-- Once a command has ended, irq is IE (60_exceptions.md R201). -/
theorem CommandEnds.irq_eq {s t : State} (h : CommandEnds s t) : t.irq = s.ctrl.ie :=
  (irq_of_done h.done_set).trans (congrArg Ctrl.ie h.frame.ctrl_eq)

/-- No register write clears BUSY (10_state.md R30). -/
theorem regWrite_busy {s : State} (h : s.status.busy = true) (r : Reg) (v : Word) : (regWrite r v s).status.busy = true := by
  rcases regWrite_cases r v s with ⟨-, -, e⟩ | ⟨-, e | e | e⟩ <;> rw [e]
  · rfl
  · exact h
  · exact h
  · exact h

/-- A turn that clears BUSY, reset apart, is the end of the running command. -/
theorem TurnEffect.ends_of_busy_cleared {s t : State} (h : TurnEffect s t) (hs : s.status.busy = true)
    (ht : t.status.busy = false) (hr : t.rst = false) : CommandEnds s t := by
  cases h with
  | kept h => rw [h.status_eq, hs] at ht; cases ht
  | wrote r v rest _ _ e =>
    have hb : t.status.busy = true := by rw [e]; exact regWrite_busy (s := { s with host := rest }) hs r v
    rw [hb] at ht; cases ht
  | ended h => exact h
  | opened j l we pix _ e =>
    have hb : t.status.busy = true := by rw [e]; exact hs
    rw [hb] at ht; cases ht
  | reset e => rw [e] at hr; cases hr

/-- A host write that clears IE lowers irq. -/
theorem irq_of_ctrlWrite {s t : State} {v : Word} {rest : List HostOp} {ts : List Turn}
    (h : hostNext s (.writeReg .word 0x08 v) rest ts) (hv : v.toNat % 2 = 0) (e : step s = .next t) : t.irq = false := by
  rw [step_writeReg (r := .ctrl) h] at e
  cases e
  have hie : (Ctrl.ofWord v).ie = false := by rw [ctrl_ofWord_eq]; exact decide_eq_false (by omega)
  exact Bool.and_eq_false_imp.2 fun hie' => by cases hie.symm.trans hie'

/-- A host write that clears DONE lowers irq. -/
theorem irq_of_statusWrite {s t : State} {v : Word} {rest : List HostOp} {ts : List Turn}
    (h : hostNext s (.writeReg .word 0x0C v) rest ts) (hv : v.toNat / 2 % 2 = 1) (e : step s = .next t) : t.irq = false := by
  rw [step_statusWrite h] at e
  cases e
  refine irq_of_not_done ?_
  rw [acknowledge_status, acknowledge_eq]
  exact if_pos hv

/-- Settles O11: a command's end sets DONE and keeps CTRL, and each of the three writes clears one of the two. -/
theorem interruptFollowsCompletion : Obligations.InterruptFollowsCompletion := by
  refine ⟨irq_iff, fun i s t e => (exec_commandEnds e).irq_eq, fun s t e hs ht hr => ?_, fun s t v rest ts e h => ?_⟩
  · obtain ⟨ts, h⟩ := step_effect e
    exact (h.ends_of_busy_cleared hs ht hr).irq_eq
  · rcases h with ⟨h, hv⟩ | ⟨h, hv⟩ | ⟨h, hb, he⟩
    · exact irq_of_statusWrite h hv e
    · exact irq_of_ctrlWrite h hv e
    · rw [step_cmdWrite_accepted h hb he] at e
      cases e
      exact irq_of_not_done rfl

end Sys2Proof.Machine
end

section
/-! SUPPORT. Errors: the ordered checks of each command are the only source of its error codes, and an error completion writes
nothing else. -/

open Sys2Proof

namespace Sys2Proof.Machine

/-! ## The checks of each command -/

/-- The codes of R194's row for a command. -/
def rowErrors : Instr → List ErrCode
  | .addr => []
  | .c2b => []
  | .exbit => []
  | .maxcap => []
  | .limit => []
  | .wrhdr => [.imageSmall, .pixBounds, .hdrOverflow]
  | .rdhdr => [.imageSmall, .pixBounds]
  | .embit => [.bitValue]
  | .emchr => [.imageSmall, .pixBounds, .charRange]
  | .exchr => [.imageSmall, .pixBounds]
  | .part => [.wcount, .rangeIndex]
  | .encrng => [.imageSmall, .pixBounds, .payBounds, .charRange]
  | .decrng => [.imageSmall, .pixBounds, .payBounds]
  | .encode => [.wcount, .imageSmall, .pixBounds, .capacity, .payBounds, .hdrOverflow, .charRange]
  | .decode => [.wcount, .imageSmall, .pixBounds, .hdrLength]

/-- The ordered checks of a command on its snapshot (30_encoding.md R99), DECODE's of the header it reads among them. -/
def commandChecks (i : Instr) (s : State) : List Check :=
  match i with
  | .addr => []
  | .c2b => []
  | .exbit => []
  | .maxcap => []
  | .limit => []
  | .wrhdr => wrhdrChecks s
  | .rdhdr => imageChecks s
  | .embit => [(decide (s.opA1 ≤ 1), .bitValue)]
  | .emchr => imageChecks s ++ [charSpanCheck s, (charAdmitted s.opCm s.opA1, .charRange)]
  | .exchr => imageChecks s ++ [charSpanCheck s]
  | .part => [workerCheck s.opA1Signed, (decide (s.opA2 < effWorkers s.opA1Signed s.opA0), .rangeIndex)]
  | .encrng => imageChecks s ++ rangeChecks s ++ [charsCheck s s.opA0 s.opA1]
  | .decrng => imageChecks s ++ rangeChecks s
  | .encode => encodeChecks s
  | .decode => decodeChecks s ++ lengthChecks s (headerOf s)

/-- Each check of a command raises a code of the command's row (60_exceptions.md R194). -/
theorem code_mem_rowErrors {i : Instr} {s : State} {c : Check} (h : c ∈ commandChecks i s) : c.2 ∈ rowErrors i := by
  revert c
  cases i <;>
    simp [commandChecks, rowErrors, wrhdrChecks, imageChecks, charSpanCheck, workerCheck, rangeChecks, charsCheck,
      encodeChecks, decodeChecks, lengthChecks]

/-- HDR_OVERFLOW is a code of WRHDR and ENCODE only, and their 32-bit operand always passes its check (log 14). -/
theorem hdrOverflow_passes {i : Instr} {s : State} {c : Check} (h : c ∈ commandChecks i s) (hc : c.2 = .hdrOverflow) :
    c.1 = true := by
  have hrow := code_mem_rowErrors h
  rw [hc] at hrow
  cases i
  case wrhdr =>
    have ha : s.opA0 < 4294967296 := s.seq.snap.a0.isLt
    revert c
    simp [commandChecks, wrhdrChecks, imageChecks, ha]
  case encode =>
    have hl : s.opLin < 4294967296 := s.seq.snap.lin.isLt
    revert c
    simp [commandChecks, encodeChecks, workerCheck, imageChecks, charsCheck, hl]
  all_goals simp [rowErrors] at hrow

theorem rowErrors_are_errors {i : Instr} {code : ErrCode} (h : code ∈ rowErrors i) : code ≠ .noError ∧ code ≠ .illegalCmd := by
  revert code
  cases i <;> simp [rowErrors]

/-! ## Every command ends by its checks -/

/-- The code raised is that of a check that has failed. -/
theorem failed_mem_of_firstError {l : List Check} {code : ErrCode} (h : firstError l = some code) : (false, code) ∈ l := by
  induction l with
  | nil => cases h
  | cons c l ih =>
    obtain ⟨ok, k⟩ := c
    cases ok
    · cases h; exact List.mem_cons_self
    · exact List.mem_cons_of_mem _ (ih h)

/-- A result that is a next state, in which the command has succeeded or has failed with the code of a failed check. -/
def EndsByChecks (checks : List Check) (s : State) (r : Result) : Prop :=
  ∃ t, r = .next t ∧ (Succeeds s t ∨ ∃ code, (false, code) ∈ checks ∧ Fails code s t)

theorem complete_endsByChecks {checks : List Check} {s : State} (r0 r1 r2 l w : Word) (pix pay : Memory) :
    EndsByChecks checks s
      (.next (complete { s with res0 := r0, res1 := r1, res2 := r2, len := l, weff := w, pix := pix, pay := pay })) :=
  ⟨_, rfl, .inl (complete_succeeds s r0 r1 r2 l w pix pay)⟩

theorem raiseError_endsByChecks {checks : List Check} {code : ErrCode} (h : (false, code) ∈ checks) (s : State) (r0 : Word) :
    EndsByChecks checks s (.next (raiseError code { s with res0 := r0 })) :=
  ⟨_, rfl, .inr ⟨code, h, raiseError_fails_res0 code s r0⟩⟩

theorem runChecked_endsByChecks {checks : List Check} {body : State → State} {s : State} (r0 r1 r2 : Word) (pix : Memory)
    (hb : body s = { s with res0 := r0, res1 := r1, res2 := r2, pix := pix }) :
    EndsByChecks checks s (runChecked checks body s) := by
  rcases runChecked_cases (rfl : runChecked checks body s = _) with ⟨code, hc, e⟩ | ⟨-, e⟩ <;> rw [e]
  · exact raiseError_endsByChecks (failed_mem_of_firstError hc) s s.res0
  · rw [hb]; exact complete_endsByChecks r0 r1 r2 s.len s.weff pix s.pay

/-- A command with ranges: a failed check, or the end of its opened job. -/
theorem openChecked_endsByChecks {checks : List Check} {body : State → State} {s : State} (w : Word) (pix pay : Memory)
    (hb : finishJob (body s) = complete { s with weff := w, pix := pix, pay := pay }) :
    EndsByChecks checks s (.next (finishJob (openChecked checks body s))) := by
  cases hc : firstError checks with
  | some code =>
    rw [openChecked_fail hc]
    exact raiseError_endsByChecks (failed_mem_of_firstError hc) s s.res0
  | none =>
    rw [openChecked_pass hc, hb]
    exact complete_endsByChecks s.res0 s.res1 s.res2 s.len w pix pay

/-- DECODE checks its operands, then the header it has read (45_worker_orchestration.md R174). -/
theorem exec_decode_endsByChecks {s : State} {l : Nat} (hl : headerOf s = l) :
    EndsByChecks (decodeChecks s ++ lengthChecks s l) s (exec .decode s) := by
  cases hc : firstError (decodeChecks s) with
  | some code =>
    rw [exec_decode, openDecode, openChecked_fail hc]
    exact raiseError_endsByChecks (List.mem_append_left _ (failed_mem_of_firstError hc)) s s.res0
  | none =>
    cases hlen : firstError (lengthChecks s l) with
    | some code =>
      rw [exec_decode_bad_length hc hl hlen]
      exact raiseError_endsByChecks (List.mem_append_right _ (failed_mem_of_firstError hlen)) s _
    | none =>
      rw [exec_decode_good_length hc hl hlen]
      exact complete_endsByChecks _ s.res1 s.res2 _ _ s.pix _

/-- Every command ends by its checks (30_encoding.md R99). -/
theorem exec_endsByChecks (i : Instr) (s : State) : EndsByChecks (commandChecks i s) s (exec i s) := by
  cases i
  case addr => exact complete_endsByChecks _ _ s.res2 s.len s.weff s.pix s.pay
  case c2b => exact complete_endsByChecks _ _ s.res2 s.len s.weff s.pix s.pay
  case exbit => exact complete_endsByChecks _ s.res1 s.res2 s.len s.weff s.pix s.pay
  case maxcap => exact complete_endsByChecks _ s.res1 s.res2 s.len s.weff s.pix s.pay
  case limit => exact complete_endsByChecks _ _ _ s.len s.weff s.pix s.pay
  case wrhdr => rw [exec_wrhdr]; exact runChecked_endsByChecks _ _ _ _ rfl
  case rdhdr => rw [exec_rdhdr]; exact runChecked_endsByChecks _ _ _ _ rfl
  case embit => rw [exec_embit]; exact runChecked_endsByChecks _ _ _ _ rfl
  case emchr => rw [exec_emchr]; exact runChecked_endsByChecks _ _ _ _ rfl
  case exchr => rw [exec_exchr]; exact runChecked_endsByChecks _ _ _ _ rfl
  case part => rw [exec_part]; exact runChecked_endsByChecks _ _ _ _ rfl
  case encrng => exact openChecked_endsByChecks _ _ _ (finish_encrng s)
  case decrng => exact openChecked_endsByChecks _ _ _ (finish_decrng s)
  case encode => exact openChecked_endsByChecks _ _ _ (finish_encode _ _ _)
  case decode => exact exec_decode_endsByChecks rfl

/-- Settles O49: a command succeeds or fails with the code of one of its checks, all of which are codes of its row. -/
theorem everyCommandCompletes : Obligations.EveryCommandCompletes := by
  intro i s
  obtain ⟨t, e, h | ⟨code, hc, h⟩⟩ := exec_endsByChecks i s
  · exact ⟨t, e, .inl h⟩
  · obtain ⟨hno, hill⟩ := rowErrors_are_errors (code_mem_rowErrors hc)
    exact ⟨t, e, .inr ⟨code, hno, hill, h⟩⟩

/-- Settles O51: the code is that of a failed check, so it is of the command's row, and the check of HDR_OVERFLOW never
fails. -/
theorem eachCommandRaisesOnlyItsErrors : Obligations.EachCommandRaisesOnlyItsErrors := by
  intro i s t hs e ht
  obtain ⟨t', e', h | ⟨code, hc, h⟩⟩ := exec_endsByChecks i s <;> cases e.symm.trans e'
  · cases (h.err_eq.trans hs).symm.trans ht
  · rw [h.errcode_eq]
    exact ⟨fun hov => absurd (hdrOverflow_passes hc hov) Bool.false_ne_true, code_mem_rowErrors hc⟩

/-! ## What an error leaves unchanged -/

/-- Settles O50: of the three ends of a command, the first writes STATUS only, DECODE's on HDR_LENGTH also RES0, and a success
leaves ERR clear. -/
theorem errorsComeBeforeMutation : Obligations.ErrorsComeBeforeMutation := by
  intro i s t code hs e ht hcode
  rcases exec_cases i s with ⟨_, h⟩ | ⟨rfl, h⟩ | ⟨r0, r1, r2, l, w, pix, pay, h, -⟩ <;> rw [h] at e <;> cases e
  · exact ⟨⟨rfl, rfl⟩, ⟨rfl, rfl⟩, rfl, rfl, .inl rfl⟩
  · refine ⟨⟨rfl, rfl⟩, ⟨rfl, rfl⟩, rfl, rfl, .inr ⟨rfl, hcode.symm, ?_⟩⟩
    exact word_ofNat_toNat (headerOf_lt s)
  · cases hs.symm.trans ht

end Sys2Proof.Machine
end

section
/-! SUPPORT. What stops a step: the byte accesses of the host while a command runs, and nothing else (70_reset_and_hazards.md
R229). -/

open Sys2Proof

namespace Sys2Proof.Machine

/-! ## The hazard -/

/-- An access of the host to one byte of a memory, a read or a write. -/
def ByteAccess (sp : Space) (off : Nat) (a : Access) : Prop :=
  a = .readMem sp .byte off ∨ ∃ v, a = .writeMem sp .byte off v

/-- An admitted access to a byte while a command runs is the hazard (R229). -/
theorem hostAccess_of_byteAccess {s : State} {sp : Space} {off : Nat} {a : Access} (hb : s.status.busy = true)
    (ho : off < s.spaceBytes sp) (ha : ByteAccess sp off a) : hostAccess a s = .fault (.hostAccessDuringBusy sp off) := by
  have hadm : memAdmitted s sp .byte off = true := decide_eq_true ho
  rcases ha with rfl | ⟨v, rfl⟩ <;> rw [hostAccess, if_pos hadm, memGuard, if_pos hb]

/-- Settles O18: the access is admitted, so BUSY decides. -/
theorem memoryAccessDuringBusyFaults : Obligations.MemoryAccessDuringBusyFaults := by
  intro s sp off v rest ts hb ho h
  obtain ⟨a, ha, h⟩ : ∃ a, ByteAccess sp off a ∧ hostNext s a rest ts :=
    h.elim (fun h => ⟨_, .inl rfl, h⟩) fun h => ⟨_, .inr ⟨v, rfl⟩, h⟩
  rw [step_of_hostNext h]
  exact hostAccess_of_byteAccess hb (by cases sp <;> exact ho) ha

/-! ## Nothing else stops a turn -/

/-- The host's next operation is a byte access, rst is not asserted and a command runs. -/
structure Hazard (sp : Space) (off : Nat) (s : State) : Prop where
  busy : s.status.busy = true
  rst_clear : s.rst = false
  byte_access : ∃ a rest, ByteAccess sp off a ∧ s.host = .access a :: rest

/-- A turn's answer: a next state, or the fault of a hazard the host is in. -/
def StopsAtHazardOnly (s : State) (r : Result) : Prop :=
  (∃ t, r = .next t) ∨ ∃ sp off, Hazard sp off s ∧ r = .fault (.hostAccessDuringBusy sp off)

/-- A memory access answers unless it is an admitted one while a command runs. -/
theorem memAccess_cases {s k : State} {sp : Space} {w : Width} {off : Nat} {r : Result}
    (hr : r = if memAdmitted s sp w off then memGuard sp off s k else .next (refuseAccess s)) :
    (∃ t, r = .next t) ∨ s.status.busy = true ∧ w = .byte ∧ r = .fault (.hostAccessDuringBusy sp off) := by
  by_cases hadm : memAdmitted s sp w off = true
  · rw [if_pos hadm, memGuard] at hr
    by_cases hb : s.status.busy = true
    · have hw : w = .byte := by
        simp only [memAdmitted, Bool.and_eq_true, beq_iff_eq] at hadm
        exact hadm.1
      exact .inr ⟨hb, hw, hr.trans (if_pos hb)⟩
    · exact .inl ⟨k, hr.trans (if_neg hb)⟩
  · exact .inl ⟨_, hr.trans (if_neg hadm)⟩

theorem hostAccess_stops (a : Access) (s : State) :
    (∃ t, hostAccess a s = .next t) ∨
      ∃ sp off, s.status.busy = true ∧ ByteAccess sp off a ∧ hostAccess a s = .fault (.hostAccessDuringBusy sp off) := by
  cases a with
  | readReg w off => rw [hostAccess]; split <;> exact .inl ⟨_, rfl⟩
  | writeReg w off v => rw [hostAccess]; split <;> exact .inl ⟨_, rfl⟩
  | readMem sp w off =>
    rcases memAccess_cases (hostAccess.eq_def (.readMem sp w off) s) with h | ⟨hb, rfl, h⟩
    · exact .inl h
    · exact .inr ⟨sp, off, hb, .inl rfl, h⟩
  | writeMem sp w off v =>
    rcases memAccess_cases (hostAccess.eq_def (.writeMem sp w off v) s) with h | ⟨hb, rfl, h⟩
    · exact .inl h
    · exact .inr ⟨sp, off, hb, .inr ⟨v, rfl⟩, h⟩

theorem hostTurn_stops (s : State) : StopsAtHazardOnly s (hostTurn s) := by
  unfold hostTurn
  split
  · exact .inl ⟨s, rfl⟩
  · rename_i hr
    split
    · exact .inl ⟨s, rfl⟩
    · rename_i op rest hh
      cases op with
      | access a =>
        rcases hostAccess_stops a { s with host := rest } with h | ⟨sp, off, hb, ha, h⟩
        · exact .inl h
        · exact .inr ⟨sp, off, ⟨hb, by simpa using hr, a, rest, ha, hh⟩, h⟩
      | waitIdle => exact .inl ⟨_, rfl⟩
      | waitIrq => exact .inl ⟨_, rfl⟩

/-- The accepted command always ends (60_exceptions.md R196, R197). -/
theorem runCommand_exists (s : State) : ∃ t, runCommand s = .next t := by
  cases hi : decode s.seq.cmd with
  | none => exact ⟨_, by rw [runCommand, hi]⟩
  | some i =>
    obtain ⟨t, e, -⟩ := everyCommandCompletes i s
    exact ⟨t, (runCommand_of_decode hi).trans e⟩

theorem runTurn_stops (a : Turn) (s : State) : StopsAtHazardOnly s (runTurn a s) := by
  cases a
  case host => exact hostTurn_stops s
  case run =>
    rw [runTurn]
    split
    · exact .inl (runCommand_exists s)
    · exact .inl ⟨s, rfl⟩
  case start =>
    rw [runTurn]
    split
    · rcases startCommand_cases s with ⟨j, h, -⟩ | h
      · exact .inl ⟨_, h⟩
      · exact .inl (h ▸ runCommand_exists s)
    · exact .inl ⟨s, rfl⟩
  all_goals exact .inl ⟨_, rfl⟩

/-- Settles O60: a step is one turn, and only the host's turn can stop, at the hazard. -/
theorem onlyTheHazardStopsTheMachine : Obligations.OnlyTheHazardStopsTheMachine := by
  intro s
  obtain ⟨a, ts, e⟩ := step_turn s
  rw [e]
  rcases runTurn_stops a { s with sched := ts } with ⟨t, h⟩ | ⟨sp, off, ⟨hb, hr, x, rest, hx, hh⟩, h⟩ <;> rw [h]
  · exact ⟨fun r hr => (by cases hr), fun sp off hf => (by cases hf)⟩
  · refine ⟨fun r hr => (by cases hr), fun sp off hf => ?_⟩
    cases hf
    rcases hx with rfl | ⟨v, rfl⟩
    · exact ⟨hb, hr, rest, .inl hh⟩
    · exact ⟨hb, hr, rest, .inr ⟨v, hh⟩⟩

end Sys2Proof.Machine
end

section
/-! SUPPORT. Reset: what asserting rst leaves of the block, and of the memories where it abandons a command
(70_reset_and_hazards.md R220 to R222). -/

open Sys2Proof

namespace Sys2Proof.Machine

/-! ## Reset while no command runs -/

theorem assertReset_of_not_busy {s : State} (h : s.status.busy = false) :
    assertReset s = { State.resetOf s.params s.pix s.pay with
      rst := true, host := s.host, seen := s.seen, sched := s.sched, freeCtr := s.freeCtr + 1 } := by
  rw [assertReset, h]
  rfl

/-- Settles O7: with BUSY = 0 no byte is drawn anew, and under rst the host's turn leaves its operation pending. -/
theorem assertedResetClearsTheBlock : Obligations.AssertedResetClearsTheBlock := by
  refine ⟨fun s ts hs hb => ?_, fun s ts hs hr => ?_, fun s ts hs => step_of_sched hs⟩
  · rw [step_of_sched hs, runTurn, assertReset_of_not_busy (s := { s with sched := ts }) hb]
  · exact (step_of_sched hs).trans (if_pos hr)

/-! ## No command unlists a byte -/

/-- Every offset that `m` lists is listed in `m'`. -/
def ListsAllOf (m m' : Memory) : Prop := ∀ a, Memory.lookup m' a = none → Memory.lookup m a = none

theorem listsAllOf_of_eq {m m' : Memory} (h : m' = m) : ListsAllOf m m' := fun _ ha => h ▸ ha

theorem ListsAllOf.trans {m m' m'' : Memory} (h : ListsAllOf m m') (h' : ListsAllOf m' m'') : ListsAllOf m m'' :=
  fun a ha => h a (h' a ha)

theorem embedBits_listsAllOf (bits : Nat → Bool) (base n : Nat) (m : Memory) : ListsAllOf m (embedBits bits base n m) := by
  intro a ha
  rw [lookup_embedBits] at ha
  split at ha
  · cases ha
  · exact ha

/-- Both memories of `t` list what those of `s` list. -/
def NothingUnlisted (s t : State) : Prop := ∀ d, ListsAllOf (s.target d) (t.target d)

theorem nothingUnlisted_of_memories {s t : State} (hpix : ListsAllOf s.pix t.pix) (hpay : ListsAllOf s.pay t.pay) :
    NothingUnlisted s t
  | .enc => hpix
  | .dec => hpay

theorem nothingUnlisted_of_eq {s t : State} (hpix : t.pix = s.pix) (hpay : t.pay = s.pay) : NothingUnlisted s t :=
  nothingUnlisted_of_memories (listsAllOf_of_eq hpix) (listsAllOf_of_eq hpay)

theorem runRanges_nothingUnlisted (j : Job) (n : Nat) (s : State) : NothingUnlisted s (runRanges j n s) := by
  intro d a ha
  by_cases hd : d = j.dir
  · subst hd
    by_cases hspan : ∃ i < n, InSpan j.dir (s.jobRange i j) a
    · rw [settled_runRanges hspan] at ha; cases ha
    · rwa [lookup_runRanges_outside hspan] at ha
  · rwa [target_runRanges_other s n hd] at ha

theorem joinJob_memories (j : Job) (s : State) : (joinJob j s).pix = s.pix ∧ (joinJob j s).pay = s.pay := by
  cases j <;> exact ⟨rfl, rfl⟩

theorem finishJob_openJob_nothingUnlisted (j : Job) (l we : Nat) (s : State) :
    NothingUnlisted s (finishJob (openJob j l we s)) := by
  have hranges := runRanges_nothingUnlisted j ((openJob j l we s).jobCount j) (openJob j l we s)
  rw [finishJob_openJob]
  generalize runRanges j ((openJob j l we s).jobCount j) (openJob j l we s) = u at hranges ⊢
  obtain ⟨hpix, hpay⟩ := joinJob_memories j u
  exact nothingUnlisted_of_memories (by rw [hpix]; exact hranges .enc) (by rw [hpay]; exact hranges .dec)

theorem finishJob_opened_nothingUnlisted (j : Job) (s : State) : NothingUnlisted s (finishJob (opened s j)) := by
  rcases opened_cases s j with ⟨code, r0, -, e⟩ | ⟨l, we, pix, e, -, -, hpix⟩ <;> rw [e]
  · exact nothingUnlisted_of_eq rfl rfl
  · have hopen : ListsAllOf s.pix pix := by
      rcases hpix with hpix | hpix
      · exact listsAllOf_of_eq hpix
      · rw [hpix]; exact embedBits_listsAllOf _ _ _ _
    clear hpix e
    have hjob := finishJob_openJob_nothingUnlisted j l we { s with pix := pix }
    exact nothingUnlisted_of_memories (hopen.trans (hjob .enc)) (hjob .dec)

theorem exec_nothingUnlisted {i : Instr} {s t : State} (e : exec i s = .next t) : NothingUnlisted s t := by
  have jobs (j : Job) (h : exec i s = .next (finishJob (opened s j))) : NothingUnlisted s t := by
    rw [h] at e; cases e; exact finishJob_opened_nothingUnlisted j s
  have keeps (hpix : ¬(i = .wrhdr ∨ i = .emchr ∨ i = .encrng ∨ i = .encode)) (hpay : ¬(i = .decrng ∨ i = .decode)) :
      NothingUnlisted s t := by
    obtain ⟨-, -, -, hpay', hpix'⟩ := commandsWriteOnlyWhatTheirRowsName i s t e
    exact nothingUnlisted_of_eq (not_not.1 (mt hpix' hpix)) (not_not.1 (mt hpay' hpay))
  cases i
  case encrng => exact jobs .encrng rfl
  case decrng => exact jobs .decrng rfl
  case encode => exact jobs .encode rfl
  case decode => exact jobs .decode rfl
  case wrhdr =>
    rw [exec_wrhdr] at e
    rcases runChecked_cases e with ⟨code, -, e⟩ | ⟨-, e⟩ <;> cases e
    · exact nothingUnlisted_of_eq rfl rfl
    · have hpix : ListsAllOf s.pix (hdrWrite s.opA0 s.pix) := embedBits_listsAllOf _ _ _ _
      generalize hdrWrite s.opA0 s.pix = m at hpix ⊢
      exact nothingUnlisted_of_memories hpix (listsAllOf_of_eq rfl)
  case emchr =>
    rw [exec_emchr] at e
    rcases runChecked_cases e with ⟨code, -, e⟩ | ⟨-, e⟩ <;> cases e
    · exact nothingUnlisted_of_eq rfl rfl
    · exact nothingUnlisted_of_memories (embedBits_listsAllOf _ _ _ _) (listsAllOf_of_eq rfl)
  all_goals exact keeps (by decide) (by decide)

/-! ## The end of the command a reset abandons -/

theorem commandEnd_of_job {s : State} {j : Job} (h : s.seq.job = some j) : commandEnd s = runRanges j (s.jobCount j) s := by
  rw [commandEnd, h]

theorem commandEnd_of_run {s t : State} (h : s.seq.job = none) (e : runCommand s = .next t) : commandEnd s = t := by
  rw [commandEnd, h]
  simp only [e]

theorem commandEnd_nothingUnlisted (s : State) : NothingUnlisted s (commandEnd s) := by
  cases hj : s.seq.job with
  | some j => rw [commandEnd_of_job hj]; exact runRanges_nothingUnlisted j _ s
  | none =>
    cases hi : decode s.seq.cmd with
    | none =>
      have e : runCommand s = .next (raiseError .illegalCmd s) := by rw [runCommand, hi]
      rw [commandEnd_of_run hj e]; exact nothingUnlisted_of_eq rfl rfl
    | some i =>
      obtain ⟨t, e⟩ := runCommand_exists s
      rw [commandEnd_of_run hj e]
      exact exec_nothingUnlisted ((runCommand_of_decode hi).symm.trans e)

/-! ## The memories an abandoned command leaves -/

/-- Nothing is drawn where the command would end in the memory there is. -/
theorem abandonedMemory_self (n : Nat) (sp : Space) {m : Memory} (h : Memory.wf m) : abandonedMemory n sp m m = m := by
  rw [abandonedMemory, List.filterMap_congr (g := some) fun c hc => if_pos (lookup_eq_some_of_mem h hc), List.filterMap_some]

theorem read_abandonedMemory (n : Nat) (sp : Space) {cur fin : Memory} (hw : Memory.wf fin) (h : ListsAllOf cur fin) (a : Nat) :
    Memory.read sp (abandonedMemory n sp cur fin) a = Memory.read sp cur a ∨
      Memory.read sp (abandonedMemory n sp cur fin) a = Memory.read sp fin a := by
  unfold Memory.read
  rcases abandonedMemory_lookup n sp cur fin hw h a with e | e
  · exact .inl (by rw [e])
  · exact .inr (by rw [e])

/-- Each byte of `t` is that of `s` or that of `u` (70_reset_and_hazards.md R221). -/
def OldOrNew (s u t : State) : Prop :=
  ∀ a, (t.pixAt a = s.pixAt a ∨ t.pixAt a = u.pixAt a) ∧ (t.payAt a = s.payAt a ∨ t.payAt a = u.payAt a)

theorem OldOrNew.congr {s u u' t : State} (h : OldOrNew s u t) (hpix : u'.pix = u.pix) (hpay : u'.pay = u.pay) :
    OldOrNew s u' t := by
  unfold OldOrNew State.pixAt State.payAt at *
  rw [hpix, hpay]
  exact h

theorem assertReset_pix_of_busy {s : State} (h : s.status.busy = true) :
    (assertReset s).pix = abandonedMemory s.freeCtr .pix s.pix (commandEnd s).pix := if_pos h

theorem assertReset_pay_of_busy {s : State} (h : s.status.busy = true) :
    (assertReset s).pay = abandonedMemory s.freeCtr .pay s.pay (commandEnd s).pay := if_pos h

theorem assertReset_oldOrNew {s : State} (h : Inv s) (hb : s.status.busy = true) :
    OldOrNew s (commandEnd s) (assertReset s) := by
  have hend := commandEnd_memInv h.mem_ok h.dispatch_ok
  have hlists := commandEnd_nothingUnlisted s
  intro a
  rw [State.pixAt, State.payAt, assertReset_pix_of_busy hb, assertReset_pay_of_busy hb]
  exact ⟨read_abandonedMemory _ _ hend.pix_wf (hlists .enc) a, read_abandonedMemory _ _ hend.pay_wf (hlists .dec) a⟩

/-- An illegal word writes nothing (log 7), so its reset keeps both memories. -/
theorem assertReset_memories_of_illegal {s : State} (h : Inv s) (hb : s.status.busy = true) (hj : s.seq.job = none)
    (hi : decode s.seq.cmd = none) : (assertReset s).pix = s.pix ∧ (assertReset s).pay = s.pay := by
  have hend : commandEnd s = raiseError .illegalCmd s := commandEnd_of_run hj (by rw [runCommand, hi])
  rw [assertReset_pix_of_busy hb, assertReset_pay_of_busy hb, hend]
  exact ⟨abandonedMemory_self _ _ h.mem_ok.pix_wf, abandonedMemory_self _ _ h.mem_ok.pay_wf⟩

/-- Settles O8: every register is that of the reset state, and the bytes are drawn between those of now and those of the
command's end. -/
theorem resetDuringACommandAbandonsIt : Obligations.ResetDuringACommandAbandonsIt := by
  intro s ts h hs hb
  have h' := inv_sched h ts
  have hbytes : OldOrNew s (commandEnd { s with sched := ts }) (assertReset { s with sched := ts }) :=
    assertReset_oldOrNew h' hb
  refine ⟨assertReset { s with sched := ts }, step_of_sched hs, rfl, rfl, rfl, rfl, List.length_replicate,
    fun g hg => List.eq_of_mem_replicate hg, rfl, rfl, rfl, rfl, rfl, rfl, rfl, rfl, rfl, rfl, rfl, rfl, rfl, rfl, rfl, rfl, rfl,
    fun hj hi => assertReset_memories_of_illegal h' hb hj hi, fun i u hj hi e => ?_, fun j hj => ?_⟩
  · have hend : commandEnd { s with sched := ts } = { u with sched := ts } :=
      commandEnd_of_run (s := { s with sched := ts }) hj
        ((runCommand_of_decode (s := { s with sched := ts }) hi).trans (exec_sched e ts))
    exact hbytes.congr (by rw [hend]) (by rw [hend])
  · have hend : commandEnd { s with sched := ts } = runRanges j (s.jobCount j) { s with sched := ts } :=
      commandEnd_of_job (s := { s with sched := ts }) hj
    obtain ⟨hpix, hpay⟩ := sameEnd_set j (s.jobCount j) s s.engines s.disp ts
    exact hbytes.congr (by rw [hend, hpix]) (by rw [hend, hpay])

end Sys2Proof.Machine
end

section
/-! SUPPORT. The default turns bring an open dispatch to its end (70_reset_and_hazards.md R236; log 15): every engine's step
shortens what the busy engines have left, every hand-out what the dispatcher has left. -/

open Sys2Proof

namespace Sys2Proof.Machine

/-! ## What the engines have left to do -/

/-- The turns a busy engine still takes for its range: one a bit, and one to become idle (45_worker_orchestration.md R171). -/
def Engine.turnsLeft (g : Engine) : Nat := if g.busy then 7 * (g.n - g.j) - g.k + 1 else 0

/-- The turns all engines still take. -/
def turnsLeft (es : List Engine) : Nat := (es.map Engine.turnsLeft).sum

theorem Engine.turnsLeft_of_busy {g : Engine} (h : g.busy = true) : g.turnsLeft = 7 * (g.n - g.j) - g.k + 1 := if_pos h

theorem turnsLeft_set_lt {es : List Engine} {e : Nat} {g g' : Engine} (hg : es[e]? = some g) (h : g'.turnsLeft < g.turnsLeft) :
    turnsLeft (es.set e g') < turnsLeft es := by
  obtain ⟨hlt, rfl⟩ := List.getElem?_eq_some_iff.1 hg
  obtain ⟨l₁, l₂, hes, -, hset⟩ := List.exists_of_set (a' := g') hlt
  rw [hset]
  generalize es[e] = g at *
  subst hes
  simp only [turnsLeft, List.map_append, List.map_cons, List.sum_append, List.sum_cons]
  omega

theorem Engine.afterBit_turnsLeft_lt {g : Engine} (hb : g.busy = true) (hk : g.k ≤ 6) (hlt : g.j < g.n) (acc : BitVec 7) :
    (g.afterBit acc).turnsLeft < g.turnsLeft := by
  rcases g.afterBit_eq acc with ⟨hk6, e⟩ | ⟨hk6, e⟩ <;> rw [e] <;> simp only [Engine.turnsLeft, hb, if_true] <;> omega

/-- A busy engine embeds or reads a bit, or has done its range and becomes idle. -/
theorem engineStep_of_busy {s : State} {e : Nat} {g : Engine} (hg : s.engines[e]? = some g) (hb : g.busy = true) :
    g.j < g.n ∧ (engineStep e s = encodeBit e g s ∨ engineStep e s = decodeBit e g s) ∨ engineStep e s = finishRange e g s := by
  simp only [engineStep, hg, if_pos hb]
  split
  · cases g.dir
    · exact .inl ⟨‹_›, .inl rfl⟩
    · exact .inl ⟨‹_›, .inr rfl⟩
  · exact .inr rfl

/-- A step of a busy engine leaves it less to do, and no other agent more. -/
theorem engineStep_progresses {s : State} {e : Nat} {g : Engine} (hg : s.engines[e]? = some g) (hb : g.busy = true)
    (hk : g.k ≤ 6) :
    ∃ pix pay es live, turnsLeft es < turnsLeft s.engines ∧
      engineStep e s = { s with pix := pix, pay := pay, engines := es, disp := { s.disp with live := live } } := by
  have afterBit (hlt : g.j < g.n) (acc : BitVec 7) := turnsLeft_set_lt hg (g.afterBit_turnsLeft_lt hb hk hlt acc)
  rcases engineStep_of_busy hg hb with ⟨hlt, h | h⟩ | h <;> rw [h]
  · exact ⟨_, _, _, s.disp.live, afterBit hlt g.acc, by rw [← g.advance_eq_afterBit]; rfl⟩
  · rw [decodeBit]
    split
    · exact ⟨_, _, _, s.disp.live, afterBit hlt 0, rfl⟩
    · exact ⟨_, _, _, s.disp.live, afterBit hlt _, rfl⟩
  · have hidle : Engine.idle.turnsLeft < g.turnsLeft := by rw [Engine.turnsLeft_of_busy hb]; exact Nat.succ_pos _
    exact ⟨_, _, _, _, turnsLeft_set_lt hg hidle, rfl⟩

/-! ## The default turn of an open dispatch -/

/-- The default turn of an open dispatch is that of a busy engine, or the next hand-out, or the join (log 15). -/
theorem defaultTurn_of_job {s : State} {j : Job} (hp : s.seq.phase = .run) (hj : s.seq.job = some j) :
    (∃ e g, s.engines[e]? = some g ∧ g.busy = true ∧ defaultTurn s = .engine e) ∨
      (∀ g ∈ s.engines, g.busy = false) ∧
        (s.disp.nxt < s.jobCount j ∧ defaultTurn s = .handOut 0 ∨ s.jobCount j ≤ s.disp.nxt ∧ defaultTurn s = .join) := by
  rw [defaultTurn, hp, hj]
  cases he : s.engines.findIdx? (fun g => g.busy) with
  | some e =>
    obtain ⟨hlt, hb, -⟩ := List.findIdx?_eq_some_iff_getElem.1 he
    exact .inl ⟨e, s.engines[e], List.getElem?_eq_getElem hlt, hb, rfl⟩
  | none =>
    refine .inr ⟨fun g hg => List.findIdx?_eq_none_iff.1 he g hg, ?_⟩
    simp only
    split
    · exact .inl ⟨‹_›, rfl⟩
    · exact .inr ⟨by omega, rfl⟩

/-- What an open dispatch has left: the ranges to hand out first, then the turns of its busy engines. -/
def dispatchLeft (j : Job) (s : State) : Nat ×ₗ Nat := toLex (s.jobCount j - s.disp.nxt, turnsLeft s.engines)

/-- Less is left where another range is handed out, or where the engines have less to do. -/
theorem dispatchLeft_lt {s t : State} {j : Job} (hseq : t.seq = s.seq)
    (h : s.jobCount j - t.disp.nxt < s.jobCount j - s.disp.nxt ∨
      t.disp.nxt = s.disp.nxt ∧ turnsLeft t.engines < turnsLeft s.engines) : dispatchLeft j t < dispatchLeft j s := by
  rw [dispatchLeft, jobCount_of_seq hseq, dispatchLeft, Prod.Lex.toLex_lt_toLex]
  exact h.imp_right fun ⟨hnxt, hless⟩ => ⟨by rw [hnxt], hless⟩

/-- A command that has ended well. -/
def Ended (s : State) : Prop :=
  s.seq.phase = .idle ∧ s.status.busy = false ∧ s.status.done = true ∧ s.status.err = false

/-- An open dispatch of a state in the invariant, with no schedule. -/
structure OpenDispatch (j : Job) (s : State) : Prop where
  inv : Inv s
  sched_nil : s.sched = []
  job_eq : s.seq.job = some j

theorem OpenDispatch.jobInv {j : Job} {s : State} (h : OpenDispatch j s) : JobInv s j := h.inv.dispatch_ok.open_job j h.job_eq

theorem OpenDispatch.next {j : Job} {s t : State} (h : OpenDispatch j s) (e : step s = .next t) (hseq : t.seq = s.seq)
    (hsched : t.sched = s.sched) : OpenDispatch j t :=
  ⟨stepKeepsTheInvariant s t h.inv e, hsched.trans h.sched_nil, by rw [hseq]; exact h.job_eq⟩

theorem joinJob_succeeds (j : Job) (s : State) : Succeeds s (joinJob j s) := by
  cases j <;> exact complete_succeeds s _ _ _ _ _ _ _

theorem joinStep_of_done {s : State} {j : Job} (hj : s.seq.job = some j) (hn : s.jobCount j ≤ s.disp.nxt)
    (hl : s.disp.live = []) : joinStep s = joinJob j s := by
  simp only [joinStep, hj]
  exact if_pos ⟨hn, hl⟩

/-- With no busy engine no range is live. -/
theorem JobInv.live_nil {s : State} {j : Job} (h : JobInv s j) (hidle : ∀ g ∈ s.engines, g.busy = false) :
    s.disp.live = [] := by
  have hnil : s.engines.filter (fun g => g.busy) = [] := List.filter_eq_nil_iff.2 fun g hg => by simp [hidle g hg]
  have hlive := h.live_eq
  rw [hnil] at hlive
  exact hlive.symm.eq_nil

/-- There is an engine 0 to hand a range to (00_scope.md R6). -/
theorem exists_engine_zero {s : State} (h : Inv s) : ∃ g, s.engines[0]? = some g := by
  have hp := h.params_ok
  simp only [Params.wellFormed, Bool.and_eq_true, decide_eq_true_eq] at hp
  obtain ⟨⟨⟨hpos, -⟩, -⟩, -⟩ := hp
  exact ⟨_, List.getElem?_eq_getElem (by rw [h.dispatch_ok.engine_count]; exact hpos)⟩

/-- A step of an open dispatch ends the command or leaves less of it. -/
theorem OpenDispatch.proceeds {j : Job} {s : State} (h : OpenDispatch j s) :
    ∃ t, step s = .next t ∧ (Ended t ∨ OpenDispatch j t ∧ dispatchLeft j t < dispatchLeft j s) := by
  have J := h.jobInv
  have hstep := step_of_empty h.sched_nil
  rcases defaultTurn_of_job J.phase_run h.job_eq with ⟨e, g, hg, hb, hturn⟩ | ⟨hidle, ⟨hlt, hturn⟩ | ⟨hle, hturn⟩⟩ <;>
    rw [hturn] at hstep <;> refine ⟨_, hstep, ?_⟩
  · have hk := (J.engine_inv g (List.mem_of_getElem? hg) hb).k_le
    obtain ⟨pix, pay, es, live, hless, eq⟩ := engineStep_progresses hg hb hk
    rw [runTurn, eq] at hstep
    rw [eq]
    exact .inr ⟨h.next hstep rfl rfl, dispatchLeft_lt rfl (.inr ⟨rfl, hless⟩)⟩
  · obtain ⟨g, hg⟩ := exists_engine_zero h.inv
    have eq := handOut_of_idle h.job_eq hlt hg (hidle g (List.mem_of_getElem? hg))
    rw [runTurn, eq] at hstep
    rw [eq]
    exact .inr ⟨h.next hstep rfl rfl, dispatchLeft_lt rfl (.inl (Nat.sub_succ_lt_self _ _ hlt))⟩
  · rw [joinStep_of_done h.job_eq hle (J.live_nil hidle)]
    have hS := joinJob_succeeds j s
    have hbusy := h.inv.status_ok.busy_iff_run.2 J.phase_run
    exact .inl ⟨hS.phase_idle, hS.busy_clear, hS.done_set, hS.err_eq.trans (h.inv.status_ok.busy_not_err hbusy)⟩

/-- The default turns end an open dispatch. -/
theorem OpenDispatch.completes {j : Job} {s : State} (h : OpenDispatch j s) :
    ∃ k t, Sys2Proof.core.run k s = .next t ∧ Ended t := by
  induction hn : dispatchLeft j s using WellFoundedLT.induction generalizing s with
  | ind n ih =>
    subst hn
    obtain ⟨t, e, ht | ⟨ht, hless⟩⟩ := h.proceeds
    · exact ⟨1, t, core_run_succ e 0, ht⟩
    · obtain ⟨k, u, hrun, hu⟩ := ih _ hless ht rfl
      exact ⟨k + 1, u, (core_run_succ e k).trans hrun, hu⟩

/-- Settles O45: what is left of the dispatch falls with every default turn until the join. -/
theorem anOpenDispatchCompletes : Obligations.AnOpenDispatchCompletes :=
  fun _ _ h hs hj => OpenDispatch.completes ⟨h, hs, hj⟩

end Sys2Proof.Machine
end

section
/-! SUPPORT. The registers a host writes while a command runs (70_reset_and_hazards.md R230, R231): no command and no turn of a
dispatch reads them, and DECODE's completion alone writes one of them, LEN. -/

open Sys2Proof

namespace Sys2Proof.Machine

/-! ## The operand registers -/

/-- The registers a command takes its operands from at acceptance (00_scope.md R16), and CTRL. -/
structure OperandRegs where
  ctrl : Ctrl
  arg0 : Word
  arg1 : Word
  arg2 : Word
  pixcnt : Word
  wreq : Word
  len : Word

def State.operandRegs (s : State) : OperandRegs :=
  { ctrl := s.ctrl, arg0 := s.arg0, arg1 := s.arg1, arg2 := s.arg2, pixcnt := s.pixcnt, wreq := s.wreq, len := s.len }

/-- The state with other values in its operand registers. -/
def withOperands (o : OperandRegs) (s : State) : State :=
  { s with
    ctrl := o.ctrl, arg0 := o.arg0, arg1 := o.arg1, arg2 := o.arg2, pixcnt := o.pixcnt, wreq := o.wreq, len := o.len }

@[simp] theorem withOperands_seq (o : OperandRegs) (s : State) : (withOperands o s).seq = s.seq := rfl

/-- The operand registers after a host write. -/
def OperandRegs.write (o : OperandRegs) (r : Reg) (v : Word) : OperandRegs :=
  match r with
  | .ctrl => { o with ctrl := Ctrl.ofWord v }
  | .arg0 => { o with arg0 := v }
  | .arg1 => { o with arg1 := v }
  | .arg2 => { o with arg2 := v }
  | .pixcnt => { o with pixcnt := v }
  | .wreq => { o with wreq := v }
  | .len => { o with len := v }
  | _ => o

/-- The slots of the operand registers but LEN. -/
abbrev operandSlots : List Reg := [.arg0, .arg1, .arg2, .pixcnt, .wreq, .ctrl]

theorem regWrite_eq_withOperands {r : Reg} (h : r ∈ operandSlots ∨ r = .len) (v : Word) (s : State) :
    regWrite r v s = withOperands (s.operandRegs.write r v) s := by
  simp only [List.mem_cons, List.not_mem_nil, or_false] at h
  rcases h with (rfl | rfl | rfl | rfl | rfl | rfl) | rfl <;> rfl

theorem write_setLen {r : Reg} (h : r ∈ operandSlots) (o : OperandRegs) (v l : Word) :
    { o with len := l }.write r v = { o.write r v with len := l } := by
  simp only [List.mem_cons, List.not_mem_nil, or_false] at h
  rcases h with rfl | rfl | rfl | rfl | rfl | rfl <;> rfl

/-! ## What it means not to read them -/

/-- Whatever the operand registers hold, `f` takes `s` to `t` and leaves them. -/
def LeavesOperands (f : State → Result) (s t : State) : Prop :=
  ∀ o, f (withOperands o s) = .next (withOperands o t)

/-- Whatever the operand registers hold, `f` takes `s` to `t`, sets LEN and leaves the others. -/
def SetsLen (f : State → Result) (s t : State) : Prop :=
  ∀ o, f (withOperands o s) = .next (withOperands { o with len := t.len } t)

/-- A register write before `f` is the same after it, where `f` leaves the operand registers. -/
theorem LeavesOperands.write_comm {f : State → Result} {s t : State} (h : LeavesOperands f s t) (e : f s = .next t) {r : Reg}
    (hr : r ∈ operandSlots ∨ r = .len) (v : Word) : f (regWrite r v s) = .next (regWrite r v t) := by
  have ht : t = withOperands s.operandRegs t := Host.Outcome.next.inj (e.symm.trans (h s.operandRegs))
  rw [regWrite_eq_withOperands hr, h, regWrite_eq_withOperands hr]
  conv_rhs => rw [ht]
  rfl

/-- So it is for every slot but LEN, where `f` sets LEN. -/
theorem SetsLen.write_comm {f : State → Result} {s t : State} (h : SetsLen f s t) (e : f s = .next t) {r : Reg}
    (hr : r ∈ operandSlots) (v : Word) : f (regWrite r v s) = .next (regWrite r v t) := by
  have ht : t = withOperands { s.operandRegs with len := t.len } t := Host.Outcome.next.inj (e.symm.trans (h s.operandRegs))
  rw [regWrite_eq_withOperands (.inl hr), h, regWrite_eq_withOperands (.inl hr), ← write_setLen hr]
  conv_rhs => rw [ht]
  rfl

/-- A write to LEN before `f` is lost, where `f` sets LEN (70_reset_and_hazards.md R231). -/
theorem SetsLen.write_lost {f : State → Result} {s t : State} (h : SetsLen f s t) (e : f s = .next t) (v : Word) :
    f (regWrite .len v s) = .next t :=
  (h (s.operandRegs.write .len v)).trans ((h s.operandRegs).symm.trans e)

/-! ## The commands -/

section
variable (o : OperandRegs)

/-- The written memory is a variable here: a unifier would run a header write to compare two of them. -/
theorem setPix_withOperands (m : Memory) (s : State) :
    { withOperands o s with pix := m } = withOperands o { s with pix := m } := rfl

theorem openJob_withOperands (j : Job) (l we : Nat) (s : State) :
    openJob j l we (withOperands o s) = withOperands o (openJob j l we s) := rfl

theorem encodeChecks_withOperands (s : State) : encodeChecks (withOperands o s) = encodeChecks s := rfl

theorem openChecked_withOperands {checks : List Check} {body : State → State} {s : State}
    (hb : body (withOperands o s) = withOperands o (body s)) :
    openChecked checks body (withOperands o s) = withOperands o (openChecked checks body s) := by
  cases hc : firstError checks with
  | some code => rw [openChecked_fail hc, openChecked_fail hc]; rfl
  | none => rw [openChecked_pass hc, openChecked_pass hc, hb]

theorem openDecodeLength_withOperands (l : Nat) (s : State) :
    openDecodeLength l (withOperands o s) = withOperands o (openDecodeLength l s) := by
  have hsame : lengthChecks (withOperands o s) l = lengthChecks s l := rfl
  rw [openDecodeLength, openDecodeLength, hsame]
  cases firstError (lengthChecks s l) <;> rfl

theorem opened_withOperands (j : Job) (s : State) : opened (withOperands o s) j = withOperands o (opened s j) := by
  cases j
  case encrng => exact openChecked_withOperands o rfl
  case decrng => exact openChecked_withOperands o rfl
  case encode =>
    rw [opened, openEncode, opened, openEncode, encodeChecks_withOperands]
    refine openChecked_withOperands o ?_
    exact (congrArg _ (setPix_withOperands o (hdrWrite s.opLin s.pix) s)).trans (openJob_withOperands o _ _ _ _)
  case decode => exact openChecked_withOperands o (openDecodeLength_withOperands o _ s)

theorem runRanges_withOperands (j : Job) (n : Nat) (s : State) :
    runRanges j n (withOperands o s) = withOperands o (runRanges j n s) := by
  obtain ⟨hpix, hpay⟩ := sameEnd_of_eq (s := s) (t := withOperands o s) rfl rfl rfl j n
  rw [runRanges_eq, hpix, hpay, runRanges_eq j n s]
  rfl

theorem joinJob_withOperands {j : Job} (hj : j ≠ .decode) (s : State) :
    joinJob j (withOperands o s) = withOperands o (joinJob j s) := by
  cases j
  case decode => exact absurd rfl hj
  all_goals rfl

theorem finishJob_withOperands {j : Job} {s : State} (hj : s.seq.job = some j) :
    finishJob (withOperands o s) = joinJob j (withOperands o (runRanges j (s.jobCount j) s)) := by
  rw [finishJob, withOperands_seq, hj, ← runRanges_withOperands]
  cases j <;> rfl

theorem runChecked_withOperands {checks : List Check} {body : State → State} {s t : State}
    (hb : body (withOperands o s) = withOperands o (body s)) (e : runChecked checks body s = .next t) :
    runChecked checks body (withOperands o s) = .next (withOperands o t) := by
  rcases runChecked_cases e with ⟨code, hc, e⟩ | ⟨hc, e⟩ <;> cases e
  · rw [runChecked_fail hc]; rfl
  · rw [runChecked_pass hc, hb]; rfl

end

/-- A join sets LEN to the dispatch's L in a DECODE (45_worker_orchestration.md R174). -/
theorem joinJob_decode_withOperands (o : OperandRegs) (s : State) :
    joinJob .decode (withOperands o s) = withOperands { o with len := (joinJob .decode s).len } (joinJob .decode s) := rfl

/-- Every end of a command with ranges, DECODE's success apart. -/
theorem finishJob_opened_withOperands (o : OperandRegs) {j : Job} (hj : j ≠ .decode) (s : State) :
    finishJob (opened (withOperands o s) j) = withOperands o (finishJob (opened s j)) := by
  rw [opened_withOperands]
  rcases opened_cases s j with ⟨code, r0, -, eq⟩ | ⟨l, we, pix, eq, -⟩ <;> rw [eq]
  · rfl
  · rw [finishJob_withOperands o (j := j) rfl, joinJob_withOperands o hj]
    rfl

theorem exec_leavesOperands {i : Instr} {s t : State} (hi : i ≠ .decode) (e : exec i s = .next t) :
    LeavesOperands (exec i) s t := by
  intro o
  have jobs (j : Job) (hj : j ≠ .decode) (h : ∀ u, exec i u = .next (finishJob (opened u j))) :
      exec i (withOperands o s) = .next (withOperands o t) := by
    rw [h] at e ⊢
    cases e
    rw [finishJob_opened_withOperands o hj]
  cases i
  case decode => exact absurd rfl hi
  case encrng => exact jobs .encrng (by decide) exec_encrng
  case decrng => exact jobs .decrng (by decide) exec_decrng
  case encode => exact jobs .encode (by decide) exec_encode
  case wrhdr =>
    rw [exec_wrhdr] at e ⊢
    exact runChecked_withOperands o (setPix_withOperands o (hdrWrite s.opA0 s.pix) s) e
  case rdhdr => rw [exec_rdhdr] at e ⊢; exact runChecked_withOperands o rfl e
  case embit => rw [exec_embit] at e ⊢; exact runChecked_withOperands o rfl e
  case emchr => rw [exec_emchr] at e ⊢; exact runChecked_withOperands o rfl e
  case exchr => rw [exec_exchr] at e ⊢; exact runChecked_withOperands o rfl e
  case part => rw [exec_part] at e ⊢; exact runChecked_withOperands o rfl e
  case addr => rw [exec_addr] at e ⊢; cases e; rfl
  case c2b => rw [exec_c2b] at e ⊢; cases e; rfl
  case exbit => rw [exec_exbit] at e ⊢; cases e; rfl
  case maxcap => rw [exec_maxcap] at e ⊢; cases e; rfl
  case limit => rw [exec_limit] at e ⊢; cases e; rfl

/-- DECODE fails and leaves the operand registers, or keeps ERR and sets LEN. -/
theorem exec_decode_operands {s t : State} (e : exec .decode s = .next t) :
    t.status.err = true ∧ LeavesOperands (exec .decode) s t ∨
      t.status.err = s.status.err ∧ SetsLen (exec .decode) s t := by
  have hexec (u : State) : exec .decode u = .next (finishJob (opened u .decode)) := exec_decode u
  rw [hexec] at e
  cases e
  rcases opened_cases s .decode with ⟨code, r0, -, eq⟩ | ⟨l, we, pix, eq, -⟩
  · refine .inl ⟨by rw [eq]; rfl, fun o => ?_⟩
    rw [hexec, opened_withOperands, eq]
    rfl
  · refine .inr ⟨?_, fun o => ?_⟩
    · rw [eq, finishJob_openJob, (joinJob_succeeds _ _).err_eq, runRanges_eq]
      rfl
    · rw [hexec, opened_withOperands, eq, finishJob_withOperands o (j := .decode) rfl, joinJob_decode_withOperands]
      rfl

/-- A successful DECODE sets LEN to the header it read (45_worker_orchestration.md R174). -/
theorem exec_decode_len {s t : State} (e : exec .decode s = .next t) (ht : t.status.err = false) : t.len.toNat = headerOf s := by
  cases hc : firstError (decodeChecks s) with
  | some code => rw [exec_decode, openDecode, openChecked_fail hc] at e; cases e; cases ht
  | none =>
    obtain ⟨l, hl⟩ : ∃ l, headerOf s = l := ⟨_, rfl⟩
    cases hf : firstError (lengthChecks s l) with
    | some code => rw [exec_decode_bad_length hc hl hf] at e; cases e; cases ht
    | none =>
      rw [exec_decode_good_length hc hl hf] at e
      cases e
      rw [hl]
      exact word_ofNat_toNat (hl ▸ headerOf_lt s)

/-! ## The turns of a dispatch -/

/-- What starting the accepted command is depends on its word alone: an opening, or a whole command other than DECODE, or the
error of an illegal word. -/
theorem startCommand_of_cmd (w : Word) :
    (∃ j, ∀ u : State, u.seq.cmd = w → startCommand u = .next (opened u j)) ∨
      (∃ i, i ≠ .decode ∧ ∀ u : State, u.seq.cmd = w → startCommand u = exec i u) ∨
        ∀ u : State, u.seq.cmd = w → startCommand u = .next (raiseError .illegalCmd u) := by
  have whole (i : Instr) (hi : decode w = some i) (hne : i ≠ .decode)
      (h : ∀ u : State, u.seq.cmd = w → startCommand u = runCommand u) :
      ∃ i, i ≠ .decode ∧ ∀ u : State, u.seq.cmd = w → startCommand u = exec i u :=
    ⟨i, hne, fun u hu => (h u hu).trans (runCommand_of_decode (hu ▸ hi))⟩
  cases hi : decode w with
  | none => exact .inr (.inr fun u hu => by simp only [startCommand, runCommand, hu, hi])
  | some i =>
    cases i
    case encrng => exact .inl ⟨.encrng, fun u hu => by rw [startCommand, hu, hi]; rfl⟩
    case decrng => exact .inl ⟨.decrng, fun u hu => by rw [startCommand, hu, hi]; rfl⟩
    case encode => exact .inl ⟨.encode, fun u hu => by rw [startCommand, hu, hi]; rfl⟩
    case decode => exact .inl ⟨.decode, fun u hu => by rw [startCommand, hu, hi]; rfl⟩
    all_goals exact .inr (.inl (whole _ hi (by decide) fun u hu => by simp only [startCommand, hu, hi]))

/-- The opening of a command leaves the operand registers, DECODE's too. -/
theorem startCommand_leavesOperands {s t : State} (e : startCommand s = .next t) : LeavesOperands startCommand s t := by
  intro o
  rcases startCommand_of_cmd s.seq.cmd with ⟨j, h⟩ | ⟨i, hi, h⟩ | h <;> rw [h s rfl] at e <;> rw [h (withOperands o s) rfl]
  · cases e
    rw [opened_withOperands]
  · exact exec_leavesOperands hi e o
  · cases e
    rfl

theorem handOut_withOperands (o : OperandRegs) (e : Nat) (s : State) :
    handOut e (withOperands o s) = withOperands o (handOut e s) := by
  rw [handOut, handOut, withOperands_seq]
  cases s.seq.job with
  | none => rfl
  | some j =>
    by_cases hc : s.disp.nxt < s.jobCount j ∧ s.engineIdle e = true
    · simp only [if_pos hc]
      exact if_pos hc
    · simp only [if_neg hc]
      exact if_neg hc

theorem decodeBit_withOperands (o : OperandRegs) (e : Nat) (g : Engine) (s : State) :
    decodeBit e g (withOperands o s) = withOperands o (decodeBit e g s) := by
  rw [decodeBit, decodeBit]
  split_ifs <;> rfl

theorem engineStep_withOperands (o : OperandRegs) (e : Nat) (s : State) :
    engineStep e (withOperands o s) = withOperands o (engineStep e s) := by
  have hengines : (withOperands o s).engines = s.engines := rfl
  rw [engineStep, engineStep, hengines]
  cases s.engines[e]? with
  | none => rfl
  | some g =>
    simp only
    split_ifs
    · cases g.dir
      · rfl
      · exact decodeBit_withOperands o e g s
    · rfl
    · rfl

theorem joinStep_of_not_done {s : State} {j : Job} (hj : s.seq.job = some j)
    (h : ¬(s.jobCount j ≤ s.disp.nxt ∧ s.disp.live = [])) : joinStep s = s := by
  simp only [joinStep, hj]
  exact if_neg h

/-- The join that completes a DECODE sets LEN. -/
theorem joinStep_setsLen {s : State} (hj : s.seq.job = some .decode) (hn : s.jobCount .decode ≤ s.disp.nxt)
    (hl : s.disp.live = []) : SetsLen (runTurn .join) s (joinJob .decode s) := fun o =>
  congrArg _ ((joinStep_of_done (s := withOperands o s) hj hn hl).trans (joinJob_decode_withOperands o s))

theorem joinStep_operands (s : State) :
    LeavesOperands (runTurn .join) s (joinStep s) ∨
      s.seq.job = some .decode ∧ (joinStep s).seq.job = none ∧ SetsLen (runTurn .join) s (joinStep s) := by
  cases hj : s.seq.job with
  | none =>
    have hself (u : State) (hu : u.seq.job = none) : joinStep u = u := by simp only [joinStep, hu]
    exact .inl fun o => by rw [runTurn, hself s hj, hself (withOperands o s) hj]
  | some j =>
    by_cases hdone : s.jobCount j ≤ s.disp.nxt ∧ s.disp.live = []
    · obtain ⟨hn, hl⟩ := hdone
      rw [joinStep_of_done hj hn hl]
      by_cases hd : j = .decode
      · subst hd
        exact .inr ⟨rfl, (joinJob_succeeds .decode s).job_none, joinStep_setsLen hj hn hl⟩
      · exact .inl fun o =>
          congrArg _ ((joinStep_of_done (s := withOperands o s) hj hn hl).trans (joinJob_withOperands o hd s))
    · exact .inl fun o => by
        rw [runTurn, joinStep_of_not_done hj hdone, joinStep_of_not_done (s := withOperands o s) hj hdone]

/-- A turn of a command's opening or dispatch leaves the operand registers, or it is the join that completes a DECODE. -/
theorem runTurn_operands {x : Turn} {s t : State} (hx : x = .start ∨ dispatchTurn x = true) (e : runTurn x s = .next t) :
    LeavesOperands (runTurn x) s t ∨ s.seq.job = some .decode ∧ t.seq.job = none ∧ SetsLen (runTurn x) s t := by
  cases x
  case start =>
    refine .inl fun o => ?_
    have hacc : (withOperands o s).accepted = s.accepted := rfl
    rw [runTurn, hacc]
    rw [runTurn] at e
    split at e <;> rename_i ha
    · exact (if_pos ha).trans (startCommand_leavesOperands e o)
    · cases e
      exact if_neg ha
  case handOut k => cases e; exact .inl fun o => congrArg _ (handOut_withOperands o k s)
  case engine k => cases e; exact .inl fun o => congrArg _ (engineStep_withOperands o k s)
  case join => cases e; exact joinStep_operands s
  all_goals rcases hx with hx | hx <;> cases hx

/-! ## The statements -/

/-- A register write before a step of the schedule is one before its turn. -/
theorem step_regWrite_of_sched {s : State} {x : Turn} {ts : List Turn} (hs : s.sched = x :: ts) {r : Reg}
    (hr : r ∈ operandSlots ∨ r = .len) (v : Word) : step (regWrite r v s) = runTurn x (regWrite r v { s with sched := ts }) := by
  rw [regWrite_eq_withOperands hr, regWrite_eq_withOperands hr]
  exact step_of_sched (s := withOperands _ s) hs

/-- Settles O54: every command and turn leaves the operand registers, or is DECODE's completion, which sets LEN and leaves the
others. -/
theorem registerWritesDoNotReachTheRunningCommand : Obligations.RegisterWritesDoNotReachTheRunningCommand := by
  refine ⟨fun i r v s t hr e => ?_, fun x ts r v s t hs hx hr e => ?_⟩
  · have hslot : r ∈ operandSlots ∨ r = .len := hr.imp_right And.left
    by_cases hi : i = .decode
    · subst hi
      rcases exec_decode_operands e with ⟨-, h⟩ | ⟨herr, h⟩
      · exact h.write_comm e hslot v
      · rcases hr with hr | ⟨-, hne | ⟨hs, ht⟩⟩
        · exact h.write_comm e hr v
        · exact absurd rfl hne
        · rw [hs, ht] at herr; cases herr
    · exact (exec_leavesOperands hi e).write_comm e hslot v
  · have hslot : r ∈ operandSlots ∨ r = .len := hr.imp_right And.left
    rw [step_regWrite_of_sched hs hslot]
    rw [step_of_sched hs] at e
    rcases runTurn_operands hx e with h | ⟨hjob, hended, h⟩
    · exact h.write_comm e hslot v
    · rcases hr with hr | ⟨-, hne | hopen⟩
      · exact h.write_comm e hr v
      · exact absurd hjob hne
      · rw [hended] at hopen; cases hopen

/-- L of an open DECODE fits LEN, for the capacity of an image does. -/
theorem JobInv.len_lt {s : State} (h : JobInv s .decode) : s.seq.len < 2 ^ 32 := by
  obtain ⟨hcap, -⟩ := h.checked
  have hP : s.opP < 2 ^ 32 := s.seq.snap.p.isLt
  simp only [maxCapacity, Config.firstPixel, if_pos h.image_fits.1] at hcap
  omega

/-- Settles O55: a DECODE that does not fail sets LEN to the header, and the join that completes its dispatch sets it to L. -/
theorem decodeOverwritesLen : Obligations.DecodeOverwritesLen := by
  refine ⟨fun s t v hs e ht => ?_, fun s t v ts h hs hj e hidle => ?_⟩
  · rcases exec_decode_operands e with ⟨herr, -⟩ | ⟨-, hlen⟩
    · rw [ht] at herr; cases herr
    · exact ⟨exec_decode_len e ht, hlen.write_lost e v⟩
  · have J := h.dispatch_ok.open_job .decode hj
    rw [step_regWrite_of_sched hs (.inr rfl)]
    rw [step_of_sched hs] at e
    cases e
    rcases joinStep_cases { s with sched := ts } with eq | ⟨j, hj', hn, hl, eq⟩
    · rw [eq] at hidle
      cases J.phase_run.symm.trans hidle
    · obtain rfl : Job.decode = j := Option.some.inj (hj.symm.trans hj')
      rw [eq]
      exact ⟨word_ofNat_toNat J.len_lt, (joinStep_setsLen hj' hn hl).write_lost (congrArg _ eq) v⟩

end Sys2Proof.Machine
end
